-- ==== Sys2Proof/Word.lean ====
section
/-! DEFINITION. The units the engine moves: bytes, byte sequences and floating-point bit patterns
(spec/00_scope.md R8, R11; spec/20_memory.md R40). -/

namespace Sys2Proof

/-- An unsigned 8-bit value (R8). -/
abbrev Byte := BitVec 8

/-- A finite sequence of bytes, index 0 first received or first sent (R8). -/
abbrev Bytes := List Byte

/-- A 32-bit IEEE-754 single-precision pattern at a port (R11). -/
abbrev Bin32 := BitVec 32

/-- A 64-bit IEEE-754 double-precision pattern at a port (R11). -/
abbrev Bin64 := BitVec 64

end Sys2Proof
end

