-- ==== Sys2Proof/Syntax.lean ====
section
/-! DEFINITION. The operations of PEOP-1, one constructor per row of spec/opcode_table.json
(spec/30_encoding.md R84), with their operands (R81 to R83). -/

namespace Sys2Proof

/-- The two frame families, named by the header marker (spec/00_scope.md R12; spec/30_encoding.md R61). -/
inductive Family
  | fe
  | sevenE
  deriving DecidableEq, Repr, Inhabited

/-- The legal (family, variant) pairs, each of which selects a layout (R12, R82): FE is
(0xFE, GENERIC), DIGI is (0x7E, DIGI) and LORA is (0x7E, LORA). An illegal pair has no term. -/
inductive Key
  | fe
  | digi
  | lora
  deriving DecidableEq, Repr, Inhabited

/-- The variants a 7E frame can have (R12): what VARIANT_SELECT answers when it answers one
(spec/44_decoder.md R173). -/
inductive SevenEVariant
  | digi
  | lora
  deriving DecidableEq, Repr, Inhabited

/-- The six command kinds (spec/45_encoder.md R200). -/
inductive BuildKind
  | ackData
  | ackInfo
  | connect
  | disconnect
  | describe
  | calibrate
  deriving DecidableEq, Repr, Inhabited

/-- A context that is present (spec/30_encoding.md R82, spec/45_encoder.md R202): the session frame
that a reply answers. -/
structure Context where
  key        : Key
  command    : Bytes
  address    : Bytes
  unparsed   : Bytes
  vendor     : Bytes
  deviceType : Bytes
  group      : Bytes
  deriving DecidableEq, Repr, Inhabited

/-- A request that is in form. `none` for a context is an absent one (`valid = 0x00`, R82). -/
inductive Instr
  /-- FEED, opcode 0x01, format S (R141). -/
  | feed (input : Bytes)
  /-- RESET, opcode 0x02, format Z (R150). -/
  | reset
  /-- READ_STATE, opcode 0x03, format Z (R151). -/
  | readState
  /-- SET_VARIANT, opcode 0x08, format V (R170). -/
  | setVariant (v : Byte)
  /-- WRITE_CFG, opcode 0x09, format V (R130). -/
  | writeCfg (v : Byte)
  /-- DECODE, opcode 0x10, format S (R171). -/
  | decode (fr : Bytes)
  /-- BUILD_ACK_DATA, opcode 0x20, format C (R220). -/
  | buildAckData (ctx : Option Context)
  /-- BUILD_ACK_INFO, opcode 0x21, format C (R221). -/
  | buildAckInfo (ctx : Option Context)
  /-- BUILD_CONNECT, opcode 0x22, format C (R222). -/
  | buildConnect (ctx : Option Context) (status : Byte)
  /-- BUILD_DISCONNECT, opcode 0x23, format C (R223). -/
  | buildDisconnect (ctx : Option Context) (status : Byte)
  /-- BUILD_DESCRIBE, opcode 0x24, format C (R224). -/
  | buildDescribe (ctx : Option Context) (model serial ipRating explosionGrade description : Bytes)
  /-- BUILD_CALIBRATE, opcode 0x25, format C (R225). -/
  | buildCalibrate (ctx : Option Context) (index : Byte) (unit : Bytes) (value : Bin64)
  /-- CHK_XOR, opcode 0x30, format S (R101). -/
  | chkXor (data : Bytes)
  /-- CHK_CSUM, opcode 0x31, format S (R103). -/
  | chkCsum (data : Bytes)
  /-- F32_DECODE, opcode 0x40, format W (R121). -/
  | f32Decode (w : Bin32)
  /-- F32_ENCODE, opcode 0x41, format D (R126). -/
  | f32Encode (d : Bin64)
  deriving DecidableEq, Repr, Inhabited

end Sys2Proof
end

