-- ==== Sys2Proof/Config.lean ====
section
/-! DEFINITION. The parameters P1 to P14 of spec/00_scope.md R7 as plain data, the uninterpreted
constant that stands for the parameters of the instance that reset creates, and the free
values of spec/42_float_codec.md R124 and R125. The well-formedness checks WF1 to WF7 of
spec/30_encoding.md R74 hold of every term by the types here and by the widths of Machine/Operands.lean:
a registry that fails one has no term, so no engine is instantiated on it (spec/70_reset_and_hazards.md
R263; notes/assumptions/7.md). -/

namespace Sys2Proof

/-- The two float decode modes (spec/10_state.md R24). -/
inductive FloatMode
  | ieee
  | legacy
  deriving DecidableEq, Repr, Inhabited

/-- The kind of a content field with its width (spec/30_encoding.md R73): UINT of 1 to 8 bytes
(`uint m` is `m + 1` bytes wide), TEXT of any width, F32 of 4 bytes. So check WF4 holds of every term. -/
inductive FieldFormat
  | uint (m : Fin 8)
  | text (w : Nat)
  | f32
  deriving DecidableEq, Repr, Inhabited

/-- A field spec `(name, off, w, kind)`; `off` counts from the start of content (R73). -/
structure FieldSpec where
  name   : String
  off    : Nat
  format : FieldFormat
  deriving DecidableEq, Repr, Inhabited

/-- Checks WF5 (field names unique within an entry) and WF6 (no entry for 0x05FF) of R74. -/
def contentEntryLegal (fc : BitVec 16) (specs : List FieldSpec) : Bool :=
  decide (specs.map FieldSpec.name).Nodup && decide (fc ≠ 0x05FF)

/-- One entry of the content field table `CT` (P7, R73), which checks WF5 and WF6 admit (R74). -/
structure ContentEntry where
  key   : Key
  fc    : BitVec 16
  specs : List FieldSpec
  legal : contentEntryLegal fc specs = true
  deriving DecidableEq, Repr

/-- One point at which VARIANT_SELECT (P8) differs from its default (spec/44_decoder.md R173): for
this flag and total length it gives `select`. A LEN_SET is written as the points it leaves out. -/
structure VariantRule where
  flag   : BitVec 2
  length : Nat
  select : Option SevenEVariant
  deriving DecidableEq, Repr, Inhabited

/-- One point at which TX_COMMAND or TX_UNPARSED (P12) differs from its default
(spec/45_encoder.md R203): for this key, kind and context it gives `bytes`. -/
structure TxRule where
  key   : Key
  kind  : BuildKind
  ctx   : Context
  bytes : Bytes
  deriving DecidableEq, Repr, Inhabited

/-- A rational number `num / (denPred + 1)`. -/
structure Ratio where
  num     : Int
  denPred : Nat
  deriving DecidableEq, Repr, Inhabited

/-- FC_TX of one key, a 16-bit code for each kind (P9, R201; so check WF7 holds). -/
structure TxCodes where
  ackData    : BitVec 16
  ackInfo    : BitVec 16
  connect    : BitVec 16
  disconnect : BitVec 16
  describe   : BitVec 16
  calibrate  : BitVec 16
  deriving DecidableEq, Repr, Inhabited

/-- DESC_W of one key, the widths of the five describe texts (P11, spec/45_encoder.md R210). -/
structure DescWidths where
  model          : Nat
  serial         : Nat
  ipRating       : Nat
  explosionGrade : Nat
  description    : Nat
  deriving DecidableEq, Repr, Inhabited

/-- The parameters that every key has: UW (P5), VW, DTW, GW (P6), FC_TX (P9), ACK_PAYLOAD (P10),
DESC_W and UNIT_W (P11). -/
structure KeyParams where
  unparsedWidth   : Nat
  vendorWidth     : Nat
  deviceTypeWidth : Nat
  groupWidth      : Nat
  txCodes         : TxCodes
  ackDataPayload  : Bytes
  ackInfoPayload  : Bytes
  descWidths      : DescWidths
  unitWidth       : Nat
  deriving DecidableEq, Repr, Inhabited

/-- The parameters P1 to P14 of spec/00_scope.md R7, as plain data. -/
structure Config where
  /-- P1 CARRY_CAP; `none` is INF. -/
  carryCap                 : Option Nat
  /-- P2 FLOAT_MODE_RESET. -/
  floatModeReset           : FloatMode
  /-- P3 CW(DIGI), 0..2 (check WF3). -/
  commandWidthDigi         : Fin 3
  /-- P4 AW(FE), 0..8 (check WF3). -/
  addressWidthFe           : Fin 9
  /-- P4 AW(DIGI), 0..8 (check WF3). -/
  addressWidthDigi         : Fin 9
  /-- P5, P6, P9 to P11 of key FE. -/
  fe                       : KeyParams
  /-- P5, P6, P9 to P11 of key DIGI. -/
  digi                     : KeyParams
  /-- P5, P6, P9 to P11 of key LORA. -/
  lora                     : KeyParams
  /-- P7 CT. -/
  contentEntries           : List ContentEntry
  /-- P8 VARIANT_SELECT, as the points where it differs from its default. -/
  variantRules             : List VariantRule
  /-- P12 TX_COMMAND, as the points where it differs from its default. -/
  txCommandRules           : List TxRule
  /-- P12 TX_UNPARSED, as the points where it differs from its default. -/
  txUnparsedRules          : List TxRule
  /-- P13 LEGACY_POW2, one rational number for each 8-bit exponent (notes/assumptions/5.md). -/
  legacyPow2               : Vector Ratio 256
  /-- P14 CHK7E_DIGI_AFTER_LENGTH. -/
  chk7eDigiAfterLength     : Bool
  deriving DecidableEq, Repr, Inhabited

/-- The parameters of the instance that power-on reset creates: OPEN, so uninterpreted
(R7, R25; DESIGN CHOICE on the form, notes/assumptions/1.md). -/
opaque Config.params : Config

/-- Free value: whether the `n`-th LEGACY zero drawn for `s = 1`, `f = 0` is the negative one
(spec/42_float_codec.md R125, spec/93_implementation_defined.md I3; notes/assumptions/4.md). -/
opaque Config.legacyZeroNegative : Nat → Bool

/-- Free value: whether the LEGACY decode of `w` is the negative zero where `f ≠ 0` and LEGACY_POW2(e) is
0, a sign that spec/42_float_codec.md R124 and R125 do not state. It is one value for each operand, so a
repeated request gets the same response (spec/20_memory.md R44; notes/assumptions/4.md). -/
opaque Config.legacyNullNegative : Bin32 → Bool

end Sys2Proof
end

