-- ==== Sys2Proof/Machine/State.lean ====
section
/-! DEFINITION. The state of the engine (spec/10_state.md R20 to R30), the responses of its port
(spec/60_exceptions.md R241, spec/44_decoder.md R176), why a step can stop, and the state after
power-on reset (spec/70_reset_and_hazards.md R260). -/

namespace Sys2Proof.Machine

/-- The status codes (spec/60_exceptions.md R241). -/
inductive Status
  | ok
  | errPrecondition
  | errOperand
  | errLength
  | errIllegalOp
  | warnCarryTruncated
  deriving DecidableEq, Repr

/-- The status of a decoded field (spec/44_decoder.md R176); MALFORMED is never produced (R180). -/
inductive FieldStatus
  | ok
  | truncated
  | malformed
  deriving DecidableEq, Repr

/-- A field of the content prefix: `(status, raw, value = ube(raw))`, no bytes when truncated
(R176, R177). -/
structure PrefixField where
  status : FieldStatus
  raw    : Bytes
  value  : Nat
  deriving DecidableEq, Repr

/-- The kind of a content field (spec/30_encoding.md R73). -/
inductive FieldKind
  | uint
  | text
  | f32
  deriving DecidableEq, Repr

/-- The value of a content field that fits, by its kind (spec/44_decoder.md R179). -/
inductive FieldValue
  | uint (n : Nat)
  | text (raw : Bytes)
  | f32 (d : Bin64)
  deriving DecidableEq, Repr

/-- An extracted content field `(name, kind, status, raw, value)`; raw and value are absent when it is
truncated (R176, R179). -/
structure DecodedField where
  name   : String
  kind   : FieldKind
  status : FieldStatus
  raw    : Option Bytes
  value  : Option FieldValue
  deriving DecidableEq, Repr

/-- The `DecodedFrame` record (R176); `none` is the spec's "absent". -/
structure DecodedFrame where
  flags        : BitVec 8 := 0
  family       : Option Family := none
  key          : Option Key := none
  header       : Option Byte := none
  lengthField  : Option Bytes := none
  lengthValue  : Option Nat := none
  command      : Option Bytes := none
  address      : Option Bytes := none
  unparsed     : Option Bytes := none
  content      : Option Bytes := none
  checksum     : Option Byte := none
  vendor       : Option PrefixField := none
  deviceType   : Option PrefixField := none
  group        : Option PrefixField := none
  functionCode : Option (BitVec 16) := none
  payload      : Option Bytes := none
  fields       : List DecodedField := []
  deriving DecidableEq, Repr

/-- What a response carries beside its status: the operation's results, each its own record
(spec/30_encoding.md R80), or the info of a refusal (R241). -/
inductive Results
  /-- `()`, or a refusal with no info. -/
  | none
  /-- FEED (spec/43_reassembler.md R141). -/
  | feed (frames : List Bytes) (discarded : Bytes) (ctrunc : Bool)
  /-- READ_STATE (R151). -/
  | state (session cfg : Byte) (carry : Bytes)
  /-- DECODE (spec/44_decoder.md R171). -/
  | decoded (out : DecodedFrame)
  /-- BUILD operations (spec/45_encoder.md R205). -/
  | frame (bytes : Bytes)
  /-- CHK_XOR and CHK_CSUM (spec/41_checksum.md R101, R103). -/
  | chk (b : Byte)
  /-- F32_DECODE (spec/42_float_codec.md R121). -/
  | bin64 (d : Bin64)
  /-- F32_ENCODE (R126). -/
  | bin32 (w : Bin32)
  /-- The info of ERR_ILLEGAL_OP, and of ERR_OPERAND for a reserved `imm8` (R241). -/
  | infoByte (b : Byte)
  /-- The info of ERR_LENGTH (R241). -/
  | infoLength (L : Nat)
  deriving DecidableEq, Repr

/-- A response (spec/30_encoding.md R80). -/
structure Response where
  status  : Status
  results : Results
  deriving DecidableEq, Repr

/-- The machine. The spec's architectural state is `carry`, `session` and `cfg` (R20); `inbox` and
`response` are its request port (spec/00_scope.md R5, notes/assumptions/2.md); `config` is the step's
argument and never written (R25, notes/assumptions/1.md); `draws` counts free values
(notes/assumptions/4.md). -/
structure State where
  /-- The parameters P1 to P14 of this instance (spec/00_scope.md R7). -/
  config   : Config
  /-- CARRY (R21). -/
  carry    : Bytes
  /-- SESSION: VARIANT in bits [1:0] (R22). -/
  session  : BitVec 8
  /-- CFG: FLOAT_MODE in bit [0] (R24). -/
  cfg      : BitVec 8
  /-- The requests standing at the port, oldest first, each a unit of known length (R80). -/
  inbox    : List Bytes
  /-- The response to the last request performed. -/
  response : Option Response
  /-- How many free values have been drawn: the model's own field. -/
  draws    : Nat
  deriving DecidableEq, Repr

/-- Why the machine stops with a fault: never. "The engine never traps, never raises an interrupt and
never stalls" (spec/60_exceptions.md R240), so the type has no term. Safe: nothing is hidden in it. -/
inductive Fault : Type
  deriving DecidableEq, Repr

/-- Why the model gives a request no meaning. -/
inductive Refusal
  /-- Raised by an arm of `exec` for an operation with no meaning yet; no arm does. Safe. -/
  | notModelled (mnemonic : String)
  deriving DecidableEq, Repr

/-- The machine after power-on reset (R260): CARRY empty, SESSION 0 (UNSET), CFG with FLOAT_MODE at the
OPEN parameter FLOAT_MODE_RESET of the uninterpreted configuration (R262) and its reserved bits 0, and
no request made yet (DESIGN CHOICE, notes/assumptions/1.md, 2.md and 4.md). -/
def State.reset : State where
  config   := Config.params
  carry    := []
  session  := 0
  cfg      := match Config.params.floatModeReset with
    | .ieee => 0
    | .legacy => 1
  inbox    := []
  response := none
  draws    := 0

end Sys2Proof.Machine
end

