-- ==== Sys2Proof/Machine/Flags.lean ====
section
/-! DEFINITION. The outcome encodings: response status codes (spec/60_exceptions.md R241), field status
codes and the flag bits of a DecodedFrame (spec/44_decoder.md R176). The engine has no persistent flags
(spec/10_state.md R27). -/

namespace Sys2Proof.Machine

/-- The status byte of a response (R241). -/
def statusCode : Status → Byte
  | .ok => 0x00
  | .errPrecondition => 0x01
  | .errOperand => 0x02
  | .errLength => 0x03
  | .errIllegalOp => 0x04
  | .warnCarryTruncated => 0x05

/-- The operation is refused: a status named ERR_ (R241, R243). -/
def isRefusal : Status → Bool
  | .ok => false
  | .errPrecondition => true
  | .errOperand => true
  | .errLength => true
  | .errIllegalOp => true
  | .warnCarryTruncated => false

/-- The code of a field status (R176). -/
def fieldStatusCode : FieldStatus → Nat
  | .ok => 0
  | .truncated => 1
  | .malformed => 2

/-- Bit 0 NOT_A_FRAME (R176). -/
def flagNotAFrame : BitVec 8 := 0x01
/-- Bit 1 VARIANT_UNRESOLVED (R176). -/
def flagVariantUnresolved : BitVec 8 := 0x02
/-- Bit 2 HEADER_TRUNCATED (R176). -/
def flagHeaderTruncated : BitVec 8 := 0x04
/-- Bit 3 FC_ABSENT (R176). -/
def flagFcAbsent : BitVec 8 := 0x08
/-- Bit 4 UNRECOGNIZED_FC (R176). -/
def flagUnrecognizedFc : BitVec 8 := 0x10
/-- Bit 5 LENGTH_MISMATCH (R176). -/
def flagLengthMismatch : BitVec 8 := 0x20

/-- `out.flags.F <- 1`. -/
def DecodedFrame.mark (out : DecodedFrame) (flag : BitVec 8) : DecodedFrame :=
  { out with flags := out.flags ||| flag }

end Sys2Proof.Machine
end

