-- ==== Sys2Proof/Machine/Operands.lean ====
section
/-! DEFINITION. How operands, frame regions and registry entries are read: big-endian numbers and
slices (spec/00_scope.md R8, R9; spec/20_memory.md R41, R42), the constants of the two families
(spec/30_encoding.md R61 to R64), and the registry's layouts and tables (R70 to R73). -/

namespace Sys2Proof.Machine

/-! ### Byte sequences -/

/-- `ube(s)`, the big-endian unsigned value (R9). -/
def ube (s : Bytes) : Nat :=
  s.foldl (fun v b => 256 * v + b.toNat) 0

/-- `be_N(v)`, the `N`-byte big-endian sequence of `v < 256^N` (R9). -/
def be : Nat → Nat → Bytes
  | 0, _ => []
  | n + 1, v => be n (v / 256) ++ [BitVec.ofNat 8 v]

/-- The bytes of `s` at the indices `a` to `e - 1`: the spec's `s[a .. e-1]` (R8). -/
def slice (s : Bytes) (a e : Nat) : Bytes :=
  (s.take e).drop a

/-- The `n` bytes of `s` at offset `a` when they lie within `s`; a region of width 0 lies within `s`
when `a ≤ |s|` (spec/44_decoder.md R174, R177). -/
def sliceWithin (s : Bytes) (a n : Nat) : Option Bytes :=
  if a + n ≤ s.length then some (slice s a (a + n)) else none

/-! ### Families and keys -/

/-- The header marker of a family (R61). -/
def marker : Family → Byte
  | .fe => 0xFE
  | .sevenE => 0x7E

/-- The family that a byte marks; no byte but 0xFE and 0x7E begins a frame (R61, R142). -/
def markerFamily (b : Byte) : Option Family :=
  if b = 0xFE then some .fe else if b = 0x7E then some .sevenE else none

/-- LW, the width of the length field (R62). -/
def lengthWidth : Family → Nat
  | .fe => 1
  | .sevenE => 2

/-- OFFSET, the total length less the length value (R63). -/
def fixedOffset : Family → Nat
  | .fe => 5
  | .sevenE => 4

/-- The family of a key (R12). -/
def keyFamily : Key → Family
  | .fe => .fe
  | .digi => .sevenE
  | .lora => .sevenE

/-- The key of a 7E variant (R12). -/
def variantKey : SevenEVariant → Key
  | .digi => .digi
  | .lora => .lora

/-! ### The registry's layouts (R71, R72) -/

/-- The parameters of a key. -/
def keyParams (c : Config) : Key → KeyParams
  | .fe => c.fe
  | .digi => c.digi
  | .lora => c.lora

/-- CW(k): 2 for FE (WF1), 0 for LORA (WF2), P3 for DIGI (R71). -/
def commandWidth (c : Config) : Key → Nat
  | .fe => 2
  | .digi => c.commandWidthDigi.val
  | .lora => 0

/-- AW(k): P4, and 0 for LORA (WF2) (R71). -/
def addressWidth (c : Config) : Key → Nat
  | .fe => c.addressWidthFe.val
  | .digi => c.addressWidthDigi.val
  | .lora => 0

/-- UW(k), P5 (R71). -/
def unparsedWidth (c : Config) (k : Key) : Nat := (keyParams c k).unparsedWidth

/-- VW(k), P6 (R72). -/
def vendorWidth (c : Config) (k : Key) : Nat := (keyParams c k).vendorWidth

/-- DTW(k), P6 (R72). -/
def deviceTypeWidth (c : Config) (k : Key) : Nat := (keyParams c k).deviceTypeWidth

/-- GW(k), P6 (R72). -/
def groupWidth (c : Config) (k : Key) : Nat := (keyParams c k).groupWidth

/-- CS(k), where content starts (R71). -/
def contentStart (c : Config) (k : Key) : Nat :=
  1 + lengthWidth (keyFamily k) + commandWidth c k + addressWidth c k + unparsedWidth c k

/-- FC_OFF(k), the offset of the function code in content (R68). -/
def functionCodeOffset (c : Config) (k : Key) : Nat :=
  vendorWidth c k + deviceTypeWidth c k + groupWidth c k

/-! ### The content field table (R73) -/

/-- The width of a field (R73). -/
def fieldWidth : FieldFormat → Nat
  | .uint m => m.val + 1
  | .text w => w
  | .f32 => 4

/-- `CT(k, fc)`: absent, or the ordered list of field specs (R73), those of the first entry for the key
and the code (notes/assumptions/7.md). -/
def contentTable (c : Config) (k : Key) (fc : BitVec 16) : Option (List FieldSpec) :=
  (c.contentEntries.find? fun e => decide (e.key = k) && decide (e.fc = fc)).map ContentEntry.specs

/-! ### The variant selector (spec/44_decoder.md R173) -/

/-- The encodings of SESSION.VARIANT (spec/10_state.md R22). -/
def variantUnset : BitVec 2 := 0b00
/-- VARIANT = DIGI (R22). -/
def variantDigi : BitVec 2 := 0b01
/-- VARIANT = LORA (R22). -/
def variantLora : BitVec 2 := 0b10

/-- The default of VARIANT_SELECT with every length in LEN_SET: the flag, when it is DIGI or LORA. -/
def variantSelectDefault (flag : BitVec 2) : Option SevenEVariant :=
  if flag = variantDigi then some .digi else if flag = variantLora then some .lora else none

/-- `VARIANT_SELECT(flag, T)` (P8): the configuration's own answer where it has one, else the default. -/
def variantSelect (c : Config) (flag : BitVec 2) (T : Nat) : Option SevenEVariant :=
  match c.variantRules.find? fun r => decide (r.flag = flag) && decide (r.length = T) with
  | some r => r.select
  | none => variantSelectDefault flag

/-! ### The encoder's tables (spec/45_encoder.md) -/

/-- `FC_TX(k, kind)`, P9 (R201). -/
def txCode (c : Config) (k : Key) : BuildKind → BitVec 16
  | .ackData => (keyParams c k).txCodes.ackData
  | .ackInfo => (keyParams c k).txCodes.ackInfo
  | .connect => (keyParams c k).txCodes.connect
  | .disconnect => (keyParams c k).txCodes.disconnect
  | .describe => (keyParams c k).txCodes.describe
  | .calibrate => (keyParams c k).txCodes.calibrate

/-- The answer that P12's own points give for a key, a kind and a context. -/
def txRule (rules : List TxRule) (k : Key) (kind : BuildKind) (ctx : Context) : Option Bytes :=
  (rules.find? fun r => decide (r.key = k) && decide (r.kind = kind) && decide (r.ctx = ctx)).map
    TxRule.bytes

/-- The default of TX_COMMAND (R203): copy from the context; for LORA the empty sequence, so a LORA
context's own command bytes are dropped and do not refuse the build (DEDUCED, unsafe,
notes/assumptions/8.md). -/
def txCommandDefault : Key → Context → Bytes
  | .fe, ctx => ctx.command
  | .digi, ctx => ctx.command
  | .lora, _ => []

/-- The default of TX_UNPARSED (R203): copy from the context; for LORA the empty sequence, so with
UW(LORA) = 0 a LORA context's own unparsed bytes are dropped and do not refuse the build, and with
UW(LORA) > 0 every LORA build is refused (DEDUCED, unsafe, notes/assumptions/8.md). -/
def txUnparsedDefault : Key → Context → Bytes
  | .fe, ctx => ctx.unparsed
  | .digi, ctx => ctx.unparsed
  | .lora, _ => []

/-- `TX_COMMAND(k, kind)(ctx)`, P12 (R203). -/
def txCommand (c : Config) (k : Key) (kind : BuildKind) (ctx : Context) : Bytes :=
  (txRule c.txCommandRules k kind ctx).getD (txCommandDefault k ctx)

/-- `TX_UNPARSED(k, kind)(ctx)`, P12 (R203). -/
def txUnparsed (c : Config) (k : Key) (kind : BuildKind) (ctx : Context) : Bytes :=
  (txRule c.txUnparsedRules k kind ctx).getD (txUnparsedDefault k ctx)

/-- `ACK_PAYLOAD(k, ACK_DATA)`, P10 (R206). -/
def ackDataPayload (c : Config) (k : Key) : Bytes := (keyParams c k).ackDataPayload

/-- `ACK_PAYLOAD(k, ACK_INFO)`, P10 (R206). -/
def ackInfoPayload (c : Config) (k : Key) : Bytes := (keyParams c k).ackInfoPayload

/-- `DESC_W(k, i)` for i = 0..4, P11 (R210). -/
def descWidths (c : Config) (k : Key) : DescWidths := (keyParams c k).descWidths

/-- `UNIT_W(k)`, P11 (R211). -/
def unitWidth (c : Config) (k : Key) : Nat := (keyParams c k).unitWidth

/-- `LEGACY_POW2(e)`, P13 (spec/42_float_codec.md R124). -/
def legacyPow2 (c : Config) (e : BitVec 8) : Ratio := c.legacyPow2[e.toFin]

end Sys2Proof.Machine
end

