-- ==== Sys2Proof/Machine/Ops.lean ====
section
/-! DEFINITION. The named operations over the registers and the port: reading and writing the fields of
SESSION and CFG (spec/10_state.md R22 to R24), answering a request, and refusing one
(spec/00_scope.md R10, spec/60_exceptions.md R243, R246). -/

namespace Sys2Proof.Machine

/-! ### SESSION and CFG -/

/-- SESSION.VARIANT, bits [1:0] (R22). -/
def sessionVariant (s : State) : BitVec 2 := s.session.extractLsb' 0 2

/-- SESSION as READ_STATE reads it: the reserved bits [7:2] read 0 (R22). -/
def readSession (s : State) : BitVec 8 := s.session &&& 0x03

/-- `SESSION.VARIANT <- v`; the reserved bits are not written (R22, R23). -/
def writeVariant (v : BitVec 2) (s : State) : State :=
  { s with session := (s.session &&& 0xFC) ||| v.setWidth 8 }

/-- CFG.FLOAT_MODE, bit [0]: 0 IEEE, 1 LEGACY (R24). -/
def floatMode (s : State) : FloatMode :=
  if s.cfg.extractLsb' 0 1 = 0 then .ieee else .legacy

/-- CFG as READ_STATE reads it: the reserved bits [7:1] read 0 (R24). -/
def readCfg (s : State) : BitVec 8 := s.cfg &&& 0x01

/-- `CFG.FLOAT_MODE <- v`; the reserved bits are not written (R24). -/
def writeFloatMode (v : BitVec 1) (s : State) : State :=
  { s with cfg := (s.cfg &&& 0xFE) ||| v.setWidth 8 }

/-! ### The response -/

/-- The response goes to the port: one for each request (spec/00_scope.md R5). -/
def respond (status : Status) (results : Results) (s : State) : State :=
  { s with response := some ⟨status, results⟩ }

/-- `return (...)`: status OK and the results (spec/00_scope.md R10). -/
def answer (results : Results) (s : State) : State := respond .ok results s

/-- `raise <Status>(info)`: the one way an operation is refused. There is no trap entry: no state is
saved or written, no mode changes, no vector is taken, and none returns (R10, R243, R246, R247). -/
def raise (status : Status) (info : Results) (s : State) : State := respond status info s

end Sys2Proof.Machine
end

