-- ==== Sys2Proof/Machine/FloatCodec.lean ====
section
/-! DEFINITION. ieee754_float_codec: decode in IEEE and LEGACY mode, encode, F32_DECODE, F32_ENCODE and
WRITE_CFG (spec/42_float_codec.md R120 to R130). -/

namespace Sys2Proof.Machine

/-! ### Bit patterns (spec/00_scope.md R11) -/

/-- The sign of a bin32, bit 31. -/
def sign32 (w : Bin32) : BitVec 1 := w.extractLsb' 31 1
/-- The exponent of a bin32, bits [30:23]. -/
def exponent32 (w : Bin32) : BitVec 8 := w.extractLsb' 23 8
/-- The fraction of a bin32, bits [22:0]. -/
def fraction32 (w : Bin32) : BitVec 23 := w.extractLsb' 0 23
/-- The bin32 of a sign, an exponent and a fraction. -/
def pack32 (s : BitVec 1) (e f : Nat) : Bin32 := s ++ BitVec.ofNat 8 e ++ BitVec.ofNat 23 f

/-- The sign of a bin64, bit 63. -/
def sign64 (d : Bin64) : BitVec 1 := d.extractLsb' 63 1
/-- The exponent of a bin64, bits [62:52]. -/
def exponent64 (d : Bin64) : BitVec 11 := d.extractLsb' 52 11
/-- The fraction of a bin64, bits [51:0]. -/
def fraction64 (d : Bin64) : BitVec 52 := d.extractLsb' 0 52
/-- The bin64 of a sign, an exponent and a fraction. -/
def pack64 (s : BitVec 1) (e f : Nat) : Bin64 := s ++ BitVec.ofNat 11 e ++ BitVec.ofNat 52 f

/-! ### Decode -/

/-- `f32dec(w, IEEE)`: exact widening; a NaN is made quiet with its payload kept (R122, R123). -/
def f32decIeee (w : Bin32) : Bin64 :=
  let s := sign32 w
  let e := (exponent32 w).toNat
  let f := (fraction32 w).toNat
  if e = 0xFF then
    if f = 0 then pack64 s 0x7FF 0 else pack64 s 0x7FF (2 ^ 51 ||| f <<< 29)
  else if e = 0 then
    if f = 0 then pack64 s 0 0
    else
      let n := f.log2
      pack64 s (n + 874) ((f - 2 ^ n) <<< (52 - n))
  else pack64 s (e + 896) (f <<< 29)

/-- The quotient `a / b` of naturals rounded to the nearest integer, ties to even. -/
def roundDivEven (a b : Nat) : Nat :=
  let q := a / b
  let r := a % b
  if 2 * r > b ∨ (2 * r = b ∧ q % 2 = 1) then q + 1 else q

/-- `floor(log2 (a / b))` for positive `a` and `b`. -/
def log2Ratio (a b : Nat) : Int :=
  let k : Int := (a.log2 : Int) - (b.log2 : Int)
  if b * 2 ^ k.toNat ≤ a * 2 ^ (-k).toNat then k else k - 1

/-- `round_to_nearest_even_bin64` of the number of sign `s` and magnitude `a / b`, both positive: the
significand keeps 53 bits, or the quantum 2^-1074 below the normal range; too large gives infinity (R125).
A magnitude that rounds to 0 gives the zero of sign `s`: R125 names the sign of the infinity alone, so
the sign of this zero is the model's choice (PRESUMED, notes/assumptions/11.md). -/
def round64 (s : BitVec 1) (a b : Nat) : Bin64 :=
  let k := log2Ratio a b
  let q : Int := max k (-1022) - 52
  let t := roundDivEven (a * 2 ^ (-q).toNat) (b * 2 ^ q.toNat)
  if k < -1022 then pack64 s (t / 2 ^ 52) (t % 2 ^ 52)
  else
    let k' := if t = 2 ^ 53 then k + 1 else k
    let t' := if t = 2 ^ 53 then 2 ^ 52 else t
    if k' > 1023 then pack64 s 0x7FF 0 else pack64 s (k' + 1023).toNat (t' - 2 ^ 52)

/-- `r` of R124 for `f ≠ 0`, rounded: `m = 1 + f / 2^23`, and its magnitude is a numerator over
`2^23 * den`. A product that is 0 because LEGACY_POW2(e) is 0 gives a zero whose sign the spec does not
state: a free value of the operand (DESIGN CHOICE, notes/assumptions/4.md). -/
def legacyProductRounded (w : Bin32) (p : Ratio) : Bin64 :=
  if p.num = 0 then pack64 (BitVec.ofBool (Config.legacyNullNegative w)) 0 0
  else
    round64 (if p.num < 0 then ~~~sign32 w else sign32 w)
      ((2 ^ 23 + (fraction32 w).toNat) * p.num.natAbs) (2 ^ 23 * (p.denPred + 1))

/-- `f32dec(w, LEGACY)` with the number of free values drawn before it, and the number drawn after it
(R124, R125). With `f = 0` the result is a zero: `+0.0` when `s = 0`, and a draw when `s = 1`, the only
draw there is (notes/assumptions/4.md). -/
def f32decLegacy (c : Config) (w : Bin32) (draws : Nat) : Bin64 × Nat :=
  if fraction32 w = 0 then
    if sign32 w = 0 then (pack64 0 0 0, draws)
    else (pack64 (BitVec.ofBool (Config.legacyZeroNegative draws)) 0 0, draws + 1)
  else (legacyProductRounded w (legacyPow2 c (exponent32 w)), draws)

/-- `f32dec(w, mode)` (R120), with the count of free values before and after. -/
def f32dec (c : Config) (mode : FloatMode) (w : Bin32) (draws : Nat) : Bin64 × Nat :=
  match mode with
  | .ieee => (f32decIeee w, draws)
  | .legacy => f32decLegacy c w draws

/-! ### Encode -/

/-- `bitlen(M)`, the number of binary digits of `M > 0` (R127). -/
def bitlen (M : Nat) : Nat := M.log2 + 1

/-- `rne(M, sh)`: `M / 2^sh`, ties to even (R127). -/
def rne (M : Nat) (sh : Int) : Nat :=
  if sh ≤ 0 then M <<< (-sh).toNat
  else
    let n := sh.toNat
    let t := M >>> n
    let rem := M - (t <<< n)
    let half := 2 ^ (n - 1)
    if rem > half ∨ (rem = half ∧ t % 2 = 1) then t + 1 else t

/-- `f32enc` of the finite nonzero number of sign `s` and magnitude `M * 2^q`, `M > 0` (R127). -/
def f32encFinite (s : BitVec 1) (M : Nat) (q : Int) : Bin32 :=
  let k : Int := (bitlen M : Int) - 1 + q
  if k ≥ -126 then
    let r := rne M ((bitlen M : Int) - 24)
    let k' := if r = 2 ^ 24 then k + 1 else k
    let r' := if r = 2 ^ 24 then 2 ^ 23 else r
    if k' > 127 then pack32 s 0xFF 0 else pack32 s (k' + 127).toNat (r' - 2 ^ 23)
  else
    let r := rne M (-149 - q)
    if r = 2 ^ 23 then pack32 s 1 0 else pack32 s 0 r

/-- `f32enc(d)`: nearest, ties to even; special inputs by R128 (R127, R128). -/
def f32enc (d : Bin64) : Bin32 :=
  let s := sign64 d
  let E := (exponent64 d).toNat
  let F := (fraction64 d).toNat
  if E = 0x7FF then
    if F = 0 then pack32 s 0xFF 0 else pack32 s 0xFF (2 ^ 22 ||| F >>> 29)
  else if E = 0 then
    if F = 0 then pack32 s 0 0 else f32encFinite s F (-1074)
  else f32encFinite s (F + 2 ^ 52) ((E : Int) - 1075)

/-! ### The operations -/

/-- F32_DECODE (R121). -/
def execF32Decode (w : Bin32) (s : State) : Host.Outcome State Fault Refusal :=
  .next (answer (.bin64 (f32dec s.config (floatMode s) w s.draws).1)
    { s with draws := (f32dec s.config (floatMode s) w s.draws).2 })

/-- F32_ENCODE (R126); no mode applies. -/
def execF32Encode (d : Bin64) (s : State) : Host.Outcome State Fault Refusal :=
  .next (answer (.bin32 (f32enc d)) s)

/-- WRITE_CFG (R130): a set bit among [7:1] is refused (R87), else FLOAT_MODE is written. -/
def execWriteCfg (v : Byte) (s : State) : Host.Outcome State Fault Refusal :=
  if v.extractLsb' 1 7 ≠ 0 then .next (raise .errOperand (.infoByte v) s)
  else .next (answer .none (writeFloatMode (v.extractLsb' 0 1) s))

end Sys2Proof.Machine
end

