-- ==== Sys2Proof/Machine/Decoder.lean ====
section
/-! DEFINITION. frame_decoder: SET_VARIANT and DECODE (spec/44_decoder.md R170 to R182). -/

namespace Sys2Proof.Machine

/-- SET_VARIANT (R170): a value other than 0x00, 0x01, 0x02 is refused and SESSION stands. -/
def execSetVariant (v : Byte) (s : State) : Host.Outcome State Fault Refusal :=
  if v = 0x00 ∨ v = 0x01 ∨ v = 0x02 then .next (answer .none (writeVariant (v.extractLsb' 0 2) s))
  else .next (raise .errOperand (.infoByte v) s)

/-! ### The parts of DECODE -/

/-- The family, header, length field and checksum of an input whose first byte is a marker of `fam`
(R171), with LENGTH_MISMATCH as information (R181). -/
def decodeFixed (fam : Family) (fr : Bytes) : DecodedFrame :=
  let out : DecodedFrame :=
    { family := some fam
      header := some (marker fam)
      checksum := if 2 ≤ fr.length then fr[fr.length - 1]? else none }
  if 1 + lengthWidth fam ≤ fr.length - 1 then
    let lengthField := slice fr 1 (1 + lengthWidth fam)
    let L := ube lengthField
    let out := { out with lengthField := some lengthField, lengthValue := some L }
    if fr.length ≠ L + fixedOffset fam then out.mark flagLengthMismatch else out
  else out

/-- The key of a frame of `fam` and total length `T` (R171, R173): FE ignores the flag. -/
def frameKey (c : Config) (flag : BitVec 2) (fam : Family) (T : Nat) : Option Key :=
  match fam with
  | .fe => some .fe
  | .sevenE => (variantSelect c flag T).map variantKey

/-- The header regions of `LAYOUT(k)`, each taken only when it lies entirely within `fr[0 .. T-2]` (R174, R175). -/
def decodeHeader (c : Config) (k : Key) (fr : Bytes) (out : DecodedFrame) : DecodedFrame :=
  let body := fr.dropLast
  let a0 := 1 + lengthWidth (keyFamily k)
  { out with
    key := some k
    command := sliceWithin body a0 (commandWidth c k)
    address := sliceWithin body (a0 + commandWidth c k) (addressWidth c k)
    unparsed := sliceWithin body (a0 + commandWidth c k + addressWidth c k) (unparsedWidth c k) }

/-- A prefix field of `n` bytes at offset `a` of content: OK with its bytes, or TRUNCATED with none (R177). -/
def prefixField (content : Bytes) (a n : Nat) : PrefixField :=
  match sliceWithin content a n with
  | some raw => ⟨.ok, raw, ube raw⟩
  | none => ⟨.truncated, [], ube []⟩

/-- The content, its prefix, the function code and the payload (R171, R177). -/
def decodePrefix (c : Config) (k : Key) (content : Bytes) (out : DecodedFrame) : DecodedFrame :=
  let vw := vendorWidth c k
  let dtw := deviceTypeWidth c k
  let fcOff := functionCodeOffset c k
  { out with
    content := some content
    vendor := some (prefixField content 0 vw)
    deviceType := some (prefixField content vw dtw)
    group := some (prefixField content (vw + dtw) (groupWidth c k))
    functionCode := (sliceWithin content fcOff 2).map fun b => BitVec.ofNat 16 (ube b)
    payload := if fcOff + 2 ≤ content.length then some (content.drop (fcOff + 2)) else none }

/-- The kind of a field (R73). -/
def fieldKind : FieldFormat → FieldKind
  | .uint _ => .uint
  | .text _ => .text
  | .f32 => .f32

/-- The value of a field's bytes by its kind, with the count of free values before and after (R179). -/
def fieldValue (c : Config) (mode : FloatMode) (format : FieldFormat) (raw : Bytes) (draws : Nat) :
    FieldValue × Nat :=
  match format with
  | .uint _ => (.uint (ube raw), draws)
  | .text _ => (.text raw, draws)
  | .f32 =>
    let r := f32dec c mode (BitVec.ofNat 32 (ube raw)) draws
    (.f32 r.1, r.2)

/-- `extract(c, spec)` (R179), with the count of free values before and after. -/
def extractField (c : Config) (mode : FloatMode) (content : Bytes) (spec : FieldSpec) (draws : Nat) :
    DecodedField × Nat :=
  match sliceWithin content spec.off (fieldWidth spec.format) with
  | none => (⟨spec.name, fieldKind spec.format, .truncated, none, none⟩, draws)
  | some raw =>
    let v := fieldValue c mode spec.format raw draws
    (⟨spec.name, fieldKind spec.format, .ok, some raw, some v.1⟩, v.2)

/-- Every field of the table entry, in order; a truncated one does not stop the rest (R171, R179). -/
def extractFields (c : Config) (mode : FloatMode) (content : Bytes) :
    List FieldSpec → Nat → List DecodedField × Nat
  | [], draws => ([], draws)
  | spec :: specs, draws =>
    let one := extractField c mode content spec draws
    let rest := extractFields c mode content specs one.2
    (one.1 :: rest.1, rest.2)

/-- DECODE from the content on (R171, R177 to R179). -/
def decodeContent (c : Config) (mode : FloatMode) (k : Key) (content : Bytes) (out : DecodedFrame)
    (draws : Nat) : DecodedFrame × Nat :=
  let out := decodePrefix c k content out
  match out.functionCode with
  | none => (out.mark flagFcAbsent, draws)
  | some fc =>
    match contentTable c k fc with
    | none => (out.mark flagUnrecognizedFc, draws)
    | some specs =>
      let r := extractFields c mode content specs draws
      ({ out with fields := r.1 }, r.2)

/-- DECODE of an input whose first byte is a marker of `fam` (R171). -/
def decodeFamily (c : Config) (flag : BitVec 2) (mode : FloatMode) (fam : Family) (fr : Bytes)
    (draws : Nat) : DecodedFrame × Nat :=
  let out := decodeFixed fam fr
  match frameKey c flag fam fr.length with
  | none => (out.mark flagVariantUnresolved, draws)
  | some k =>
    let out := decodeHeader c k fr out
    if fr.length - 1 < contentStart c k then (out.mark flagHeaderTruncated, draws)
    else decodeContent c mode k (slice fr (contentStart c k) (fr.length - 1)) out draws

/-- `DECODE(fr)` (R171): the record, and the count of free values after it. The checksum is not checked (R182). -/
def decodeFrame (c : Config) (flag : BitVec 2) (mode : FloatMode) (fr : Bytes) (draws : Nat) :
    DecodedFrame × Nat :=
  match fr.head?.bind markerFamily with
  | none => (DecodedFrame.mark {} flagNotAFrame, draws)
  | some fam => decodeFamily c flag mode fam fr draws

/-- DECODE of an input in the present state (R171). -/
def decodeNow (fr : Bytes) (s : State) : DecodedFrame × Nat :=
  decodeFrame s.config (sessionVariant s) (floatMode s) fr s.draws

/-- DECODE (R171): status OK always; no state of the spec is written. -/
def execDecode (fr : Bytes) (s : State) : Host.Outcome State Fault Refusal :=
  .next (answer (.decoded (decodeNow fr s).1) { s with draws := (decodeNow fr s).2 })

end Sys2Proof.Machine
end

