-- ==== Sys2Proof/Machine/Checksum.lean ====
section
/-! DEFINITION. checksum_engine: the two checksum functions, the checksum region, CHK_XOR and CHK_CSUM
(spec/41_checksum.md R100 to R105). -/

namespace Sys2Proof.Machine

/-- `xor8(s)`, byte-wise XOR, 0x00 of the empty sequence (R100). -/
def xor8 (s : Bytes) : Byte := s.foldl (fun c b => c ^^^ b) 0x00

/-- The sum of the bytes modulo 256 (R102). -/
def sum8 (s : Bytes) : Byte := s.foldl (fun t b => t + b) 0x00

/-- `csum8(s)`, 0xFF less the sum of the bytes modulo 256 (R102). -/
def csum8 (s : Bytes) : Byte := 0xFF - sum8 s

/-- `chkfn`: xor8 for FE, csum8 for 7E (R104). -/
def checksumOf : Family → Bytes → Byte
  | .fe, s => xor8 s
  | .sevenE, s => csum8 s

/-- Whether the checksum region starts after the length field: P14 and a 7E frame of variant DIGI (R104). -/
def regionAfterLength (c : Config) (fam : Family) (variant : BitVec 2) : Bool :=
  decide (fam = .sevenE) && c.chk7eDigiAfterLength && decide (variant = variantDigi)

/-- `region(f, T, fam, var)` of a frame `f` of total length `T = |f|` (R104). -/
def checksumRegion (c : Config) (fam : Family) (variant : BitVec 2) (f : Bytes) : Bytes :=
  if regionAfterLength c fam variant then slice f 3 (f.length - 1) else slice f 1 (f.length - 1)

/-- The candidate `f` is valid: its checksum is its last byte (R105). -/
def frameValid (c : Config) (fam : Family) (variant : BitVec 2) (f : Bytes) : Bool :=
  decide (f[f.length - 1]? = some (checksumOf fam (checksumRegion c fam variant f)))

/-- CHK_XOR (R101). -/
def execChkXor (data : Bytes) (s : State) : Host.Outcome State Fault Refusal :=
  .next (answer (.chk (xor8 data)) s)

/-- CHK_CSUM (R103). -/
def execChkCsum (data : Bytes) (s : State) : Host.Outcome State Fault Refusal :=
  .next (answer (.chk (csum8 data)) s)

end Sys2Proof.Machine
end

