-- ==== Sys2Proof/Machine/Encoder.lean ====
section
/-! DEFINITION. frame_encoder: the skeleton of the six BUILD operations, their payloads and the
operations (spec/45_encoder.md R200 to R225). -/

namespace Sys2Proof.Machine

/-- How a BUILD operation ends without a frame (R205). -/
inductive BuildError
  /-- The context is absent (R202). -/
  | precondition
  /-- A region or text has not exactly its width (R204, R210, R211). -/
  | operand
  /-- The length value does not fit the length field (R207). -/
  | length (L : Nat)
  deriving DecidableEq, Repr

/-- The width checks of R204. -/
def widthsMatch (c : Config) (kind : BuildKind) (ctx : Context) : Bool :=
  decide ((txCommand c ctx.key kind ctx).length = commandWidth c ctx.key) &&
  decide (ctx.address.length = addressWidth c ctx.key) &&
  decide ((txUnparsed c ctx.key kind ctx).length = unparsedWidth c ctx.key) &&
  decide (ctx.vendor.length = vendorWidth c ctx.key) &&
  decide (ctx.deviceType.length = deviceTypeWidth c ctx.key) &&
  decide (ctx.group.length = groupWidth c ctx.key)

/-- The content of a built frame: vendor, deviceType, group, function code, payload (R205 step 2). -/
def buildContent (c : Config) (kind : BuildKind) (ctx : Context) (payload : Bytes) : Bytes :=
  ctx.vendor ++ ctx.deviceType ++ ctx.group ++ be 2 (txCode c ctx.key kind).toNat ++ payload

/-- The length value `L = T - OFFSET(fam)` of a built frame (R205 step 3, R207). -/
def buildLength (c : Config) (k : Key) (content : Bytes) : Nat :=
  let T := 1 + lengthWidth (keyFamily k) + commandWidth c k + addressWidth c k + unparsedWidth c k +
    content.length + 1
  T - fixedOffset (keyFamily k)

/-- The checksum of a built frame's body (R205 steps 4 and 5; spec/41_checksum.md R104): the variant is
the context's. -/
def buildChecksum (c : Config) (k : Key) (body : Bytes) : Byte :=
  if keyFamily k = .sevenE ∧ c.chk7eDigiAfterLength = true ∧ k = .digi then csum8 (body.drop 2)
  else checksumOf (keyFamily k) body

/-- The body of a built frame (R205 step 4). -/
def buildBody (c : Config) (kind : BuildKind) (ctx : Context) (L : Nat) (content : Bytes) : Bytes :=
  be (lengthWidth (keyFamily ctx.key)) L ++ txCommand c ctx.key kind ctx ++ ctx.address ++
    txUnparsed c ctx.key kind ctx ++ content

/-- Steps 2 to 6 of the skeleton, for a context and a payload that fit (R205). -/
def buildFrame (c : Config) (kind : BuildKind) (ctx : Context) (payload : Bytes) :
    Except BuildError Bytes :=
  let content := buildContent c kind ctx payload
  let L := buildLength c ctx.key content
  if 256 ^ lengthWidth (keyFamily ctx.key) - 1 < L then .error (.length L)
  else
    let body := buildBody c kind ctx L content
    .ok ([marker (keyFamily ctx.key)] ++ body ++ [buildChecksum c ctx.key body])

/-- `BUILD(kind, ctx, ops)` (R205); `payload k` is none when the operands do not fit key `k`. -/
def build (c : Config) (kind : BuildKind) (ctx : Option Context) (payload : Key → Option Bytes) :
    Except BuildError Bytes :=
  match ctx with
  | none => .error .precondition
  | some ctx =>
    if widthsMatch c kind ctx then
      match payload ctx.key with
      | none => .error .operand
      | some p => buildFrame c kind ctx p
    else .error .operand

/-- The response of a BUILD operation (R205, spec/60_exceptions.md R241). -/
def buildResponse (r : Except BuildError Bytes) (s : State) : State :=
  match r with
  | .ok frame => answer (.frame frame) s
  | .error .precondition => raise .errPrecondition .none s
  | .error .operand => raise .errOperand .none s
  | .error (.length L) => raise .errLength (.infoLength L) s

/-! ### Payloads -/

/-- The describe payload: five texts, each of exactly its width (R210). -/
def describePayload (c : Config) (t0 t1 t2 t3 t4 : Bytes) (k : Key) : Option Bytes :=
  let w := descWidths c k
  if t0.length = w.model ∧ t1.length = w.serial ∧ t2.length = w.ipRating ∧
      t3.length = w.explosionGrade ∧ t4.length = w.description then
    some (t0 ++ t1 ++ t2 ++ t3 ++ t4)
  else none

/-- The calibrate payload: index, unit of exactly its width, and the value as a binary32 (R211). -/
def calibratePayload (c : Config) (index : Byte) (unit : Bytes) (value : Bin64) (k : Key) :
    Option Bytes :=
  if unit.length = unitWidth c k then some ([index] ++ unit ++ be 4 (f32enc value).toNat) else none

/-! ### The operations -/

/-- BUILD_ACK_DATA (R220), payload by R206. -/
def execBuildAckData (ctx : Option Context) (s : State) : Host.Outcome State Fault Refusal :=
  .next (buildResponse (build s.config .ackData ctx fun k => some (ackDataPayload s.config k)) s)

/-- BUILD_ACK_INFO (R221), payload by R206. -/
def execBuildAckInfo (ctx : Option Context) (s : State) : Host.Outcome State Fault Refusal :=
  .next (buildResponse (build s.config .ackInfo ctx fun k => some (ackInfoPayload s.config k)) s)

/-- BUILD_CONNECT (R222), payload by R208. -/
def execBuildConnect (ctx : Option Context) (status : Byte) (s : State) :
    Host.Outcome State Fault Refusal :=
  .next (buildResponse (build s.config .connect ctx fun _ => some [status]) s)

/-- BUILD_DISCONNECT (R223), payload by R208. -/
def execBuildDisconnect (ctx : Option Context) (status : Byte) (s : State) :
    Host.Outcome State Fault Refusal :=
  .next (buildResponse (build s.config .disconnect ctx fun _ => some [status]) s)

/-- BUILD_DESCRIBE (R224), payload by R210. -/
def execBuildDescribe (ctx : Option Context) (model serial ipRating explosionGrade description : Bytes)
    (s : State) : Host.Outcome State Fault Refusal :=
  .next (buildResponse (build s.config .describe ctx
    (describePayload s.config model serial ipRating explosionGrade description)) s)

/-- BUILD_CALIBRATE (R225), payload by R211. -/
def execBuildCalibrate (ctx : Option Context) (index : Byte) (unit : Bytes) (value : Bin64) (s : State) :
    Host.Outcome State Fault Refusal :=
  .next (buildResponse (build s.config .calibrate ctx (calibratePayload s.config index unit value)) s)

end Sys2Proof.Machine
end

