-- ==== Sys2Proof/Machine/Reassembler.lean ====
section
/-! DEFINITION. frame_reassembler: the scan of FEED, the bound on CARRY, FEED, RESET and READ_STATE
(spec/43_reassembler.md R140 to R153). -/

namespace Sys2Proof.Machine

/-- What FEED finds at an index of the working sequence (R141 to R144). -/
inductive Probe
  /-- Not a marker (or past the end). -/
  | notMarker
  /-- A marker whose length field or candidate is not within the sequence (R143). -/
  | unresolvable
  /-- A complete candidate whose checksum does not match: a false positive (R144). -/
  | rejected
  /-- A complete candidate whose checksum matches: a validated frame (R144). -/
  | frame (cand : Bytes)
  deriving DecidableEq, Repr

/-- Steps 2 to 5 of FEED at index `i` of `W` (R141). -/
def probe (c : Config) (variant : BitVec 2) (W : Bytes) (i : Nat) : Probe :=
  match W[i]?.bind markerFamily with
  | none => .notMarker
  | some fam =>
    if W.length ≤ i + lengthWidth fam then .unresolvable
    else
      let T := ube (slice W (i + 1) (i + 1 + lengthWidth fam)) + fixedOffset fam
      if W.length < i + T then .unresolvable
      else
        let cand := slice W i (i + T)
        if frameValid c fam variant cand then .frame cand else .rejected

/-- The variables of FEED's loop: the cursor, the end of the last emitted frame, and the results so far (R141). -/
structure Scan where
  i         : Nat
  last      : Nat
  frames    : List Bytes
  discarded : Bytes
  deriving DecidableEq, Repr

/-- One turn of FEED's loop (R141): an emitted frame moves the cursor past it and discards the bytes
between it and the frame before it (R145); anything else moves the cursor by one byte. -/
def scanStep (c : Config) (variant : BitVec 2) (W : Bytes) (st : Scan) : Scan :=
  match probe c variant W st.i with
  | .frame cand =>
      { i := st.i + cand.length
        last := st.i + cand.length
        frames := st.frames ++ [cand]
        discarded := st.discarded ++ slice W st.last st.i }
  | .notMarker => { st with i := st.i + 1 }
  | .unresolvable => { st with i := st.i + 1 }
  | .rejected => { st with i := st.i + 1 }

/-- FEED's loop `while i < n`, at most `fuel` turns (R141). -/
def scanLoop (c : Config) (variant : BitVec 2) (W : Bytes) : Nat → Scan → Scan
  | 0, st => st
  | fuel + 1, st => if st.i < W.length then scanLoop c variant W fuel (scanStep c variant W st) else st

/-- The whole scan of the working sequence; `n = |W|` turns are enough, since each one moves the
cursor (R148). -/
def scan (c : Config) (variant : BitVec 2) (W : Bytes) : Scan :=
  scanLoop c variant W W.length ⟨0, 0, [], []⟩

/-- What `cap` keeps, what it adds to `discarded`, and whether it cut (R147). -/
structure Capped where
  kept      : Bytes
  extra     : Bytes
  truncated : Bool
  deriving DecidableEq, Repr

/-- `cap(s)`: the newest CARRY_CAP bytes are kept (R147). -/
def capCarry (c : Config) (s : Bytes) : Capped :=
  match c.carryCap with
  | none => ⟨s, [], false⟩
  | some cap =>
    if s.length ≤ cap then ⟨s, [], false⟩
    else ⟨s.drop (s.length - cap), s.take (s.length - cap), true⟩

/-- FEED (R141): OK, or WARN_CARRY_TRUNCATED with the same full results when the carry-over was cut (R147, R241). -/
def feed (input : Bytes) (s : State) : State :=
  let W := s.carry ++ input
  let st := scan s.config (sessionVariant s) W
  let capped := capCarry s.config (W.drop st.last)
  respond (if capped.truncated then .warnCarryTruncated else .ok)
    (.feed st.frames (st.discarded ++ capped.extra) capped.truncated)
    { s with carry := capped.kept }

/-- FEED (R141). -/
def execFeed (input : Bytes) (s : State) : Host.Outcome State Fault Refusal :=
  .next (feed input s)

/-- RESET (R150): CARRY is emptied; SESSION and CFG are not written. -/
def execReset (s : State) : Host.Outcome State Fault Refusal :=
  .next (answer .none { s with carry := [] })

/-- READ_STATE (R151). -/
def execReadState (s : State) : Host.Outcome State Fault Refusal :=
  .next (answer (.state (readSession s) (readCfg s) s.carry) s)

end Sys2Proof.Machine
end

