-- ==== Sys2Proof/Machine/Dispatch.lean ====
section
/-! DEFINITION. The one match on the instruction: each operation to its meaning. -/

namespace Sys2Proof.Machine

def exec (i : Instr) (s : State) : Host.Outcome State Fault Refusal :=
  match i with
  | .feed input => Sys2Proof.Machine.execFeed input s
  | .reset => Sys2Proof.Machine.execReset s
  | .readState => Sys2Proof.Machine.execReadState s
  | .setVariant v => Sys2Proof.Machine.execSetVariant v s
  | .writeCfg v => Sys2Proof.Machine.execWriteCfg v s
  | .decode fr => Sys2Proof.Machine.execDecode fr s
  | .buildAckData ctx => Sys2Proof.Machine.execBuildAckData ctx s
  | .buildAckInfo ctx => Sys2Proof.Machine.execBuildAckInfo ctx s
  | .buildConnect ctx status => Sys2Proof.Machine.execBuildConnect ctx status s
  | .buildDisconnect ctx status => Sys2Proof.Machine.execBuildDisconnect ctx status s
  | .buildDescribe ctx t0 t1 t2 t3 t4 => Sys2Proof.Machine.execBuildDescribe ctx t0 t1 t2 t3 t4 s
  | .buildCalibrate ctx index unit value => Sys2Proof.Machine.execBuildCalibrate ctx index unit value s
  | .chkXor data => Sys2Proof.Machine.execChkXor data s
  | .chkCsum data => Sys2Proof.Machine.execChkCsum data s
  | .f32Decode w => Sys2Proof.Machine.execF32Decode w s
  | .f32Encode d => Sys2Proof.Machine.execF32Encode d s

end Sys2Proof.Machine
end

