-- ==== Sys2Proof/WellFormed.lean ====
section
/-! DEFINITION. Which terms of `Instr` the request encoding can carry: the length of a byte string
stands in 4 bytes (format S) or 2 bytes (`str16`) (spec/30_encoding.md R81, R82). -/

namespace Sys2Proof

/-- A format S byte string: its length is an unsigned 32-bit number (R81). -/
abbrev Bytes.fits32 (data : Bytes) : Bool := decide (data.length < 2 ^ 32)

/-- A `str16`: its length is an unsigned 16-bit number (R81). -/
abbrev Bytes.fits16 (data : Bytes) : Bool := decide (data.length < 2 ^ 16)

/-- The six `str16` items of a context (R82). -/
def Context.wf (ctx : Context) : Bool :=
  Bytes.fits16 ctx.command && Bytes.fits16 ctx.address && Bytes.fits16 ctx.unparsed &&
    Bytes.fits16 ctx.vendor && Bytes.fits16 ctx.deviceType && Bytes.fits16 ctx.group

/-- A context operand: an absent one carries nothing more (R82). -/
def ctxWf : Option Context → Bool
  | none => true
  | some ctx => ctx.wf

/-- The instruction can be written as a request (R81 to R83). A reserved `imm8` is in form: it is
refused by the operation's own rule (R87). -/
def Instr.wf : Instr → Bool
  | .feed input => Bytes.fits32 input
  | .reset => true
  | .readState => true
  | .setVariant _ => true
  | .writeCfg _ => true
  | .decode fr => Bytes.fits32 fr
  | .buildAckData ctx => ctxWf ctx
  | .buildAckInfo ctx => ctxWf ctx
  | .buildConnect ctx _ => ctxWf ctx
  | .buildDisconnect ctx _ => ctxWf ctx
  | .buildDescribe ctx t0 t1 t2 t3 t4 =>
      ctxWf ctx && Bytes.fits16 t0 && Bytes.fits16 t1 && Bytes.fits16 t2 && Bytes.fits16 t3 &&
        Bytes.fits16 t4
  | .buildCalibrate ctx _ unit _ => ctxWf ctx && Bytes.fits16 unit
  | .chkXor data => Bytes.fits32 data
  | .chkCsum data => Bytes.fits32 data
  | .f32Decode _ => true
  | .f32Encode _ => true

end Sys2Proof
end

