-- ==== Sys2Proof/Decode.lean ====
section
/-! DEFINITION. From request bytes to an instruction (spec/30_encoding.md R80 to R86), total on any
bytes and refusing by name, and after it the encoder, written from the same rules. -/

namespace Sys2Proof

open Sys2Proof.Machine

/-- Why a request is no instruction. -/
inductive DecodeError
  /-- R85: the first byte is no opcode of R84. -/
  | illegalOp (opcode : Byte)
  /-- R86: the bytes do not match the opcode's format. -/
  | malformed
  deriving DecidableEq, Repr

/-! ### Reading operands from the front of a byte sequence -/

/-- The next byte. -/
def takeByte : Bytes → Option (Byte × Bytes)
  | [] => none
  | b :: rest => some (b, rest)

/-- The next `n` bytes. -/
def takeBytes (n : Nat) (bs : Bytes) : Option (Bytes × Bytes) :=
  if n ≤ bs.length then some (bs.take n, bs.drop n) else none

/-- The next `n` bytes as a big-endian number (R81). -/
def takeNumber (n : Nat) (bs : Bytes) : Option (Nat × Bytes) :=
  match takeBytes n bs with
  | none => none
  | some (field, rest) => some (ube field, rest)

/-- A byte string behind an `n`-byte big-endian length: format S with `n = 4`, `str16` with `n = 2` (R81). -/
def takeSized (n : Nat) (bs : Bytes) : Option (Bytes × Bytes) :=
  match takeNumber n bs with
  | none => none
  | some (m, rest) => takeBytes m rest

/-- The key of a (family, variant) byte pair: the three legal pairs (R82). -/
def contextKey (family variant : Byte) : Option Key :=
  if family = 0xFE ∧ variant = 0x00 then some .fe
  else if family = 0x7E ∧ variant = 0x01 then some .digi
  else if family = 0x7E ∧ variant = 0x02 then some .lora
  else none

/-- The seven items of a context that is present (R82). -/
def takePresentContext (bs : Bytes) : Option (Context × Bytes) :=
  match takeByte bs with
  | none => none
  | some (family, bs) =>
  match takeByte bs with
  | none => none
  | some (variant, bs) =>
  match contextKey family variant with
  | none => none
  | some key =>
  match takeSized 2 bs with
  | none => none
  | some (command, bs) =>
  match takeSized 2 bs with
  | none => none
  | some (address, bs) =>
  match takeSized 2 bs with
  | none => none
  | some (unparsed, bs) =>
  match takeSized 2 bs with
  | none => none
  | some (vendor, bs) =>
  match takeSized 2 bs with
  | none => none
  | some (deviceType, bs) =>
  match takeSized 2 bs with
  | none => none
  | some (group, bs) => some (⟨key, command, address, unparsed, vendor, deviceType, group⟩, bs)

/-- The context operand (R82): `valid` 0x00 absent, 0x01 present, any other malformed. -/
def takeContext (bs : Bytes) : Option (Option Context × Bytes) :=
  match takeByte bs with
  | none => none
  | some (valid, bs) =>
    if valid = 0x00 then some (none, bs)
    else if valid = 0x01 then
      match takePresentContext bs with
      | none => none
      | some (ctx, bs) => some (some ctx, bs)
    else none

/-! ### The operand formats (R81, R83) -/

/-- Format V: `imm8`. -/
def takeFormatV (f : Byte → Instr) (bs : Bytes) : Option (Instr × Bytes) :=
  (takeByte bs).map fun (v, rest) => (f v, rest)

/-- Format S: `n`, then `n` bytes. -/
def takeFormatS (f : Bytes → Instr) (bs : Bytes) : Option (Instr × Bytes) :=
  (takeSized 4 bs).map fun (data, rest) => (f data, rest)

/-- Format W: a bin32. -/
def takeFormatW (f : Bin32 → Instr) (bs : Bytes) : Option (Instr × Bytes) :=
  (takeNumber 4 bs).map fun (w, rest) => (f (BitVec.ofNat 32 w), rest)

/-- Format D: a bin64. -/
def takeFormatD (f : Bin64 → Instr) (bs : Bytes) : Option (Instr × Bytes) :=
  (takeNumber 8 bs).map fun (d, rest) => (f (BitVec.ofNat 64 d), rest)

/-- Format C with no kind operands. -/
def takeFormatC (f : Option Context → Instr) (bs : Bytes) : Option (Instr × Bytes) :=
  (takeContext bs).map fun (ctx, rest) => (f ctx, rest)

/-- Format C with the kind operand `status`. -/
def takeFormatCStatus (f : Option Context → Byte → Instr) (bs : Bytes) : Option (Instr × Bytes) :=
  match takeContext bs with
  | none => none
  | some (ctx, bs) => (takeByte bs).map fun (status, rest) => (f ctx status, rest)

/-- Format C with the five texts of BUILD_DESCRIBE. -/
def takeFormatCTexts (f : Option Context → Bytes → Bytes → Bytes → Bytes → Bytes → Instr)
    (bs : Bytes) : Option (Instr × Bytes) :=
  match takeContext bs with
  | none => none
  | some (ctx, bs) =>
  match takeSized 2 bs with
  | none => none
  | some (t0, bs) =>
  match takeSized 2 bs with
  | none => none
  | some (t1, bs) =>
  match takeSized 2 bs with
  | none => none
  | some (t2, bs) =>
  match takeSized 2 bs with
  | none => none
  | some (t3, bs) => (takeSized 2 bs).map fun (t4, rest) => (f ctx t0 t1 t2 t3 t4, rest)

/-- Format C with the operands of BUILD_CALIBRATE. -/
def takeFormatCCalibrate (f : Option Context → Byte → Bytes → Bin64 → Instr) (bs : Bytes) :
    Option (Instr × Bytes) :=
  match takeContext bs with
  | none => none
  | some (ctx, bs) =>
  match takeByte bs with
  | none => none
  | some (index, bs) =>
  match takeSized 2 bs with
  | none => none
  | some (unit, bs) =>
    (takeNumber 8 bs).map fun (value, rest) => (f ctx index unit (BitVec.ofNat 64 value), rest)

/-! ### The operation map (R84) -/

/-- The operand reader of an opcode; none for the illegal opcodes (R84, R85). -/
def operandReader (opcode : Byte) : Option (Bytes → Option (Instr × Bytes)) :=
  match opcode.toNat with
  | 0x01 => some (takeFormatS .feed)
  | 0x02 => some fun bs => some (.reset, bs)
  | 0x03 => some fun bs => some (.readState, bs)
  | 0x08 => some (takeFormatV .setVariant)
  | 0x09 => some (takeFormatV .writeCfg)
  | 0x10 => some (takeFormatS .decode)
  | 0x20 => some (takeFormatC .buildAckData)
  | 0x21 => some (takeFormatC .buildAckInfo)
  | 0x22 => some (takeFormatCStatus .buildConnect)
  | 0x23 => some (takeFormatCStatus .buildDisconnect)
  | 0x24 => some (takeFormatCTexts .buildDescribe)
  | 0x25 => some (takeFormatCCalibrate .buildCalibrate)
  | 0x30 => some (takeFormatS .chkXor)
  | 0x31 => some (takeFormatS .chkCsum)
  | 0x40 => some (takeFormatW .f32Decode)
  | 0x41 => some (takeFormatD .f32Encode)
  | _ => none

/-- The instruction of a request (R80 to R86). A request with no byte has no opcode and is shorter than
any format needs: malformed (DEDUCED, notes/assumptions/3.md). The opcode is judged before the form (R244). -/
def decode : Bytes → Except DecodeError Instr
  | [] => .error .malformed
  | opcode :: bs =>
    match operandReader opcode with
    | none => .error (.illegalOp opcode)
    | some reader =>
      match reader bs with
      | some (i, []) => .ok i
      | some (_, _ :: _) => .error .malformed
      | none => .error .malformed

/-! ### The encoder -/

/-- The opcode byte of an operation (R84). -/
def opcodeByte : Instr → Byte
  | .feed _ => 0x01
  | .reset => 0x02
  | .readState => 0x03
  | .setVariant _ => 0x08
  | .writeCfg _ => 0x09
  | .decode _ => 0x10
  | .buildAckData _ => 0x20
  | .buildAckInfo _ => 0x21
  | .buildConnect _ _ => 0x22
  | .buildDisconnect _ _ => 0x23
  | .buildDescribe _ _ _ _ _ _ => 0x24
  | .buildCalibrate _ _ _ _ => 0x25
  | .chkXor _ => 0x30
  | .chkCsum _ => 0x31
  | .f32Decode _ => 0x40
  | .f32Encode _ => 0x41

/-- A byte string behind its `n`-byte big-endian length (R81). -/
def sizedBytes (n : Nat) (data : Bytes) : Bytes :=
  be n data.length ++ data

/-- The family and variant bytes of a key (R82). -/
def contextKeyBytes : Key → Bytes
  | .fe => [0xFE, 0x00]
  | .digi => [0x7E, 0x01]
  | .lora => [0x7E, 0x02]

/-- The context operand (R82). -/
def contextBytes : Option Context → Bytes
  | none => [0x00]
  | some ctx =>
      0x01 :: (contextKeyBytes ctx.key ++ sizedBytes 2 ctx.command ++ sizedBytes 2 ctx.address ++
        sizedBytes 2 ctx.unparsed ++ sizedBytes 2 ctx.vendor ++ sizedBytes 2 ctx.deviceType ++
        sizedBytes 2 ctx.group)

/-- The operand bytes after the opcode (R81, R83). -/
def operandBytes : Instr → Bytes
  | .feed input => sizedBytes 4 input
  | .reset => []
  | .readState => []
  | .setVariant v => [v]
  | .writeCfg v => [v]
  | .decode fr => sizedBytes 4 fr
  | .buildAckData ctx => contextBytes ctx
  | .buildAckInfo ctx => contextBytes ctx
  | .buildConnect ctx status => contextBytes ctx ++ [status]
  | .buildDisconnect ctx status => contextBytes ctx ++ [status]
  | .buildDescribe ctx t0 t1 t2 t3 t4 =>
      contextBytes ctx ++ sizedBytes 2 t0 ++ sizedBytes 2 t1 ++ sizedBytes 2 t2 ++ sizedBytes 2 t3 ++
        sizedBytes 2 t4
  | .buildCalibrate ctx index unit value =>
      contextBytes ctx ++ [index] ++ sizedBytes 2 unit ++ be 8 value.toNat
  | .chkXor data => sizedBytes 4 data
  | .chkCsum data => sizedBytes 4 data
  | .f32Decode w => be 4 w.toNat
  | .f32Encode d => be 8 d.toNat

/-- The request bytes of an instruction: the opcode byte, then the operand bytes (R80). -/
def encode (i : Instr) : Bytes := opcodeByte i :: operandBytes i

/-! ### The opcode table's words -/

/-- The `n` bytes of a table word, bits 7..0 the first byte, bits 15..8 the second, and so on. -/
def wordBytes : Nat → Nat → Bytes
  | 0, _ => []
  | n + 1, w => BitVec.ofNat 8 w :: wordBytes n (w / 256)

/-- The request that a table word of `nbits` bits begins: its bytes, then as many zero bytes as its
format still needs (at most 64; notes/assumptions/9.md). Bytes the format does not need stay, and make
the request malformed. -/
def tableRequest (nbits w : Nat) : Bytes :=
  let word := wordBytes (nbits / 8) w
  match word ++ List.replicate 64 (0 : Byte) with
  | [] => word
  | opcode :: bs =>
    match operandReader opcode with
    | none => word
    | some reader =>
      match reader bs with
      | none => word
      | some (_, rest) => (opcode :: bs).take (max word.length ((opcode :: bs).length - rest.length))

/-- The instruction that the decoder reads from a word of the opcode table. -/
def decodeTableWord (nbits w : Nat) : Option Instr :=
  match decode (tableRequest nbits w) with
  | .ok i => some i
  | .error _ => none

end Sys2Proof
end

