-- ==== Sys2Proof/Machine/Port.lean ====
section
/-! DEFINITION. The port's side of a step: taking the oldest request, answering one that is no
instruction, and the pseudo-operations (spec/00_scope.md R5; spec/30_encoding.md R85, R86, R89). -/

namespace Sys2Proof.Machine

/-- The oldest request at the port and the state without it (spec/20_memory.md R46). -/
def takeRequest (s : State) : Option (Bytes × State) :=
  match s.inbox with
  | [] => none
  | req :: rest => some (req, { s with inbox := rest })

/-- The response to a request that is no instruction: `raise ERR_ILLEGAL_OP(opcode)` (R85), or
`raise ERR_OPERAND` with no info (R86). -/
def refuseRequest (e : DecodeError) (s : State) : State :=
  match e with
  | .illegalOp opcode => raise .errIllegalOp (.infoByte opcode) s
  | .malformed => raise .errOperand .none s

/-- A request placed before every other one at the port. -/
def placeRequest (req : Bytes) (s : State) : State := { s with inbox := req :: s.inbox }

/-- The `imm8` of WRITE_CFG for a mode (spec/10_state.md R24). -/
def floatModeByte : FloatMode → Byte
  | .ieee => 0x00
  | .legacy => 0x01

/-- `RECONNECT v` (R89). -/
def reconnectExpansion (v : Byte) : List Instr := [.reset, .setVariant v]

/-- `BOOT m, v` (R89, spec/70_reset_and_hazards.md R264). -/
def bootExpansion (m : FloatMode) (v : Byte) : List Instr :=
  [.writeCfg (floatModeByte m), .reset, .setVariant v]

end Sys2Proof.Machine
end

