-- ==== Sys2Proof/Machine/Step.lean ====
section
/-! DEFINITION. One step: the oldest request at the port is performed completely and answered
(spec/00_scope.md R5, spec/20_memory.md R46). With no request the engine holds its state
(spec/60_exceptions.md R253; DEDUCED, notes/assumptions/2.md). -/

namespace Sys2Proof.Machine

/-- One step of the engine. -/
def step (s : State) : Host.Outcome State Fault Refusal :=
  match takeRequest s with
  | none => .next s
  | some (req, s') =>
    match decode req with
    | .ok i => exec i s'
    | .error e => .next (refuseRequest e s')

/-- The state with the instruction that a table word begins placed as the port's next request. -/
def State.withFetchWord (s : State) (nbits w : Nat) : State :=
  placeRequest (tableRequest nbits w) s

end Sys2Proof.Machine
end

