-- ==== Sys2Proof/Safety.lean ====
section
/-! DEFINITION. What every state of a run is promised: the invariants of the registers and of CARRY. -/

namespace Sys2Proof.Machine

/-- SESSION holds a legal value: VARIANT is not 0b11 and the reserved bits are 0 (spec/10_state.md R22,
R23; spec/93_implementation_defined.md I12, I13). -/
abbrev State.SessionLegal (s : State) : Prop := s.session = 0x00 ∨ s.session = 0x01 ∨ s.session = 0x02

/-- CFG holds a legal value: the reserved bits are 0 (spec/10_state.md R24; I13). -/
abbrev State.CfgLegal (s : State) : Prop := s.cfg = 0x00 ∨ s.cfg = 0x01

/-- CARRY is no longer than CARRY_CAP (spec/10_state.md R21; spec/43_reassembler.md R147). -/
abbrev State.CarryBounded (s : State) : Prop := ∀ cap, s.config.carryCap = some cap → s.carry.length ≤ cap

/-- The invariant of the engine's state. -/
structure State.Inv (s : State) : Prop where
  session : s.SessionLegal
  cfg     : s.CfgLegal
  carry   : s.CarryBounded

end Sys2Proof.Machine
end

