-- ==== Sys2Proof/Certificates/Slice0/Obligations.lean ====
section
/-! DEFINITION. The statements about the model, each from the rule of spec/ that its docstring names.
The helpers under Sys2Proof.Claims say the rules' words a second time, apart from the model's own
definitions where the rule gives a formula. -/

namespace Sys2Proof.Claims

open Sys2Proof.Machine

/-! ### Responses -/

/-- `s` with this response on the port and nothing else changed. -/
def answered (s : State) (status : Status) (results : Results) : State :=
  { s with response := some ⟨status, results⟩ }

/-- The opcodes of spec/30_encoding.md R84. -/
def legalOpcodes : List Byte :=
  [0x01, 0x02, 0x03, 0x08, 0x09, 0x10, 0x20, 0x21, 0x22, 0x23, 0x24, 0x25, 0x30, 0x31, 0x40, 0x41]

/-- The illegal opcodes as R85 lists them. -/
def IllegalOpcode (n : Nat) : Prop :=
  n = 0x00 ∨ (0x04 ≤ n ∧ n ≤ 0x07) ∨ (0x0A ≤ n ∧ n ≤ 0x0F) ∨ (0x11 ≤ n ∧ n ≤ 0x1F) ∨
    (0x26 ≤ n ∧ n ≤ 0x2F) ∨ (0x32 ≤ n ∧ n ≤ 0x3F) ∨ (0x42 ≤ n ∧ n ≤ 0xFF)

/-- The context operand of a BUILD operation (R83). -/
def contextOf : Instr → Option (Option Context)
  | .buildAckData ctx => some ctx
  | .buildAckInfo ctx => some ctx
  | .buildConnect ctx _ => some ctx
  | .buildDisconnect ctx _ => some ctx
  | .buildDescribe ctx _ _ _ _ _ => some ctx
  | .buildCalibrate ctx _ _ _ => some ctx
  | _ => none

/-- The meanings of a list of instructions one after the other. -/
def performAll : List Instr → State → Host.Outcome State Fault Refusal
  | [], s => .next s
  | i :: is, s =>
    match exec i s with
    | .next t => performAll is t
    | .fault r => .fault r
    | .refused r => .refused r

/-! ### Floating-point values (spec/42_float_codec.md R122; spec/00_scope.md R11) -/

/-- The value of a finite binary32 pattern. -/
def value32 (w : Bin32) : ℚ :=
  let e : ℕ := w.toNat / 2 ^ 23 % 256
  let f : ℕ := w.toNat % 2 ^ 23
  (if w.msb then -1 else 1) *
    (if e = 0 then (f : ℚ) * 2 ^ (-149 : ℤ) else (2 ^ 23 + f : ℚ) * 2 ^ ((e : ℤ) - 150))

/-- Not an infinity and not a NaN. -/
def Finite32 (w : Bin32) : Prop := w.toNat / 2 ^ 23 % 256 ≠ 0xFF

/-- The value of a finite binary64 pattern. -/
def value64 (d : Bin64) : ℚ :=
  let e : ℕ := d.toNat / 2 ^ 52 % 2048
  let f : ℕ := d.toNat % 2 ^ 52
  (if d.msb then -1 else 1) *
    (if e = 0 then (f : ℚ) * 2 ^ (-1074 : ℤ) else (2 ^ 52 + f : ℚ) * 2 ^ ((e : ℤ) - 1075))

/-- Not an infinity and not a NaN. -/
def Finite64 (d : Bin64) : Prop := d.toNat / 2 ^ 52 % 2048 ≠ 0x7FF

/-- The product of R124: sign times mantissa times LEGACY_POW2, for a fraction that is not zero. -/
def legacyProduct (c : Config) (w : Bin32) : ℚ :=
  let p := legacyPow2 c (w.extractLsb' 23 8)
  (if w.msb then -1 else 1) * (1 + (w.toNat % 2 ^ 23 : ℕ) / 2 ^ 23) * (p.num / (p.denPred + 1))

/-! ### Frames (spec/30_encoding.md R60 to R67; spec/41_checksum.md R104, R105) -/

/-- `f` is a valid candidate: header, length field, total length and checksum agree (R61 to R64, R104,
R105). -/
def ValidFrame (c : Config) (variant : BitVec 2) (f : Bytes) : Prop :=
  (∃ l rest chk, f = 0xFE :: l :: (rest ++ [chk]) ∧ f.length = l.toNat + 5 ∧ chk = xor8 (l :: rest)) ∨
    (∃ h l rest chk, f = 0x7E :: h :: l :: (rest ++ [chk]) ∧ f.length = 256 * h.toNat + l.toNat + 4 ∧
      chk = csum8 (if c.chk7eDigiAfterLength = true ∧ variant = 0b01 then rest else h :: l :: rest))

/-- A marker at the start of `rest` that cannot be resolved within `rest` (spec/43_reassembler.md R143). -/
def Unresolvable (rest : Bytes) : Prop :=
  (∃ tl, rest = 0xFE :: tl ∧ (tl = [] ∨ ∃ l tl', tl = l :: tl' ∧ rest.length < l.toNat + 5)) ∨
    (∃ tl, rest = 0x7E :: tl ∧
      (tl.length < 2 ∨ ∃ h l tl', tl = h :: l :: tl' ∧ rest.length < 256 * h.toNat + l.toNat + 4))

/-- FEED's scan as R141 to R146 give it: `W` is cut into junk and frame, junk and frame, and a tail;
each frame is the first valid candidate from the end of the frame before it, and none starts in the tail. -/
inductive GreedyScan (c : Config) (variant : BitVec 2) : Bytes → List (Bytes × Bytes) → Bytes → Prop
  | done (W : Bytes) (none : ∀ i f, ValidFrame c variant f → ¬ f <+: W.drop i) : GreedyScan c variant W [] W
  | frame (junk f rest : Bytes) (segs : List (Bytes × Bytes)) (tail : Bytes)
      (valid : ValidFrame c variant f)
      (first : ∀ i < junk.length, ∀ g, ValidFrame c variant g → ¬ g <+: (junk ++ f ++ rest).drop i)
      (more : GreedyScan c variant rest segs tail) :
      GreedyScan c variant (junk ++ f ++ rest) ((junk, f) :: segs) tail

/-- The bytes of a list of junk and frame pairs. -/
def segBytes (segs : List (Bytes × Bytes)) : Bytes := segs.flatMap fun p => p.1 ++ p.2

/-- What FEED does with the tail under CARRY_CAP (R147): all of it, or its newest bytes. -/
def CappedTail (c : Config) (tail kept extra : Bytes) (cut : Bool) : Prop :=
  tail = extra ++ kept ∧
    (cut = true ↔ ∃ cap, c.carryCap = some cap ∧ cap < tail.length) ∧
    (cut = false → extra = []) ∧
    (cut = true → c.carryCap = some kept.length)

/-! ### DECODE (spec/44_decoder.md) -/

/-- DECODE of `fr` in `s` answers OK with the record `out`; it writes no state of the spec, and draws
no free value in IEEE mode (R171). -/
def DecodeAnswers (s : State) (fr : Bytes) (out : DecodedFrame) : Prop :=
  ∃ n, exec (.decode fr) s = .next (answered { s with draws := n } .ok (.decoded out)) ∧
    (s.cfg.getLsbD 0 = false → n = s.draws)

/-- LW, CW, AW and UW of a key (spec/30_encoding.md R71). -/
def widths (c : Config) : Key → Nat × Nat × Nat × Nat
  | .fe => (1, 2, c.addressWidthFe, c.fe.unparsedWidth)
  | .digi => (2, c.commandWidthDigi, c.addressWidthDigi, c.digi.unparsedWidth)
  | .lora => (2, 0, 0, c.lora.unparsedWidth)

/-- Where content starts: the tables of R65 to R67. -/
def contentIndex (c : Config) : Key → Nat
  | .fe => 4 + c.addressWidthFe + c.fe.unparsedWidth
  | .digi => 3 + c.commandWidthDigi + c.addressWidthDigi + c.digi.unparsedWidth
  | .lora => 3 + c.lora.unparsedWidth

/-- VW, DTW and GW of a key (R72). -/
def prefixWidths (c : Config) : Key → Nat × Nat × Nat
  | .fe => (c.fe.vendorWidth, c.fe.deviceTypeWidth, c.fe.groupWidth)
  | .digi => (c.digi.vendorWidth, c.digi.deviceTypeWidth, c.digi.groupWidth)
  | .lora => (c.lora.vendorWidth, c.lora.deviceTypeWidth, c.lora.groupWidth)

/-- The `n` bytes of `fr` from index `a`, when they lie before its last byte (R174). -/
def regionAt (fr : Bytes) (a n : Nat) : Option Bytes :=
  if a + n < fr.length then some ((fr.drop a).take n) else none

/-- A prefix field of content (R177). -/
def prefixAt (content : Bytes) (a n : Nat) : PrefixField :=
  if a + n ≤ content.length then ⟨.ok, (content.drop a).take n, ube ((content.drop a).take n)⟩
  else ⟨.truncated, [], 0⟩

/-- The width of a field of each kind (spec/30_encoding.md R73). -/
def formatWidth : FieldFormat → Nat
  | .uint m => m.val + 1
  | .text w => w
  | .f32 => 4

/-- The kind of a field of each format (spec/30_encoding.md R73). -/
def formatKind : FieldFormat → FieldKind
  | .uint _ => .uint
  | .text _ => .text
  | .f32 => .f32

/-- The header byte of a family (spec/30_encoding.md R61). -/
def headerOf : Family → Byte
  | .fe => 0xFE
  | .sevenE => 0x7E

/-- LW of a family (spec/30_encoding.md R62). -/
def lengthBytesOf : Family → Nat
  | .fe => 1
  | .sevenE => 2

/-- OFFSET of a family (spec/30_encoding.md R63). -/
def offsetOf : Family → Nat
  | .fe => 5
  | .sevenE => 4

/-- The key of a 7E variant (spec/00_scope.md R12). -/
def keyOf : SevenEVariant → Key
  | .digi => .digi
  | .lora => .lora

/-- What VARIANT_SELECT gives for a flag and a total length (R173): the configuration's first point for
them where it has one, else the default. -/
def SelectsVariant (c : Config) (flag : BitVec 2) (T : Nat) (sel : Option SevenEVariant) : Prop :=
  (∃ pre r post, c.variantRules = pre ++ r :: post ∧ (∀ r' ∈ pre, ¬ (r'.flag = flag ∧ r'.length = T)) ∧
      r.flag = flag ∧ r.length = T ∧ sel = r.select) ∨
    ((∀ r ∈ c.variantRules, ¬ (r.flag = flag ∧ r.length = T)) ∧
      sel = if flag = 0b01 then some .digi else if flag = 0b10 then some .lora else none)

/-- An extracted field is what R179 says of its spec. -/
def FieldFollowsSpec (c : Config) (ieee : Bool) (content : Bytes) (spec : FieldSpec)
    (field : DecodedField) : Prop :=
  let w := formatWidth spec.format
  let raw := (content.drop spec.off).take w
  field.name = spec.name ∧ field.kind = formatKind spec.format ∧
    (content.length < spec.off + w → field.status = .truncated ∧ field.raw = none ∧ field.value = none) ∧
    (spec.off + w ≤ content.length →
      field.status = .ok ∧ field.raw = some raw ∧
        match spec.format with
        | .uint _ => field.value = some (.uint (ube raw))
        | .text _ => field.value = some (.text raw)
        | .f32 => ∃ d, field.value = some (.f32 d) ∧
            ∃ n, d = (f32dec c (if ieee then .ieee else .legacy) (BitVec.ofNat 32 (ube raw)) n).1)

/-! ### BUILD (spec/45_encoder.md) -/

/-- The regions of the context have their layout widths (R204). -/
def FitsWidths (c : Config) (kind : BuildKind) (ctx : Context) : Prop :=
  (txCommand c ctx.key kind ctx).length = (widths c ctx.key).2.1 ∧
    ctx.address.length = (widths c ctx.key).2.2.1 ∧
    (txUnparsed c ctx.key kind ctx).length = (widths c ctx.key).2.2.2 ∧
    ctx.vendor.length = (prefixWidths c ctx.key).1 ∧
    ctx.deviceType.length = (prefixWidths c ctx.key).2.1 ∧
    ctx.group.length = (prefixWidths c ctx.key).2.2

/-- The content of a built frame (R205 step 2). -/
def builtContent (c : Config) (kind : BuildKind) (ctx : Context) (p : Bytes) : Bytes :=
  ctx.vendor ++ ctx.deviceType ++ ctx.group ++ be 2 (txCode c ctx.key kind).toNat ++ p

/-- The length value by R207's own sums. -/
def builtLength (c : Config) (kind : BuildKind) (ctx : Context) (p : Bytes) : Nat :=
  match ctx.key with
  | .fe => c.addressWidthFe + c.fe.unparsedWidth + (builtContent c kind ctx p).length
  | .digi =>
    c.commandWidthDigi + c.addressWidthDigi + c.digi.unparsedWidth + (builtContent c kind ctx p).length
  | .lora => c.lora.unparsedWidth + (builtContent c kind ctx p).length

/-- The largest length value of a key (R207). -/
def lengthLimit : Key → Nat
  | .fe => 255
  | .digi => 65535
  | .lora => 65535

/-- The frame that R205 builds. -/
def builtFrame (c : Config) (kind : BuildKind) (ctx : Context) (p : Bytes) : Bytes :=
  let L := builtLength c kind ctx p
  let regions := txCommand c ctx.key kind ctx ++ ctx.address ++ txUnparsed c ctx.key kind ctx ++
    builtContent c kind ctx p
  match ctx.key with
  | .fe => 0xFE :: (be 1 L ++ regions ++ [xor8 (be 1 L ++ regions)])
  | .digi =>
    0x7E :: (be 2 L ++ regions ++
      [csum8 (if c.chk7eDigiAfterLength then regions else be 2 L ++ regions)])
  | .lora => 0x7E :: (be 2 L ++ regions ++ [csum8 (be 2 L ++ regions)])

/-- The kind and the context of a BUILD request whose context is present. -/
def buildOf : Instr → Option (BuildKind × Context)
  | .buildAckData (some ctx) => some (.ackData, ctx)
  | .buildAckInfo (some ctx) => some (.ackInfo, ctx)
  | .buildConnect (some ctx) _ => some (.connect, ctx)
  | .buildDisconnect (some ctx) _ => some (.disconnect, ctx)
  | .buildDescribe (some ctx) _ _ _ _ _ => some (.describe, ctx)
  | .buildCalibrate (some ctx) _ _ _ => some (.calibrate, ctx)
  | _ => none

/-- The payload that a BUILD request asks for (R206, R208, R210, R211). -/
def payloadOf (c : Config) (k : Key) : Instr → Bytes
  | .buildAckData _ => ackDataPayload c k
  | .buildAckInfo _ => ackInfoPayload c k
  | .buildConnect _ status => [status]
  | .buildDisconnect _ status => [status]
  | .buildDescribe _ t0 t1 t2 t3 t4 => t0 ++ t1 ++ t2 ++ t3 ++ t4
  | .buildCalibrate _ index unit value => index :: (unit ++ be 4 (f32enc value).toNat)
  | _ => []

/-- The header regions that a built frame carries under the default of R203: the context's, and none for
LORA but the address, whose width there is 0. -/
def contextRegions (ctx : Context) : Bytes :=
  match ctx.key with
  | .fe => ctx.command ++ ctx.address ++ ctx.unparsed
  | .digi => ctx.command ++ ctx.address ++ ctx.unparsed
  | .lora => ctx.address

/-- The texts of a BUILD request have their widths (R210, R211). -/
def TextsFit (c : Config) (k : Key) : Instr → Prop
  | .buildDescribe _ t0 t1 t2 t3 t4 =>
    t0.length = (descWidths c k).model ∧ t1.length = (descWidths c k).serial ∧
      t2.length = (descWidths c k).ipRating ∧ t3.length = (descWidths c k).explosionGrade ∧
      t4.length = (descWidths c k).description
  | .buildCalibrate _ _ unit _ => unit.length = unitWidth c k
  | _ => True

end Sys2Proof.Claims

open Sys2Proof Sys2Proof.Machine Sys2Proof.Claims

/-! ## Reset and invariants -/

/-- spec/70_reset_and_hazards.md R260: every piece of state at its reset value; FLOAT_MODE is the
parameter FLOAT_MODE_RESET, whichever that is. -/
def Obligations.ResetValues : Prop :=
  State.reset.carry = [] ∧
    State.reset.session.extractLsb' 0 2 = 0b00 ∧ State.reset.session.extractLsb' 2 6 = 0 ∧
    (State.reset.config.floatModeReset = .ieee → State.reset.cfg.extractLsb' 0 1 = 0) ∧
    (State.reset.config.floatModeReset = .legacy → State.reset.cfg.extractLsb' 0 1 = 1) ∧
    State.reset.cfg.extractLsb' 1 7 = 0

/-- The invariant holds after reset (spec/10_state.md R21 to R24). -/
def Obligations.ResetMeetsInvariant : Prop := State.reset.Inv

/-- Every step keeps the invariant: SESSION.VARIANT never holds 0b11, the reserved bits of SESSION and
CFG stay 0, and CARRY stays within CARRY_CAP (spec/10_state.md R21 to R24; spec/93 I12, I13). -/
def Obligations.StepKeepsInvariant : Prop :=
  ∀ s t : State, s.Inv → step s = .next t → t.Inv

/-! ## Encoding -/

/-- Decoding the request of a well-formed instruction gives it back, every operand at every value
(spec/30_encoding.md R80 to R84). -/
def Obligations.DecodeOfEncode : Prop :=
  ∀ i : Instr, i.wf = true → decode (encode i) = .ok i

/-- A request that decodes is the encoding of the one well-formed instruction it decodes to
(spec/30_encoding.md R80 to R86). -/
def Obligations.DecodedRequestIsItsEncoding : Prop :=
  ∀ (req : Bytes) (i : Instr), decode req = .ok i → i.wf = true ∧ encode i = req

/-- A few request words written out from R81 to R84. -/
def Obligations.RequestWordsDecode : Prop :=
  decode [0x01, 0x00, 0x00, 0x00, 0x02, 0x7E, 0x00] = .ok (.feed [0x7E, 0x00]) ∧
    decode [0x08, 0x02] = .ok (.setVariant 0x02) ∧
    decode [0x40, 0x3F, 0xC0, 0x00, 0x00] = .ok (.f32Decode 0x3FC00000) ∧
    decode [0x23, 0x01, 0x7E, 0x02, 0x00, 0x00, 0x00, 0x00, 0x00, 0x00, 0x00, 0x01, 0x01, 0x00, 0x01,
        0x02, 0x00, 0x01, 0x03, 0x05] =
      .ok (.buildDisconnect (some ⟨.lora, [], [], [], [0x01], [0x02], [0x03]⟩) 0x05)

/-! ## The step -/

/-- A step performs the oldest request: it leaves the port and its instruction's meaning runs
(spec/00_scope.md R5; spec/20_memory.md R46). -/
def Obligations.StepRunsDecodedRequest : Prop :=
  ∀ (s : State) (req : Bytes) (rest : List Bytes) (i : Instr),
    s.inbox = req :: rest → decode req = .ok i → step s = exec i { s with inbox := rest }

/-- With no request the state is held (spec/60_exceptions.md R253; that the step is a next state is the
model's own, notes/assumptions/2.md). -/
def Obligations.IdlePortHoldsState : Prop :=
  ∀ s : State, s.inbox = [] → step s = .next s

/-- spec/60_exceptions.md R240: every request, whatever its bytes, gets exactly one response, with a
status code of R241, and the engine goes on. -/
def Obligations.EveryRequestIsAnswered : Prop :=
  ∀ (s : State) (req : Bytes) (rest : List Bytes), s.inbox = req :: rest →
    ∃ t r, step s = .next t ∧ t.response = some r ∧ t.inbox = rest ∧ (statusCode r.status).toNat ≤ 0x05

/-- spec/30_encoding.md R85: an illegal opcode gets ERR_ILLEGAL_OP with the opcode and writes no state,
whatever bytes follow. -/
def Obligations.IllegalOpcodeIsRefused : Prop :=
  ∀ (s : State) (op : Byte) (tl : Bytes) (rest : List Bytes),
    IllegalOpcode op.toNat → s.inbox = (op :: tl) :: rest →
      step s = .next (answered { s with inbox := rest } .errIllegalOp (.infoByte op))

/-- spec/30_encoding.md R86: a request with a legal opcode that is no instruction's encoding gets
ERR_OPERAND with no info and writes no state. -/
def Obligations.MalformedRequestIsRefused : Prop :=
  ∀ (s : State) (op : Byte) (tl : Bytes) (rest : List Bytes),
    op ∈ legalOpcodes → (∀ i : Instr, i.wf = true → encode i ≠ op :: tl) → s.inbox = (op :: tl) :: rest →
      step s = .next (answered { s with inbox := rest } .errOperand .none)

/-- spec/60_exceptions.md R243, which the spec marks as derived from 00_scope.md R5: a request answered
with an ERR_ status writes no state and returns no results except the info. -/
def Obligations.RefusalWritesNoState : Prop :=
  ∀ (s t : State) (req : Bytes) (rest : List Bytes) (r : Response),
    s.inbox = req :: rest → step s = .next t → t.response = some r →
    r.status ≠ .ok → r.status ≠ .warnCarryTruncated →
      t = answered { s with inbox := rest } r.status r.results ∧
        (r.results = .none ∨ (∃ b, r.results = .infoByte b) ∨ ∃ L, r.results = .infoLength L)

/-- spec/60_exceptions.md R241 over the meanings: which operation raises which status, on which cause and
with which info. -/
def Obligations.StatusesComeFromTheirOperations : Prop :=
  ∀ (i : Instr) (s t : State) (r : Response), exec i s = .next t → t.response = some r →
    r.status ≠ .errIllegalOp ∧
    (r.status = .errPrecondition → contextOf i = some none ∧ r.results = .none) ∧
    (r.status = .errOperand →
      (∃ v, i = .setVariant v ∧ 2 < v.toNat ∧ r.results = .infoByte v) ∨
        (∃ v, i = .writeCfg v ∧ 1 < v.toNat ∧ r.results = .infoByte v) ∨
        ∃ kind ctx, buildOf i = some (kind, ctx) ∧ r.results = .none ∧
          (¬ FitsWidths s.config kind ctx ∨ ¬ TextsFit s.config ctx.key i)) ∧
    (r.status = .errLength →
      ∃ kind ctx, buildOf i = some (kind, ctx) ∧
        r.results = .infoLength (builtLength s.config kind ctx (payloadOf s.config ctx.key i)) ∧
        lengthLimit ctx.key < builtLength s.config kind ctx (payloadOf s.config ctx.key i)) ∧
    (r.status = .warnCarryTruncated →
      (∃ x cap, i = .feed x ∧ s.config.carryCap = some cap ∧ cap < (s.carry ++ x).length) ∧
        ∃ frames discarded, r.results = .feed frames discarded true)

/-- spec/20_memory.md R44, spec/10_state.md R23, R25: FEED and RESET alone write CARRY, SET_VARIANT alone
writes SESSION, WRITE_CFG alone writes CFG, nothing writes the registry, and no operation touches the
requests behind it. -/
def Obligations.OnlyOwnersWriteState : Prop :=
  ∀ (i : Instr) (s t : State), exec i s = .next t →
    t.config = s.config ∧ t.inbox = s.inbox ∧
    ((∀ x, i ≠ .feed x) → i ≠ .reset → t.carry = s.carry) ∧
    ((∀ v, i ≠ .setVariant v) → t.session = s.session) ∧
    ((∀ v, i ≠ .writeCfg v) → t.cfg = s.cfg)

/-- spec/20_memory.md R46 (a rule the spec marks as derived from 00_scope.md R5): requests take effect in
the order the port accepts them; `k` steps over `k` encoded requests are the meanings one after the other.
-/
def Obligations.RequestsTakeEffectInOrder : Prop :=
  ∀ (is : List Instr) (s : State) (rest : List Bytes), (∀ i ∈ is, i.wf = true) →
    s.inbox = is.map encode ++ rest →
      ∃ t, Host.Core.run Sys2Proof.core is.length s = .next t ∧
        performAll is { s with inbox := rest } = .next t

/-- spec/20_memory.md R44, its last sentence, which the spec marks as derived: repeating an operation other
than FEED with the same state and operands gives the same response. Where the operation makes the draw of
spec/42_float_codec.md R125 it is the same draw that must be made again (notes/assumptions/4.md). -/
def Obligations.RepeatedOperationAnswersTheSame : Prop :=
  ∀ (i : Instr) (s t : State), (∀ x, i ≠ .feed x) → exec i s = .next t →
    (∃ t', exec i { t with draws := s.draws } = .next t' ∧ t'.response = t.response) ∧
    (t.draws = s.draws → ∃ t', exec i t = .next t' ∧ t'.response = t.response)

/-- spec/20_memory.md R49: every operation but FEED and READ_STATE reads only its operands, SESSION, CFG
and the configuration: what CARRY and the port hold has no influence on the response or on SESSION, CFG. -/
def Obligations.CarryDoesNotInfluenceOtherOperations : Prop :=
  ∀ (i : Instr) (s s' t : State), (∀ x, i ≠ .feed x) → i ≠ .readState →
    s'.config = s.config → s'.session = s.session → s'.cfg = s.cfg → s'.draws = s.draws →
    exec i s = .next t →
      ∃ t', exec i s' = .next t' ∧ t'.response = t.response ∧ t'.session = t.session ∧ t'.cfg = t.cfg

/-- spec/30_encoding.md R89, spec/70_reset_and_hazards.md R264: BOOT m, v from any state leaves CARRY
empty, FLOAT_MODE m and VARIANT v. -/
def Obligations.BootSetsUpConnection : Prop :=
  ∀ (m : FloatMode) (v : Byte) (s : State) (rest : List Bytes), v.toNat ≤ 2 →
    s.inbox = [[0x09, if m = .ieee then 0x00 else 0x01], [0x02], [0x08, v]] ++ rest →
      (bootExpansion m v).map encode = [[0x09, if m = .ieee then 0x00 else 0x01], [0x02], [0x08, v]] ∧
      ∃ t, Host.Core.run Sys2Proof.core 3 s = .next t ∧ t.carry = [] ∧
        t.session.extractLsb' 0 2 = v.extractLsb' 0 2 ∧
        (t.cfg.getLsbD 0 = true ↔ m = .legacy) ∧ t.response = some ⟨.ok, .none⟩ ∧ t.inbox = rest ∧
        t.config = s.config ∧ t.draws = s.draws

/-! ## checksum_engine -/

/-- spec/41_checksum.md R100, R101: bit j of CHK_XOR's result is the parity of the bytes with bit j set;
status OK, no state written. -/
def Obligations.ChkXorAnswersParity : Prop :=
  ∀ (data : Bytes) (s : State), ∃ b : Byte,
    exec (.chkXor data) s = .next (answered s .ok (.chk b)) ∧
      ∀ j < 8, b.getLsbD j = decide (data.countP (fun x => x.getLsbD j) % 2 = 1)

/-- spec/41_checksum.md R102, R103: CHK_CSUM's result and the sum of the bytes modulo 256 add to 0xFF;
status OK, no state written. -/
def Obligations.ChkCsumAnswersComplement : Prop :=
  ∀ (data : Bytes) (s : State), ∃ b : Byte,
    exec (.chkCsum data) s = .next (answered s .ok (.chk b)) ∧
      b.toNat + (data.map BitVec.toNat).sum % 256 = 0xFF

/-- spec/41_checksum.md R106, which the spec marks as derived from R100 and R102: a change to any one byte
changes both checksums. -/
def Obligations.OneByteChangeChangesChecksums : Prop :=
  ∀ (data : Bytes) (j : Nat) (b : Byte), j < data.length → data[j]? ≠ some b →
    xor8 (data.set j b) ≠ xor8 data ∧ csum8 (data.set j b) ≠ csum8 data

/-- spec/41_checksum.md R106, R107, both marked as derived: a valid frame with any one byte after its
header changed (length field, region or checksum) is not emitted by FEED. -/
def Obligations.CorruptFrameIsNotEmitted : Prop :=
  ∀ (f : Bytes) (s : State) (j : Nat) (b : Byte), s.carry = [] →
    ValidFrame s.config (s.session.extractLsb' 0 2) f → 1 ≤ j → j < f.length → f[j]? ≠ some b →
      ∃ t status frames discarded cut, exec (.feed (f.set j b)) s = .next t ∧
        t.response = some ⟨status, .feed frames discarded cut⟩ ∧ f.set j b ∉ frames

/-! ## ieee754_float_codec -/

/-- spec/42_float_codec.md R121 to R123: in IEEE mode F32_DECODE converts exactly, keeps the sign and
infinities, and makes a NaN quiet with its payload kept; no state written. -/
def Obligations.F32DecodeIeeeIsExact : Prop :=
  ∀ (w : Bin32) (s : State), s.cfg.getLsbD 0 = false →
    ∃ d : Bin64, exec (.f32Decode w) s = .next (answered s .ok (.bin64 d)) ∧
      d.msb = w.msb ∧
      (Finite32 w → Finite64 d ∧ value64 d = value32 w) ∧
      (w.toNat % 2 ^ 31 = 0x7F800000 → d.toNat % 2 ^ 63 = 0x7FF * 2 ^ 52) ∧
      (0x7F800000 < w.toNat % 2 ^ 31 →
        d.toNat % 2 ^ 63 = 0x7FF * 2 ^ 52 + (2 ^ 51 ||| (w.toNat % 2 ^ 23) * 2 ^ 29))

/-- spec/42_float_codec.md R125: in LEGACY mode a zero fraction gives a zero for every exponent, +0.0
when the sign bit is 0 and one of the two zeros when it is 1, whichever the draw gives. A zero that comes
from LEGACY_POW2(e) = 0 is one of the two zeros as well, and no draw: that its sign is one free value for
each operand is the model's choice (DESIGN CHOICE, notes/assumptions/4.md). -/
def Obligations.F32DecodeLegacyZero : Prop :=
  ∀ (w : Bin32) (s : State), s.cfg.getLsbD 0 = true →
    w.toNat % 2 ^ 23 = 0 ∨ (legacyPow2 s.config (w.extractLsb' 23 8)).num = 0 →
    ∃ d n, exec (.f32Decode w) s = .next (answered { s with draws := n } .ok (.bin64 d)) ∧
      (d = 0x0000000000000000 ∨ d = 0x8000000000000000) ∧
      (w.toNat % 2 ^ 23 = 0 → w.msb = false → d = 0x0000000000000000) ∧
      (w.toNat % 2 ^ 23 ≠ 0 ∨ w.msb = false → n = s.draws)

/-- spec/42_float_codec.md R124, R125: in LEGACY mode a nonzero product is rounded to the nearest
binary64, ties to even, and a product too large for binary64 gives infinity with its sign. LEGACY_POW2 is
any rational one (DESIGN CHOICE, notes/assumptions/5.md). That a product that rounds to 0 keeps its sign
is the model's choice (PRESUMED, notes/assumptions/11.md). -/
def Obligations.F32DecodeLegacyIsNearest : Prop :=
  ∀ (w : Bin32) (s : State), s.cfg.getLsbD 0 = true → w.toNat % 2 ^ 23 ≠ 0 →
    legacyProduct s.config w ≠ 0 →
    ∃ d : Bin64, exec (.f32Decode w) s = .next (answered s .ok (.bin64 d)) ∧
      (d.msb = true ↔ legacyProduct s.config w < 0) ∧
      (|legacyProduct s.config w| < 2 ^ 1024 - 2 ^ 970 →
        Finite64 d ∧ ∀ d', Finite64 d' →
          |legacyProduct s.config w - value64 d| ≤ |legacyProduct s.config w - value64 d'| ∧
          (|legacyProduct s.config w - value64 d| = |legacyProduct s.config w - value64 d'| →
            value64 d' ≠ value64 d → d.getLsbD 0 = false)) ∧
      (2 ^ 1024 - 2 ^ 970 ≤ |legacyProduct s.config w| → d.toNat % 2 ^ 63 = 0x7FF * 2 ^ 52)

/-- spec/42_float_codec.md R126, R127: F32_ENCODE of a finite value within the range gives the nearest
binary32, ties to even, with the value's sign; no state written, whatever the mode. -/
def Obligations.F32EncodeIsNearest : Prop :=
  ∀ (d : Bin64) (s : State), Finite64 d → |value64 d| < 2 ^ 128 - 2 ^ 103 →
    ∃ w : Bin32, exec (.f32Encode d) s = .next (answered s .ok (.bin32 w)) ∧ w.msb = d.msb ∧
      Finite32 w ∧ ∀ w', Finite32 w' →
        |value64 d - value32 w| ≤ |value64 d - value32 w'| ∧
        (|value64 d - value32 w| = |value64 d - value32 w'| → value32 w' ≠ value32 w →
          w.getLsbD 0 = false)

/-- spec/42_float_codec.md R128: infinities, NaNs, zeros, overflow and underflow of F32_ENCODE. -/
def Obligations.F32EncodeSpecialInputs : Prop :=
  ∀ (d : Bin64) (s : State), ∃ w : Bin32,
    exec (.f32Encode d) s = .next (answered s .ok (.bin32 w)) ∧ w.msb = d.msb ∧
      (d.toNat % 2 ^ 63 = 0x7FF * 2 ^ 52 → w.toNat % 2 ^ 31 = 0x7F800000) ∧
      (0x7FF * 2 ^ 52 < d.toNat % 2 ^ 63 →
        w.toNat % 2 ^ 31 = 0x7FC00000 ||| d.toNat % 2 ^ 52 / 2 ^ 29) ∧
      (d.toNat % 2 ^ 63 = 0 → w.toNat % 2 ^ 31 = 0) ∧
      (Finite64 d → (2 ^ 24 - 1 / 2) * 2 ^ 104 ≤ |value64 d| → w.toNat % 2 ^ 31 = 0x7F800000) ∧
      (Finite64 d → |value64 d| ≤ 2 ^ (-150 : ℤ) → w.toNat % 2 ^ 31 = 0)

/-- spec/42_float_codec.md R129, which the spec marks as derived from R122, R123, R127 and R128: encoding
an IEEE decode gives the pattern back, a NaN with its quiet bit set. -/
def Obligations.FloatRoundTrip : Prop :=
  ∀ (w : Bin32) (s : State), s.cfg.getLsbD 0 = false →
    ∃ d : Bin64, exec (.f32Decode w) s = .next (answered s .ok (.bin64 d)) ∧
      exec (.f32Encode d) s =
        .next (answered s .ok (.bin32 (if 0x7F800000 < w.toNat % 2 ^ 31 then w ||| 0x00400000 else w)))

/-- spec/42_float_codec.md R130, spec/10_state.md R24: WRITE_CFG writes FLOAT_MODE and only it, and
refuses a set reserved bit with the operand as info. -/
def Obligations.WriteCfgWritesFloatMode : Prop :=
  ∀ (v : Byte) (s : State),
    (v.toNat ≤ 1 → ∃ x, exec (.writeCfg v) s = .next (answered { s with cfg := x } .ok .none) ∧
      x.extractLsb' 0 1 = v.extractLsb' 0 1 ∧ x.extractLsb' 1 7 = s.cfg.extractLsb' 1 7) ∧
    (1 < v.toNat → exec (.writeCfg v) s = .next (answered s .errOperand (.infoByte v)))

/-! ## frame_reassembler -/

/-- spec/43_reassembler.md R141 to R147: FEED emits the frames of the greedy scan of CARRY followed by
the input, discards the bytes between them, keeps the tail (its newest CARRY_CAP bytes when cut, with
WARN_CARRY_TRUNCATED), and writes nothing else. -/
def Obligations.FeedIsGreedyScan : Prop :=
  ∀ (input : Bytes) (s : State), ∃ segs tail kept extra cut,
    GreedyScan s.config (s.session.extractLsb' 0 2) (s.carry ++ input) segs tail ∧
    CappedTail s.config tail kept extra cut ∧
    exec (.feed input) s =
      .next (answered { s with carry := kept } (if cut then .warnCarryTruncated else .ok)
        (.feed (segs.map Prod.snd) (segs.flatMap Prod.fst ++ extra) cut))

/-- spec/43_reassembler.md R148, which the spec marks as derived from R141 and R147: every byte of the
working sequence is in exactly one of an emitted frame, `discarded` or the new CARRY, in stream order, and
every emitted frame is a valid candidate. -/
def Obligations.FeedAccountsForEveryByte : Prop :=
  ∀ (input : Bytes) (s : State), ∃ segs extra t status cut,
    exec (.feed input) s = .next t ∧
    s.carry ++ input = segBytes segs ++ extra ++ t.carry ∧
    (∀ p ∈ segs, ValidFrame s.config (s.session.extractLsb' 0 2) p.2) ∧
    t.response = some ⟨status, .feed (segs.map Prod.snd) (segs.flatMap Prod.fst ++ extra) cut⟩

/-- spec/43_reassembler.md R147: the new CARRY is within CARRY_CAP whatever it was before. -/
def Obligations.FeedBoundsCarry : Prop :=
  ∀ (input : Bytes) (s : State) (cap : Nat), s.config.carryCap = some cap →
    ∃ t, exec (.feed input) s = .next t ∧ t.carry.length ≤ cap

/-- spec/43_reassembler.md R149, which the spec marks as derived from R141 and R146: chunk-size
independence, under the rule's condition on the markers before the end of the first FEED's last frame.
SESSION may be `x` at the second FEED: when P14 is true its VARIANT is the first's. -/
def Obligations.FeedSplitsWhereMarkersResolve : Prop :=
  ∀ (b1 b2 : Bytes) (s : State) (x : BitVec 8) (segs : List (Bytes × Bytes)) (tail : Bytes),
    s.config.carryCap = none →
    (s.config.chk7eDigiAfterLength = true → x.extractLsb' 0 2 = s.session.extractLsb' 0 2) →
    GreedyScan s.config (s.session.extractLsb' 0 2) (s.carry ++ b1) segs tail →
    (∀ pre junk f post, segs = pre ++ (junk, f) :: post → ∀ i < junk.length,
      ¬ Unresolvable ((s.carry ++ b1).drop ((segBytes pre).length + i))) →
    ∃ s1 s2 s12 f1 d1 f2 d2,
      exec (.feed b1) s = .next s1 ∧ s1.response = some ⟨.ok, .feed f1 d1 false⟩ ∧
      exec (.feed b2) { s1 with session := x } = .next s2 ∧ s2.response = some ⟨.ok, .feed f2 d2 false⟩ ∧
      exec (.feed (b1 ++ b2)) s = .next s12 ∧
      s12.response = some ⟨.ok, .feed (f1 ++ f2) (d1 ++ d2) false⟩ ∧ s12.carry = s2.carry

/-- spec/43_reassembler.md R153, which the spec marks as derived from R141 and R105: a checksum-valid
candidate fed from an empty CARRY is emitted, whatever its contents. -/
def Obligations.ValidFrameIsEmitted : Prop :=
  ∀ (f : Bytes) (s : State), s.carry = [] →
    ValidFrame s.config (s.session.extractLsb' 0 2) f →
      exec (.feed f) s = .next (answered s .ok (.feed [f] [] false))

/-- spec/43_reassembler.md R150, spec/70_reset_and_hazards.md R261: RESET clears only CARRY, and a FEED
after it starts from nothing. -/
def Obligations.ResetClearsOnlyCarry : Prop :=
  ∀ (s : State), ∃ t, exec .reset s = .next t ∧ t = answered { s with carry := [] } .ok .none ∧
    ∀ f, ValidFrame s.config (s.session.extractLsb' 0 2) f →
      exec (.feed f) t = .next (answered t .ok (.feed [f] [] false))

/-- spec/43_reassembler.md R151, spec/10_state.md R22, R24: READ_STATE returns SESSION, CFG and CARRY,
reserved bits reading 0, and writes nothing. -/
def Obligations.ReadStateReturnsState : Prop :=
  ∀ (s : State), ∃ a b : Byte, exec .readState s = .next (answered s .ok (.state a b s.carry)) ∧
    a.extractLsb' 0 2 = s.session.extractLsb' 0 2 ∧ a.extractLsb' 2 6 = 0 ∧
    b.extractLsb' 0 1 = s.cfg.extractLsb' 0 1 ∧ b.extractLsb' 1 7 = 0 ∧
    (s.Inv → a = s.session ∧ b = s.cfg)

/-! ## frame_decoder -/

/-- spec/44_decoder.md R170, spec/10_state.md R22, R23: SET_VARIANT writes VARIANT and only it, and
refuses every reserved value with the operand as info. -/
def Obligations.SetVariantWritesVariant : Prop :=
  ∀ (v : Byte) (s : State),
    (v.toNat ≤ 2 → ∃ x, exec (.setVariant v) s = .next (answered { s with session := x } .ok .none) ∧
      x.extractLsb' 0 2 = v.extractLsb' 0 2 ∧ x.extractLsb' 2 6 = s.session.extractLsb' 2 6) ∧
    (2 < v.toNat → exec (.setVariant v) s = .next (answered s .errOperand (.infoByte v)))

/-- spec/44_decoder.md R172: an input that is empty or begins with no marker sets NOT_A_FRAME and
returns no other field. -/
def Obligations.DecodeOfNoFrame : Prop :=
  ∀ (fr : Bytes) (s : State), fr.head? ≠ some 0xFE → fr.head? ≠ some 0x7E →
    DecodeAnswers s fr { flags := 0x01 }

/-- spec/44_decoder.md R173: FE ignores the flag; a 7E frame takes the variant that VARIANT_SELECT gives
for the flag and the frame's length, by the configuration's own points or the default (their form is
notes/assumptions/7.md); where it gives none, and only there, VARIANT_UNRESOLVED is set and no layout is
applied. -/
def Obligations.DecodeKeyFollowsFlag : Prop :=
  ∀ (tl : Bytes) (s : State),
    (∃ out, DecodeAnswers s (0xFE :: tl) out ∧ out.family = some .fe ∧ out.key = some .fe ∧
      out.flags.getLsbD 1 = false) ∧
    ∃ out, DecodeAnswers s (0x7E :: tl) out ∧ out.family = some .sevenE ∧
      (∀ sel, SelectsVariant s.config (s.session.extractLsb' 0 2) (tl.length + 1) sel →
        out.key = sel.map keyOf) ∧
      (out.flags.getLsbD 1 = true ↔ out.key = none) ∧
      (out.key = none → out.command = none ∧ out.address = none ∧
        out.unparsed = none ∧ out.content = none ∧ out.vendor = none ∧ out.deviceType = none ∧
        out.group = none ∧ out.functionCode = none ∧ out.payload = none ∧ out.fields = [])

/-- spec/44_decoder.md R171, spec/30_encoding.md R61, R62: of every input that begins with a marker, whatever
its length and key, the family, the header, the length field with its value exactly when it lies before
the last byte, and the last byte as the checksum when there is one after the header. -/
def Obligations.DecodeReadsFixedParts : Prop :=
  ∀ (fam : Family) (tl : Bytes) (s : State), ∃ out, DecodeAnswers s (headerOf fam :: tl) out ∧
    out.family = some fam ∧ out.header = some (headerOf fam) ∧ out.checksum = tl.getLast? ∧
    (tl.length ≤ lengthBytesOf fam → out.lengthField = none ∧ out.lengthValue = none) ∧
    (lengthBytesOf fam < tl.length →
      out.lengthField = some (tl.take (lengthBytesOf fam)) ∧
      out.lengthValue = some (ube (tl.take (lengthBytesOf fam))))

/-- spec/44_decoder.md R174, R175: the header regions of the key's layout, each present exactly when it
lies before the last byte; HEADER_TRUNCATED exactly when the last byte comes before the content. -/
def Obligations.DecodeSlicesHeader : Prop :=
  ∀ (fr : Bytes) (s : State), ∃ out, DecodeAnswers s fr out ∧ ∀ k, out.key = some k →
    out.command = regionAt fr (1 + (widths s.config k).1) (widths s.config k).2.1 ∧
    out.address = regionAt fr (1 + (widths s.config k).1 + (widths s.config k).2.1)
      (widths s.config k).2.2.1 ∧
    out.unparsed = regionAt fr
      (1 + (widths s.config k).1 + (widths s.config k).2.1 + (widths s.config k).2.2.1)
      (widths s.config k).2.2.2 ∧
    (out.flags.getLsbD 2 = true ↔ fr.length ≤ contentIndex s.config k) ∧
    (fr.length ≤ contentIndex s.config k →
      out.content = none ∧ out.vendor = none ∧ out.deviceType = none ∧ out.group = none ∧
        out.functionCode = none ∧ out.payload = none ∧ out.fields = []) ∧
    (contentIndex s.config k < fr.length →
      out.content = some (fr.drop (contentIndex s.config k)).dropLast)

/-- spec/30_encoding.md R60: of a frame that is long enough, the decoded regions put together in the
wire order are the frame. -/
def Obligations.DecodedRegionsMakeFrame : Prop :=
  ∀ (fr : Bytes) (s : State), ∃ out, DecodeAnswers s fr out ∧ ∀ k, out.key = some k →
    contentIndex s.config k < fr.length →
      ∃ h lf cmd addr unp content chk,
        out.header = some h ∧ out.lengthField = some lf ∧ out.command = some cmd ∧
        out.address = some addr ∧ out.unparsed = some unp ∧ out.content = some content ∧
        out.checksum = some chk ∧ fr = [h] ++ lf ++ cmd ++ addr ++ unp ++ content ++ [chk]

/-- spec/44_decoder.md R177, R178: the content prefix, the function code and the payload; FC_ABSENT when
content is too short for the code, UNRECOGNIZED_FC when the table has no entry for it. That a prefix field
of width 0 is OK exactly when its offset is at most the content's length is the model's choice (DEDUCED,
notes/assumptions/10.md). -/
def Obligations.DecodeReadsContentPrefix : Prop :=
  ∀ (fr : Bytes) (s : State), ∃ out, DecodeAnswers s fr out ∧ ∀ k content, out.key = some k →
    out.content = some content →
    let vw := (prefixWidths s.config k).1
    let dtw := (prefixWidths s.config k).2.1
    let gw := (prefixWidths s.config k).2.2
    out.vendor = some (prefixAt content 0 vw) ∧ out.deviceType = some (prefixAt content vw dtw) ∧
    out.group = some (prefixAt content (vw + dtw) gw) ∧
    (out.flags.getLsbD 3 = true ↔ content.length < vw + dtw + gw + 2) ∧
    (content.length < vw + dtw + gw + 2 → out.functionCode = none ∧ out.payload = none ∧ out.fields = []) ∧
    (vw + dtw + gw + 2 ≤ content.length → ∃ hi lo : Byte,
      content[vw + dtw + gw]? = some hi ∧ content[vw + dtw + gw + 1]? = some lo ∧
      out.functionCode = some (hi ++ lo) ∧ out.payload = some (content.drop (vw + dtw + gw + 2)) ∧
      (out.flags.getLsbD 4 = true ↔ contentTable s.config k (hi ++ lo) = none) ∧
      (contentTable s.config k (hi ++ lo) = none → out.fields = []))

/-- spec/44_decoder.md R179: the fields are the table's, in order, each by its spec: truncated whole when
it does not fit, else its raw bytes and its value by kind. -/
def Obligations.DecodeExtractsFields : Prop :=
  ∀ (fr : Bytes) (s : State), ∃ out, DecodeAnswers s fr out ∧ ∀ k c fc specs, out.key = some k →
    out.content = some c → out.functionCode = some fc → contentTable s.config k fc = some specs →
      List.Forall₂ (FieldFollowsSpec s.config (!s.cfg.getLsbD 0) c) specs out.fields

/-- spec/44_decoder.md R176, R180, R181: the reserved flag bits are 0, MALFORMED is never produced, and
LENGTH_MISMATCH is set exactly when the input begins with a marker, its length field lies before the last
byte, and the value of that field plus OFFSET is not the input's length. -/
def Obligations.DecodeFlagsAndStatuses : Prop :=
  ∀ (fr : Bytes) (s : State), ∃ out, DecodeAnswers s fr out ∧
    out.flags.getLsbD 6 = false ∧ out.flags.getLsbD 7 = false ∧
    (∀ f ∈ out.fields, f.status ≠ .malformed) ∧
    (out.flags.getLsbD 5 = true ↔ ∃ fam tl, fr = headerOf fam :: tl ∧ lengthBytesOf fam < tl.length ∧
      fr.length ≠ ube (tl.take (lengthBytesOf fam)) + offsetOf fam)

/-- spec/44_decoder.md R181, its sentence marked as derived from R148: a frame emitted by FEED never has
LENGTH_MISMATCH (nor NOT_A_FRAME). -/
def Obligations.FedFrameHasItsLength : Prop :=
  ∀ (input : Bytes) (s t : State) (status : Status) (frames : List Bytes) (discarded : Bytes) (cut : Bool),
    exec (.feed input) s = .next t → t.response = some ⟨status, .feed frames discarded cut⟩ →
      ∀ f ∈ frames, ∀ u : State, ∃ out, DecodeAnswers u f out ∧
        out.flags.getLsbD 0 = false ∧ out.flags.getLsbD 5 = false

/-- spec/44_decoder.md R182: DECODE does not check the checksum; another last byte changes nothing in
the record but the checksum it reports. -/
def Obligations.DecodeDoesNotCheckChecksum : Prop :=
  ∀ (body : Bytes) (a b : Byte) (s : State), body.head? = some 0xFE ∨ body.head? = some 0x7E →
    ∃ out : DecodedFrame, DecodeAnswers s (body ++ [a]) { out with checksum := some a } ∧
      DecodeAnswers s (body ++ [b]) { out with checksum := some b }

/-! ## frame_encoder -/

/-- spec/45_encoder.md R202, spec/60_exceptions.md R244: every BUILD operation with an absent context is
refused with ERR_PRECONDITION, whatever its other operands. -/
def Obligations.BuildWithoutContextIsRefused : Prop :=
  ∀ (i : Instr) (s : State), contextOf i = some none →
    exec i s = .next (answered s .errPrecondition .none)

/-- spec/45_encoder.md R204: a region of any other width than the layout's is refused with ERR_OPERAND. -/
def Obligations.BuildOfWrongWidthIsRefused : Prop :=
  ∀ (i : Instr) (kind : BuildKind) (ctx : Context) (s : State), buildOf i = some (kind, ctx) →
    ¬ FitsWidths s.config kind ctx → exec i s = .next (answered s .errOperand .none)

/-- spec/45_encoder.md R210, R211: a describe text or a calibrate unit of any other width is refused
with ERR_OPERAND. -/
def Obligations.BuildOfWrongTextIsRefused : Prop :=
  ∀ (i : Instr) (kind : BuildKind) (ctx : Context) (s : State), buildOf i = some (kind, ctx) →
    ¬ TextsFit s.config ctx.key i → exec i s = .next (answered s .errOperand .none)

/-- spec/45_encoder.md R207: a length that does not fit the length field is refused with ERR_LENGTH and
the length as info. -/
def Obligations.BuildOfOverlongFrameIsRefused : Prop :=
  ∀ (i : Instr) (kind : BuildKind) (ctx : Context) (s : State), buildOf i = some (kind, ctx) →
    FitsWidths s.config kind ctx → TextsFit s.config ctx.key i →
    lengthLimit ctx.key < builtLength s.config kind ctx (payloadOf s.config ctx.key i) →
      exec i s = .next (answered s .errLength
        (.infoLength (builtLength s.config kind ctx (payloadOf s.config ctx.key i))))

/-- spec/45_encoder.md R205, R206, R220, R221: the two acknowledgements build the frame of the skeleton
with the registry's payload. -/
def Obligations.BuildAcknowledgements : Prop :=
  ∀ (ctx : Context) (s : State),
    (FitsWidths s.config .ackData ctx →
      builtLength s.config .ackData ctx (ackDataPayload s.config ctx.key) ≤ lengthLimit ctx.key →
        exec (.buildAckData (some ctx)) s = .next (answered s .ok
          (.frame (builtFrame s.config .ackData ctx (ackDataPayload s.config ctx.key))))) ∧
    (FitsWidths s.config .ackInfo ctx →
      builtLength s.config .ackInfo ctx (ackInfoPayload s.config ctx.key) ≤ lengthLimit ctx.key →
        exec (.buildAckInfo (some ctx)) s = .next (answered s .ok
          (.frame (builtFrame s.config .ackInfo ctx (ackInfoPayload s.config ctx.key)))))

/-- spec/45_encoder.md R205, R208, R222, R223: connect and disconnect build the frame of the skeleton
with the status byte as payload, whatever its value. -/
def Obligations.BuildConnectAndDisconnect : Prop :=
  ∀ (ctx : Context) (status : Byte) (s : State),
    (FitsWidths s.config .connect ctx →
      builtLength s.config .connect ctx [status] ≤ lengthLimit ctx.key →
        exec (.buildConnect (some ctx) status) s = .next (answered s .ok
          (.frame (builtFrame s.config .connect ctx [status])))) ∧
    (FitsWidths s.config .disconnect ctx →
      builtLength s.config .disconnect ctx [status] ≤ lengthLimit ctx.key →
        exec (.buildDisconnect (some ctx) status) s = .next (answered s .ok
          (.frame (builtFrame s.config .disconnect ctx [status]))))

/-- spec/45_encoder.md R205, R210, R224: describe builds the frame of the skeleton with the five texts. -/
def Obligations.BuildDescribe : Prop :=
  ∀ (ctx : Context) (t0 t1 t2 t3 t4 : Bytes) (s : State),
    FitsWidths s.config .describe ctx →
    t0.length = (descWidths s.config ctx.key).model → t1.length = (descWidths s.config ctx.key).serial →
    t2.length = (descWidths s.config ctx.key).ipRating →
    t3.length = (descWidths s.config ctx.key).explosionGrade →
    t4.length = (descWidths s.config ctx.key).description →
    builtLength s.config .describe ctx (t0 ++ t1 ++ t2 ++ t3 ++ t4) ≤ lengthLimit ctx.key →
      exec (.buildDescribe (some ctx) t0 t1 t2 t3 t4) s = .next (answered s .ok
        (.frame (builtFrame s.config .describe ctx (t0 ++ t1 ++ t2 ++ t3 ++ t4))))

/-- spec/45_encoder.md R205, R211, R225: calibrate builds the frame of the skeleton with the index, the
unit and the value as F32_ENCODE gives it, big-endian. -/
def Obligations.BuildCalibrate : Prop :=
  ∀ (ctx : Context) (index : Byte) (unit : Bytes) (value : Bin64) (s : State),
    FitsWidths s.config .calibrate ctx → unit.length = unitWidth s.config ctx.key →
    ∃ w : Bin32, exec (.f32Encode value) s = .next (answered s .ok (.bin32 w)) ∧
      (builtLength s.config .calibrate ctx (index :: (unit ++ be 4 w.toNat)) ≤ lengthLimit ctx.key →
        exec (.buildCalibrate (some ctx) index unit value) s = .next (answered s .ok
          (.frame (builtFrame s.config .calibrate ctx (index :: (unit ++ be 4 w.toNat))))))

/-- spec/45_encoder.md R203: with the default TX_COMMAND and TX_UNPARSED a built frame of FE or DIGI
carries the context's command, address and unparsed bytes behind its length field, and one of LORA the
address alone, which is empty. That the sentence "For LORA both are empty" is part of the default, so that
a LORA context's own command and unparsed bytes are dropped and not refused, is the model's choice
(DEDUCED, notes/assumptions/8.md). -/
def Obligations.BuildSendsContextRegions : Prop :=
  ∀ (i : Instr) (kind : BuildKind) (ctx : Context) (s t : State) (f : Bytes),
    s.config.txCommandRules = [] → s.config.txUnparsedRules = [] →
    buildOf i = some (kind, ctx) → exec i s = .next t → t.response = some ⟨.ok, .frame f⟩ →
      contextRegions ctx <+: f.drop (1 + (widths s.config ctx.key).1) ∧
      (contextRegions ctx).length =
        (widths s.config ctx.key).2.1 + (widths s.config ctx.key).2.2.1 + (widths s.config ctx.key).2.2.2

/-- spec/45_encoder.md R212 (a), marked as derived from R205, R207 and R141: FEED of a built frame from an
empty CARRY emits exactly it. -/
def Obligations.BuiltFrameIsFedBack : Prop :=
  ∀ (i : Instr) (kind : BuildKind) (ctx : Context) (s t : State) (f : Bytes),
    buildOf i = some (kind, ctx) → exec i s = .next t → t.response = some ⟨.ok, .frame f⟩ →
    s.carry = [] →
    (s.config.chk7eDigiAfterLength = true → ctx.key ≠ .fe →
      (s.session.extractLsb' 0 2 = 0b01 ↔ ctx.key = .digi)) →
      exec (.feed f) s = .next (answered s .ok (.feed [f] [] false))

/-- spec/45_encoder.md R212 (b), (c), marked as derived from R205, R207 and R171: DECODE of a built frame
gives its key, function code, payload and header and prefix regions, with none of the failure markers. -/
def Obligations.BuiltFrameDecodesBack : Prop :=
  ∀ (i : Instr) (kind : BuildKind) (ctx : Context) (s t : State) (f : Bytes),
    buildOf i = some (kind, ctx) → exec i s = .next t → t.response = some ⟨.ok, .frame f⟩ →
    (ctx.key ≠ .fe →
      (variantSelect s.config (s.session.extractLsb' 0 2) f.length).map variantKey = some ctx.key) →
      ∃ out, DecodeAnswers s f out ∧ out.key = some ctx.key ∧
        out.functionCode = some (txCode s.config ctx.key kind) ∧
        out.payload = some (payloadOf s.config ctx.key i) ∧
        out.flags.getLsbD 0 = false ∧ out.flags.getLsbD 1 = false ∧ out.flags.getLsbD 2 = false ∧
        out.flags.getLsbD 3 = false ∧ out.flags.getLsbD 5 = false ∧
        out.command = some (txCommand s.config ctx.key kind ctx) ∧ out.address = some ctx.address ∧
        out.unparsed = some (txUnparsed s.config ctx.key kind ctx) ∧
        out.vendor = some ⟨.ok, ctx.vendor, ube ctx.vendor⟩ ∧
        out.deviceType = some ⟨.ok, ctx.deviceType, ube ctx.deviceType⟩ ∧
        out.group = some ⟨.ok, ctx.group, ube ctx.group⟩

/-! ## The registry -/

/-- spec/30_encoding.md R73, R74: checks WF1 to WF6 hold of every configuration (WF7 is FC_TX's type), and
CT gives the first entry that the configuration lists for the key and the code, or none where it lists
none. That an ill-formed registry has no term, and that the first of two entries counts, is the model's
form (DESIGN CHOICE, notes/assumptions/7.md). -/
def Obligations.RegistryMeetsItsChecks : Prop :=
  ∀ (c : Config), commandWidth c .fe = 2 ∧ commandWidth c .lora = 0 ∧ addressWidth c .lora = 0 ∧
    ∀ k : Key, commandWidth c k ≤ 2 ∧ addressWidth c k ≤ 8 ∧ contentTable c k 0x05FF = none ∧
      ∀ (fc : BitVec 16),
        (∀ specs : List FieldSpec, contentTable c k fc = some specs →
          (specs.map FieldSpec.name).Nodup ∧
          ∀ spec ∈ specs, match spec.format with
            | .uint _ => 1 ≤ fieldWidth spec.format ∧ fieldWidth spec.format ≤ 8
            | .text _ => 0 ≤ fieldWidth spec.format
            | .f32 => fieldWidth spec.format = 4) ∧
        (∀ pre e post, c.contentEntries = pre ++ e :: post → e.key = k → e.fc = fc →
          (∀ e' ∈ pre, ¬ (e'.key = k ∧ e'.fc = fc)) → contentTable c k fc = some e.specs) ∧
        ((∀ e ∈ c.contentEntries, ¬ (e.key = k ∧ e.fc = fc)) → contentTable c k fc = none)
end

