-- ==== Sys2Proof/Laws/Operands.lean ====
section
/-! SUPPORT. The small lemmas of Machine/Operands.lean: big-endian numbers, slices, families, and the
registry's checks WF1 to WF7 (spec/30_encoding.md R74). -/

namespace Sys2Proof.Machine

/-! ### Big-endian numbers (spec/00_scope.md R9) -/

@[simp] theorem ube_nil : ube [] = 0 := rfl

theorem ube_snoc (s : Bytes) (b : Byte) : ube (s ++ [b]) = 256 * ube s + b.toNat := by
  simp [ube, List.foldl_append]

@[simp] theorem ube_singleton (b : Byte) : ube [b] = b.toNat := by simp [ube]

@[simp] theorem ube_pair (a b : Byte) : ube [a, b] = 256 * a.toNat + b.toNat := by simp [ube]

theorem ube_lt (s : Bytes) : ube s < 256 ^ s.length := by
  induction s using List.reverseRecOn with
  | nil => simp
  | append_singleton s b ih =>
    have hb := b.isLt
    rw [ube_snoc, List.length_append, List.length_singleton, pow_succ]
    omega

@[simp] theorem length_be (n v : Nat) : (be n v).length = n := by
  induction n generalizing v with
  | zero => rfl
  | succ n ih => simp [be, ih]

/-- `ube` is the inverse of `be` at width `n`. -/
theorem ube_be (n v : Nat) (h : v < 256 ^ n) : ube (be n v) = v := by
  induction n generalizing v with
  | zero => simp at h; simp [be, h]
  | succ n ih =>
    have hv : v / 256 < 256 ^ n := by
      rw [pow_succ] at h; exact Nat.div_lt_of_lt_mul (by omega)
    rw [be, ube_snoc, ih _ hv]
    simp only [BitVec.toNat_ofNat]
    omega

theorem be_ube (s : Bytes) : be s.length (ube s) = s := by
  induction s using List.reverseRecOn with
  | nil => rfl
  | append_singleton s b ih =>
    have hb := b.isLt
    rw [ube_snoc, List.length_append, List.length_singleton, be]
    have h1 : (256 * ube s + b.toNat) / 256 = ube s := by omega
    have h2 : BitVec.ofNat 8 (256 * ube s + b.toNat) = b := by
      apply BitVec.eq_of_toNat_eq
      simp only [BitVec.toNat_ofNat]
      omega
    rw [h1, h2, ih]

theorem be_ube_of_length {s : Bytes} {n : Nat} (h : s.length = n) : be n (ube s) = s := h ▸ be_ube s

/-! ### Slices -/

theorem length_slice (s : Bytes) (a e : Nat) : (slice s a e).length = min e s.length - a := by
  simp [slice]

theorem slice_append_slice (s : Bytes) (a b e : Nat) (h1 : a ≤ b) (h2 : b ≤ e) :
    slice s a b ++ slice s b e = slice s a e := by
  have hl : slice s a b = (slice s a e).take (b - a) := by
    simp only [slice]
    rw [List.drop_take, List.drop_take, List.take_take]
    congr 1
    omega
  have hr : slice s b e = (slice s a e).drop (b - a) := by
    simp only [slice, List.drop_drop]
    congr 1
    omega
  rw [hl, hr, List.take_append_drop]

theorem slice_zero (s : Bytes) (e : Nat) : slice s 0 e = s.take e := by simp [slice]

theorem slice_length (s : Bytes) (a : Nat) : slice s a s.length = s.drop a := by simp [slice]

/-- `sliceWithin` in one case split: it gives the region exactly when the region lies within. -/
theorem sliceWithin_eq_some {s r : Bytes} {a n : Nat} :
    sliceWithin s a n = some r ↔ a + n ≤ s.length ∧ r = slice s a (a + n) := by
  unfold sliceWithin
  split <;> simp_all [eq_comm]

theorem sliceWithin_eq_none {s : Bytes} {a n : Nat} :
    sliceWithin s a n = none ↔ s.length < a + n := by
  unfold sliceWithin
  split <;> simp_all

/-! ### Families -/

theorem markerFamily_eq_some {b : Byte} {fam : Family} :
    markerFamily b = some fam ↔ b = marker fam := by
  unfold markerFamily
  cases fam <;> (split_ifs <;> simp_all [marker])

@[simp] theorem markerFamily_marker (fam : Family) : markerFamily (marker fam) = some fam :=
  markerFamily_eq_some.2 rfl

theorem lengthWidth_lt_fixedOffset (fam : Family) : lengthWidth fam + 2 ≤ fixedOffset fam := by
  cases fam <;> simp [lengthWidth, fixedOffset]

/-! ### The registry's checks (R74) -/

theorem wf1 (c : Config) : commandWidth c .fe = 2 := rfl

theorem wf2 (c : Config) : commandWidth c .lora = 0 ∧ addressWidth c .lora = 0 := ⟨rfl, rfl⟩

theorem wf3 (c : Config) (k : Key) : commandWidth c k ≤ 2 ∧ addressWidth c k ≤ 8 := by
  have h1 := c.commandWidthDigi.isLt
  have h2 := c.addressWidthFe.isLt
  have h3 := c.addressWidthDigi.isLt
  cases k <;> simp only [commandWidth, addressWidth] <;> omega

/-- What a table entry that is looked up is, and what it satisfies (WF5, WF6). -/
theorem contentTable_eq_some {c : Config} {k : Key} {fc : BitVec 16} {specs : List FieldSpec}
    (h : contentTable c k fc = some specs) :
    (∃ e ∈ c.contentEntries, e.key = k ∧ e.fc = fc ∧ e.specs = specs) ∧
      (specs.map FieldSpec.name).Nodup ∧ fc ≠ 0x05FF := by
  unfold contentTable at h
  obtain ⟨e, he, rfl⟩ := Option.map_eq_some_iff.1 h
  have hp := List.find?_some he
  have hm := List.mem_of_find?_eq_some he
  simp only [Bool.and_eq_true, decide_eq_true_eq] at hp
  obtain ⟨hk, hfc⟩ := hp
  obtain ⟨hn, hu⟩ : (e.specs.map FieldSpec.name).Nodup ∧ e.fc ≠ 0x05FF := by
    simpa [contentEntryLegal] using e.legal
  exact ⟨⟨e, hm, hk, hfc, rfl⟩, hn, hfc ▸ hu⟩

end Sys2Proof.Machine
end

