-- ==== Sys2Proof/Laws/Checksum.lean ====
section
/-! SUPPORT. The two checksum functions over concatenation and over a change of one byte
(spec/41_checksum.md R100, R102, R106), and the validity of a frame by its parts (R104, R105). -/

namespace Sys2Proof.Machine

/-! ### `xor8` -/

@[simp] theorem xor8_nil : xor8 [] = 0x00 := rfl

theorem xor8_snoc (s : Bytes) (b : Byte) : xor8 (s ++ [b]) = xor8 s ^^^ b := by simp [xor8]

theorem xor8_append (s t : Bytes) : xor8 (s ++ t) = xor8 s ^^^ xor8 t := by
  induction t using List.reverseRecOn with
  | nil => simp
  | append_singleton t b ih => rw [← List.append_assoc, xor8_snoc, ih, xor8_snoc, BitVec.xor_assoc]

theorem xor8_cons (b : Byte) (s : Bytes) : xor8 (b :: s) = b ^^^ xor8 s := by
  rw [← List.singleton_append, xor8_append]; simp [xor8]

/-! ### `sum8` and `csum8` -/

@[simp] theorem sum8_nil : sum8 [] = 0x00 := rfl

@[simp] theorem csum8_nil : csum8 [] = 0xFF := rfl

theorem sum8_snoc (s : Bytes) (b : Byte) : sum8 (s ++ [b]) = sum8 s + b := by simp [sum8]

theorem sum8_append (s t : Bytes) : sum8 (s ++ t) = sum8 s + sum8 t := by
  induction t using List.reverseRecOn with
  | nil => simp
  | append_singleton t b ih => rw [← List.append_assoc, sum8_snoc, ih, sum8_snoc, BitVec.add_assoc]

theorem sum8_cons (b : Byte) (s : Bytes) : sum8 (b :: s) = b + sum8 s := by
  rw [← List.singleton_append, sum8_append]; simp [sum8]

/-- The sum as R102 gives it, over the integers and then modulo 256. -/
theorem toNat_sum8 (s : Bytes) : (sum8 s).toNat = (s.map BitVec.toNat).sum % 256 := by
  induction s with
  | nil => rfl
  | cons b s ih => rw [sum8_cons, BitVec.toNat_add, ih]; simp

/-- `0xFF - t` is the bitwise NOT of `t` (R102). -/
theorem csum8_eq_not (s : Bytes) : csum8 s = ~~~ sum8 s := by
  unfold csum8
  exact (show ∀ t : Byte, 0xFF - t = ~~~ t by decide) _

theorem csum8_inj {s t : Bytes} : csum8 s = csum8 t ↔ sum8 s = sum8 t := by
  rw [csum8_eq_not, csum8_eq_not, BitVec.not_inj]

/-! ### One byte changed -/

/-- A sequence around the byte at an index inside it. -/
theorem split_at {s : Bytes} {j : Nat} (h : j < s.length) (b : Byte) :
    ∃ pre old post, s = pre ++ old :: post ∧ s.set j b = pre ++ b :: post ∧ s[j]? = some old ∧
      pre.length = j := by
  refine ⟨s.take j, s[j], s.drop (j + 1), ?_, ?_, ?_, ?_⟩
  · simp
  · rw [List.set_eq_take_append_cons_drop, if_pos h]
  · simp [h]
  · simp; omega

/-- The two results differ by the XOR of the two bytes (R106). -/
theorem xor8_replace (pre post : Bytes) (b b' : Byte) :
    xor8 (pre ++ b' :: post) = xor8 (pre ++ b :: post) ^^^ (b ^^^ b') := by
  rw [xor8_append, xor8_append, xor8_cons, xor8_cons]
  ext i
  simp [Bool.xor_comm, Bool.xor_left_comm]

/-- The two sums differ by the difference of the two bytes (R106). -/
theorem sum8_replace (pre post : Bytes) (b b' : Byte) :
    sum8 (pre ++ b' :: post) = sum8 (pre ++ b :: post) + (b' - b) := by
  rw [sum8_append, sum8_append, sum8_cons, sum8_cons]
  ring

/-! ### Validity -/

theorem checksumRegion_default {c : Config} {fam : Family} {variant : BitVec 2} {f : Bytes}
    (h : regionAfterLength c fam variant = false) :
    checksumRegion c fam variant f = slice f 1 (f.length - 1) := by simp [checksumRegion, h]

theorem checksumRegion_afterLength {c : Config} {fam : Family} {variant : BitVec 2} {f : Bytes}
    (h : regionAfterLength c fam variant = true) :
    checksumRegion c fam variant f = slice f 3 (f.length - 1) := by simp [checksumRegion, h]

@[simp] theorem regionAfterLength_fe (c : Config) (variant : BitVec 2) :
    regionAfterLength c .fe variant = false := by simp [regionAfterLength]

theorem regionAfterLength_sevenE (c : Config) (variant : BitVec 2) :
    regionAfterLength c .sevenE variant = true ↔ c.chk7eDigiAfterLength = true ∧ variant = 0b01 := by
  unfold regionAfterLength variantDigi
  rw [Bool.and_eq_true, Bool.and_eq_true, decide_eq_true_iff, decide_eq_true_iff]
  simp

/-- The parts of a frame of its header, its body and its checksum. -/
theorem frame_slices (h chk : Byte) (body : Bytes) :
    slice (h :: (body ++ [chk])) 1 ((h :: (body ++ [chk])).length - 1) = body ∧
      slice (h :: (body ++ [chk])) 3 ((h :: (body ++ [chk])).length - 1) = body.drop 2 ∧
      (h :: (body ++ [chk]))[(h :: (body ++ [chk])).length - 1]? = some chk := by
  refine ⟨?_, ?_, ?_⟩
  · simp [slice]
  · simp [slice]
  · simp

/-- Validity of a frame of its header, its body and its checksum (R104, R105). -/
theorem frameValid_iff (c : Config) (fam : Family) (variant : BitVec 2) (h chk : Byte) (body : Bytes) :
    frameValid c fam variant (h :: (body ++ [chk])) = true ↔
      chk = checksumOf fam (if regionAfterLength c fam variant then body.drop 2 else body) := by
  obtain ⟨h1, h3, hc⟩ := frame_slices h chk body
  unfold frameValid checksumRegion
  rw [h1, h3, hc]
  simp

end Sys2Proof.Machine
end

