-- ==== Sys2Proof/Laws/Decode.lean ====
section
/-! SUPPORT. One lemma per operand reader of Decode.lean: it reads exactly what the encoder's counterpart
writes, from the front of the bytes, and leaves the rest (spec/30_encoding.md R81 to R83). -/

namespace Sys2Proof

open Sys2Proof.Machine

theorem takeByte_iff {bs rest : Bytes} {b : Byte} : takeByte bs = some (b, rest) ↔ bs = b :: rest := by
  cases bs <;> simp [takeByte]

theorem takeBytes_iff {n : Nat} {bs d rest : Bytes} :
    takeBytes n bs = some (d, rest) ↔ d.length = n ∧ bs = d ++ rest := by
  unfold takeBytes
  constructor
  · intro h
    split at h
    · obtain ⟨rfl, rfl⟩ := by simpa using h
      simpa using by assumption
    · simp at h
  · rintro ⟨rfl, rfl⟩
    simp

theorem takeNumber_iff {n v : Nat} {bs rest : Bytes} :
    takeNumber n bs = some (v, rest) ↔ v < 256 ^ n ∧ bs = be n v ++ rest := by
  unfold takeNumber
  constructor
  · intro h
    split at h
    · simp at h
    · rename_i d r hd
      obtain ⟨hl, rfl⟩ := takeBytes_iff.1 hd
      obtain ⟨rfl, rfl⟩ := by simpa using h
      exact ⟨hl ▸ ube_lt d, by rw [be_ube_of_length hl]⟩
  · rintro ⟨hv, rfl⟩
    rw [(takeBytes_iff (d := be n v)).2 ⟨length_be n v, rfl⟩]
    simp [ube_be n v hv]

theorem takeSized_iff {n : Nat} {bs d rest : Bytes} :
    takeSized n bs = some (d, rest) ↔ d.length < 256 ^ n ∧ bs = sizedBytes n d ++ rest := by
  unfold takeSized
  constructor
  · intro h
    split at h
    · simp at h
    · rename_i m r hm
      obtain ⟨hv, rfl⟩ := takeNumber_iff.1 hm
      obtain ⟨rfl, rfl⟩ := takeBytes_iff.1 h
      exact ⟨hv, by simp [sizedBytes]⟩
  · rintro ⟨hv, rfl⟩
    rw [sizedBytes, List.append_assoc, (takeNumber_iff (v := d.length)).2 ⟨hv, rfl⟩]
    exact takeBytes_iff.2 ⟨rfl, rfl⟩

theorem contextKey_iff {f v : Byte} {k : Key} :
    contextKey f v = some k ↔ [f, v] = contextKeyBytes k := by
  unfold contextKey
  cases k <;> (split_ifs <;> simp_all [contextKeyBytes])

/-- The lengths of a context's items, as `takeSized_iff` gives them. -/
theorem contextWf_iff {ctx : Context} :
    ctx.wf = true ↔ ctx.command.length < 256 ^ 2 ∧ ctx.address.length < 256 ^ 2 ∧
      ctx.unparsed.length < 256 ^ 2 ∧ ctx.vendor.length < 256 ^ 2 ∧
      ctx.deviceType.length < 256 ^ 2 ∧ ctx.group.length < 256 ^ 2 := by
  simp [Context.wf, and_assoc]

/-- The bytes of a context after `valid = 0x01`. -/
def presentContextBytes (ctx : Context) : Bytes :=
  contextKeyBytes ctx.key ++ sizedBytes 2 ctx.command ++ sizedBytes 2 ctx.address ++
    sizedBytes 2 ctx.unparsed ++ sizedBytes 2 ctx.vendor ++ sizedBytes 2 ctx.deviceType ++
    sizedBytes 2 ctx.group

theorem takePresentContext_iff {bs rest : Bytes} {ctx : Context} :
    takePresentContext bs = some (ctx, rest) ↔ ctx.wf = true ∧ bs = presentContextBytes ctx ++ rest := by
  rw [contextWf_iff]
  unfold takePresentContext
  constructor
  · intro h
    repeat' (split at h; · simp at h)
    rename_i _ _ _ h1 _ _ _ h2 _ _ h3 _ _ _ h4 _ _ _ h5 _ _ _ h6 _ _ _ h7 _ _ _ h8 _ _ _ h9
    obtain ⟨rfl, rfl⟩ := by simpa using h
    obtain rfl := takeByte_iff.1 h1
    obtain rfl := takeByte_iff.1 h2
    have hk := contextKey_iff.1 h3
    obtain ⟨l4, rfl⟩ := takeSized_iff.1 h4
    obtain ⟨l5, rfl⟩ := takeSized_iff.1 h5
    obtain ⟨l6, rfl⟩ := takeSized_iff.1 h6
    obtain ⟨l7, rfl⟩ := takeSized_iff.1 h7
    obtain ⟨l8, rfl⟩ := takeSized_iff.1 h8
    obtain ⟨l9, rfl⟩ := takeSized_iff.1 h9
    exact ⟨⟨l4, l5, l6, l7, l8, l9⟩, by simp [presentContextBytes, ← hk]⟩
  · rintro ⟨⟨l4, l5, l6, l7, l8, l9⟩, rfl⟩
    obtain ⟨f, v, hk⟩ : ∃ f v, contextKeyBytes ctx.key = [f, v] := by
      cases ctx.key <;> exact ⟨_, _, rfl⟩
    simp only [presentContextBytes, hk, List.cons_append, List.nil_append, List.append_assoc, takeByte,
      contextKey_iff.2 hk.symm, takeSized_iff.2 ⟨l4, rfl⟩, takeSized_iff.2 ⟨l5, rfl⟩,
      takeSized_iff.2 ⟨l6, rfl⟩, takeSized_iff.2 ⟨l7, rfl⟩, takeSized_iff.2 ⟨l8, rfl⟩,
      takeSized_iff.2 ⟨l9, rfl⟩]

theorem takeContext_iff {bs rest : Bytes} {ctx : Option Context} :
    takeContext bs = some (ctx, rest) ↔ ctxWf ctx = true ∧ bs = contextBytes ctx ++ rest := by
  unfold takeContext
  constructor
  · intro h
    split at h
    · simp at h
    rename_i valid tl hv
    obtain rfl := takeByte_iff.1 hv
    split_ifs at h with h0 h1
    · obtain ⟨rfl, rfl⟩ := by simpa using h
      simp [ctxWf, contextBytes, h0]
    · split at h
      · simp at h
      rename_i c r hc
      obtain ⟨rfl, rfl⟩ := by simpa using h
      obtain ⟨hw, rfl⟩ := takePresentContext_iff.1 hc
      exact ⟨hw, by simp [contextBytes, presentContextBytes, h1]⟩
  · rintro ⟨hw, rfl⟩
    cases ctx with
    | none => simp [contextBytes, takeByte]
    | some c =>
      have hp : takePresentContext (presentContextBytes c ++ rest) = some (c, rest) :=
        takePresentContext_iff.2 ⟨hw, rfl⟩
      simp only [contextBytes, takeByte, List.cons_append]
      rw [show (contextKeyBytes c.key ++ sizedBytes 2 c.command ++ sizedBytes 2 c.address ++
        sizedBytes 2 c.unparsed ++ sizedBytes 2 c.vendor ++ sizedBytes 2 c.deviceType ++
        sizedBytes 2 c.group) = presentContextBytes c from rfl, hp]
      simp

/-! ### The operand formats -/

theorem takeFormatV_iff {f : Byte → Instr} {bs rest : Bytes} {i : Instr} :
    takeFormatV f bs = some (i, rest) ↔ ∃ v, i = f v ∧ bs = [v] ++ rest := by
  simp only [takeFormatV, Option.map_eq_some_iff, Prod.exists, takeByte_iff, Prod.mk.injEq]
  constructor
  · rintro ⟨v, r, rfl, rfl, rfl⟩; exact ⟨v, rfl, rfl⟩
  · rintro ⟨v, rfl, rfl⟩; exact ⟨v, rest, rfl, rfl, rfl⟩

theorem takeFormatS_iff {f : Bytes → Instr} {bs rest : Bytes} {i : Instr} :
    takeFormatS f bs = some (i, rest) ↔
      ∃ d, i = f d ∧ d.length < 256 ^ 4 ∧ bs = sizedBytes 4 d ++ rest := by
  simp only [takeFormatS, Option.map_eq_some_iff, Prod.exists, takeSized_iff, Prod.mk.injEq]
  constructor
  · rintro ⟨d, r, ⟨hd, rfl⟩, rfl, rfl⟩; exact ⟨d, rfl, hd, rfl⟩
  · rintro ⟨d, rfl, hd, rfl⟩; exact ⟨d, rest, ⟨hd, rfl⟩, rfl, rfl⟩

theorem takeFormatW_iff {f : Bin32 → Instr} {bs rest : Bytes} {i : Instr} :
    takeFormatW f bs = some (i, rest) ↔ ∃ w : Bin32, i = f w ∧ bs = be 4 w.toNat ++ rest := by
  simp only [takeFormatW, Option.map_eq_some_iff, Prod.exists, takeNumber_iff, Prod.mk.injEq]
  constructor
  · rintro ⟨v, r, ⟨hv, rfl⟩, rfl, rfl⟩
    exact ⟨BitVec.ofNat 32 v, rfl, by rw [BitVec.toNat_ofNat, Nat.mod_eq_of_lt (by simpa using hv)]⟩
  · rintro ⟨w, rfl, rfl⟩
    exact ⟨w.toNat, rest, ⟨by simpa using w.isLt, rfl⟩, by simp, rfl⟩

theorem takeFormatD_iff {f : Bin64 → Instr} {bs rest : Bytes} {i : Instr} :
    takeFormatD f bs = some (i, rest) ↔ ∃ d : Bin64, i = f d ∧ bs = be 8 d.toNat ++ rest := by
  simp only [takeFormatD, Option.map_eq_some_iff, Prod.exists, takeNumber_iff, Prod.mk.injEq]
  constructor
  · rintro ⟨v, r, ⟨hv, rfl⟩, rfl, rfl⟩
    exact ⟨BitVec.ofNat 64 v, rfl, by rw [BitVec.toNat_ofNat, Nat.mod_eq_of_lt (by simpa using hv)]⟩
  · rintro ⟨d, rfl, rfl⟩
    exact ⟨d.toNat, rest, ⟨by simpa using d.isLt, rfl⟩, by simp, rfl⟩

theorem takeFormatC_iff {f : Option Context → Instr} {bs rest : Bytes} {i : Instr} :
    takeFormatC f bs = some (i, rest) ↔
      ∃ c, i = f c ∧ ctxWf c = true ∧ bs = contextBytes c ++ rest := by
  simp only [takeFormatC, Option.map_eq_some_iff, Prod.exists, takeContext_iff, Prod.mk.injEq]
  constructor
  · rintro ⟨c, r, ⟨hc, rfl⟩, rfl, rfl⟩; exact ⟨c, rfl, hc, rfl⟩
  · rintro ⟨c, rfl, hc, rfl⟩; exact ⟨c, rest, ⟨hc, rfl⟩, rfl, rfl⟩

theorem takeFormatCStatus_iff {f : Option Context → Byte → Instr} {bs rest : Bytes} {i : Instr} :
    takeFormatCStatus f bs = some (i, rest) ↔
      ∃ c st, i = f c st ∧ ctxWf c = true ∧ bs = contextBytes c ++ [st] ++ rest := by
  unfold takeFormatCStatus
  constructor
  · intro h
    split at h
    · simp at h
    rename_i c r hc
    obtain ⟨hw, rfl⟩ := takeContext_iff.1 hc
    simp only [Option.map_eq_some_iff, Prod.exists, takeByte_iff, Prod.mk.injEq] at h
    obtain ⟨st, r', rfl, rfl, rfl⟩ := h
    exact ⟨c, st, rfl, hw, by simp⟩
  · rintro ⟨c, st, rfl, hw, rfl⟩
    rw [List.append_assoc, takeContext_iff.2 ⟨hw, rfl⟩]
    simp [takeByte]

theorem takeFormatCTexts_iff {f : Option Context → Bytes → Bytes → Bytes → Bytes → Bytes → Instr}
    {bs rest : Bytes} {i : Instr} :
    takeFormatCTexts f bs = some (i, rest) ↔
      ∃ c t0 t1 t2 t3 t4, i = f c t0 t1 t2 t3 t4 ∧
        (ctxWf c = true ∧ t0.length < 256 ^ 2 ∧ t1.length < 256 ^ 2 ∧ t2.length < 256 ^ 2 ∧
          t3.length < 256 ^ 2 ∧ t4.length < 256 ^ 2) ∧
        bs = contextBytes c ++ sizedBytes 2 t0 ++ sizedBytes 2 t1 ++ sizedBytes 2 t2 ++
          sizedBytes 2 t3 ++ sizedBytes 2 t4 ++ rest := by
  unfold takeFormatCTexts
  constructor
  · intro h
    repeat' (split at h; · simp at h)
    rename_i _ c _ hc _ t0 _ h0 _ t1 _ h1 _ t2 _ h2 _ t3 _ h3
    simp only [Option.map_eq_some_iff, Prod.exists, takeSized_iff, Prod.mk.injEq] at h
    obtain ⟨t4, r', ⟨l4, rfl⟩, rfl, rfl⟩ := h
    obtain ⟨hw, rfl⟩ := takeContext_iff.1 hc
    obtain ⟨l0, rfl⟩ := takeSized_iff.1 h0
    obtain ⟨l1, rfl⟩ := takeSized_iff.1 h1
    obtain ⟨l2, rfl⟩ := takeSized_iff.1 h2
    obtain ⟨l3, rfl⟩ := takeSized_iff.1 h3
    exact ⟨c, t0, t1, t2, t3, t4, rfl, ⟨hw, l0, l1, l2, l3, l4⟩, by simp⟩
  · rintro ⟨c, t0, t1, t2, t3, t4, rfl, ⟨hw, l0, l1, l2, l3, l4⟩, rfl⟩
    simp only [List.append_assoc, takeContext_iff.2 ⟨hw, rfl⟩, takeSized_iff.2 ⟨l0, rfl⟩,
      takeSized_iff.2 ⟨l1, rfl⟩, takeSized_iff.2 ⟨l2, rfl⟩, takeSized_iff.2 ⟨l3, rfl⟩,
      takeSized_iff.2 ⟨l4, rfl⟩, Option.map_some]

theorem takeFormatCCalibrate_iff {f : Option Context → Byte → Bytes → Bin64 → Instr}
    {bs rest : Bytes} {i : Instr} :
    takeFormatCCalibrate f bs = some (i, rest) ↔
      ∃ c idx u, ∃ d : Bin64, i = f c idx u d ∧ (ctxWf c = true ∧ u.length < 256 ^ 2) ∧
        bs = contextBytes c ++ [idx] ++ sizedBytes 2 u ++ be 8 d.toNat ++ rest := by
  unfold takeFormatCCalibrate
  constructor
  · intro h
    repeat' (split at h; · simp at h)
    rename_i _ c _ hc _ idx _ hi _ u _ hu
    simp only [Option.map_eq_some_iff, Prod.exists, takeNumber_iff, Prod.mk.injEq] at h
    obtain ⟨v, r', ⟨hv, rfl⟩, rfl, rfl⟩ := h
    obtain ⟨hw, rfl⟩ := takeContext_iff.1 hc
    obtain rfl := takeByte_iff.1 hi
    obtain ⟨lu, rfl⟩ := takeSized_iff.1 hu
    exact ⟨c, idx, u, BitVec.ofNat 64 v, rfl, ⟨hw, lu⟩, by
      rw [BitVec.toNat_ofNat, Nat.mod_eq_of_lt (by simpa using hv)]; simp⟩
  · rintro ⟨c, idx, u, d, rfl, ⟨hw, lu⟩, rfl⟩
    have hd : takeNumber 8 (be 8 d.toNat ++ rest) = some (d.toNat, rest) :=
      takeNumber_iff.2 ⟨by simpa using d.isLt, rfl⟩
    simp only [List.append_assoc, takeContext_iff.2 ⟨hw, rfl⟩, takeByte, List.cons_append,
      List.nil_append, takeSized_iff.2 ⟨lu, rfl⟩, hd, Option.map_some, BitVec.ofNat_toNat,
      BitVec.setWidth_eq]

/-- What a request that decodes holds: its opcode's reader takes all of its operand bytes. -/
theorem decode_eq_ok {bs : Bytes} {i : Instr} :
    decode bs = .ok i ↔
      ∃ op tl reader, bs = op :: tl ∧ operandReader op = some reader ∧ reader tl = some (i, []) := by
  constructor
  · intro h
    cases bs with
    | nil => simp [decode] at h
    | cons op tl =>
      simp only [decode] at h
      split at h
      · simp at h
      rename_i reader hr
      split at h
      · rename_i j hj
        exact ⟨op, tl, reader, rfl, hr, by simpa using (by simpa using h : j = i) ▸ hj⟩
      · simp at h
      · simp at h
  · rintro ⟨op, tl, reader, rfl, hr, hi⟩
    simp [decode, hr, hi]

end Sys2Proof
end

