-- ==== Sys2Proof/Laws/State.lean ====
section
/-! SUPPORT. What each update of the state leaves in each field, and how the register fields read after
a write: cited instead of unfolding the updates of Machine/Ops.lean and Machine/Port.lean. -/

namespace Sys2Proof.Machine

variable (s : State) (status : Status) (results : Results)

/-! ### `respond` -/

@[simp] theorem respond_config : (respond status results s).config = s.config := rfl
@[simp] theorem respond_carry : (respond status results s).carry = s.carry := rfl
@[simp] theorem respond_session : (respond status results s).session = s.session := rfl
@[simp] theorem respond_cfg : (respond status results s).cfg = s.cfg := rfl
@[simp] theorem respond_inbox : (respond status results s).inbox = s.inbox := rfl
@[simp] theorem respond_response : (respond status results s).response = some ⟨status, results⟩ := rfl
@[simp] theorem respond_draws : (respond status results s).draws = s.draws := rfl

/-! ### `answer` and `raise` -/

@[simp] theorem answer_config : (answer results s).config = s.config := rfl
@[simp] theorem answer_carry : (answer results s).carry = s.carry := rfl
@[simp] theorem answer_session : (answer results s).session = s.session := rfl
@[simp] theorem answer_cfg : (answer results s).cfg = s.cfg := rfl
@[simp] theorem answer_inbox : (answer results s).inbox = s.inbox := rfl
@[simp] theorem answer_response : (answer results s).response = some ⟨.ok, results⟩ := rfl
@[simp] theorem answer_draws : (answer results s).draws = s.draws := rfl

@[simp] theorem raise_config : (raise status results s).config = s.config := rfl
@[simp] theorem raise_carry : (raise status results s).carry = s.carry := rfl
@[simp] theorem raise_session : (raise status results s).session = s.session := rfl
@[simp] theorem raise_cfg : (raise status results s).cfg = s.cfg := rfl
@[simp] theorem raise_inbox : (raise status results s).inbox = s.inbox := rfl
@[simp] theorem raise_response : (raise status results s).response = some ⟨status, results⟩ := rfl
@[simp] theorem raise_draws : (raise status results s).draws = s.draws := rfl

/-! ### `writeVariant` and `writeFloatMode` -/

variable (v : BitVec 2) (b : BitVec 1)

@[simp] theorem writeVariant_config : (writeVariant v s).config = s.config := rfl
@[simp] theorem writeVariant_carry : (writeVariant v s).carry = s.carry := rfl
@[simp] theorem writeVariant_session :
    (writeVariant v s).session = (s.session &&& 0xFC) ||| v.setWidth 8 := rfl
@[simp] theorem writeVariant_cfg : (writeVariant v s).cfg = s.cfg := rfl
@[simp] theorem writeVariant_inbox : (writeVariant v s).inbox = s.inbox := rfl
@[simp] theorem writeVariant_response : (writeVariant v s).response = s.response := rfl
@[simp] theorem writeVariant_draws : (writeVariant v s).draws = s.draws := rfl

@[simp] theorem writeFloatMode_config : (writeFloatMode b s).config = s.config := rfl
@[simp] theorem writeFloatMode_carry : (writeFloatMode b s).carry = s.carry := rfl
@[simp] theorem writeFloatMode_session : (writeFloatMode b s).session = s.session := rfl
@[simp] theorem writeFloatMode_cfg :
    (writeFloatMode b s).cfg = (s.cfg &&& 0xFE) ||| b.setWidth 8 := rfl
@[simp] theorem writeFloatMode_inbox : (writeFloatMode b s).inbox = s.inbox := rfl
@[simp] theorem writeFloatMode_response : (writeFloatMode b s).response = s.response := rfl
@[simp] theorem writeFloatMode_draws : (writeFloatMode b s).draws = s.draws := rfl

/-- A written VARIANT reads back (spec/10_state.md R22). -/
theorem sessionVariant_writeVariant : sessionVariant (writeVariant v s) = v := by
  apply BitVec.eq_of_getLsbD_eq
  intro i hi
  have h : i = 0 ∨ i = 1 := by omega
  rcases h with rfl | rfl <;> simp [sessionVariant]

/-- A written FLOAT_MODE reads back (spec/10_state.md R24). -/
theorem floatMode_writeFloatMode :
    floatMode (writeFloatMode b s) = if b = 0 then .ieee else .legacy := by
  have h : (writeFloatMode b s).cfg.extractLsb' 0 1 = b := by
    apply BitVec.eq_of_getLsbD_eq
    intro i hi
    have h : i = 0 := by omega
    subst h
    simp
  simp only [floatMode, h]

/-! ### The port -/

theorem takeRequest_nil (h : s.inbox = []) : takeRequest s = none := by simp [takeRequest, h]

theorem takeRequest_cons (req : Bytes) (rest : List Bytes) (h : s.inbox = req :: rest) :
    takeRequest s = some (req, { s with inbox := rest }) := by simp [takeRequest, h]

@[simp] theorem placeRequest_inbox (req : Bytes) : (placeRequest req s).inbox = req :: s.inbox := rfl
@[simp] theorem takeRequest_placeRequest (req : Bytes) :
    takeRequest (placeRequest req s) = some (req, s) := rfl

end Sys2Proof.Machine
end

