-- ==== Sys2Proof/Laws/Decoder.lean ====
section
/-! SUPPORT. What DECODE answers, said once: the ways its record can end (spec/44_decoder.md R171), the
fields each part of it sets, and that nothing is drawn in IEEE mode. -/

namespace Sys2Proof.Machine

/-! ### Marking a flag leaves every other field -/

section Mark

variable (out : DecodedFrame) (flag : BitVec 8)

@[simp] theorem mark_flags : (out.mark flag).flags = out.flags ||| flag := rfl
@[simp] theorem mark_family : (out.mark flag).family = out.family := rfl
@[simp] theorem mark_key : (out.mark flag).key = out.key := rfl
@[simp] theorem mark_header : (out.mark flag).header = out.header := rfl
@[simp] theorem mark_lengthField : (out.mark flag).lengthField = out.lengthField := rfl
@[simp] theorem mark_lengthValue : (out.mark flag).lengthValue = out.lengthValue := rfl
@[simp] theorem mark_command : (out.mark flag).command = out.command := rfl
@[simp] theorem mark_address : (out.mark flag).address = out.address := rfl
@[simp] theorem mark_unparsed : (out.mark flag).unparsed = out.unparsed := rfl
@[simp] theorem mark_content : (out.mark flag).content = out.content := rfl
@[simp] theorem mark_checksum : (out.mark flag).checksum = out.checksum := rfl
@[simp] theorem mark_vendor : (out.mark flag).vendor = out.vendor := rfl
@[simp] theorem mark_deviceType : (out.mark flag).deviceType = out.deviceType := rfl
@[simp] theorem mark_group : (out.mark flag).group = out.group := rfl
@[simp] theorem mark_functionCode : (out.mark flag).functionCode = out.functionCode := rfl
@[simp] theorem mark_payload : (out.mark flag).payload = out.payload := rfl
@[simp] theorem mark_fields : (out.mark flag).fields = out.fields := rfl

end Mark

/-! ### The fixed parts -/

/-- The fixed parts of a frame, in its two cases: the length field lies before the last byte, or not. -/
theorem decodeFixed_cases (fam : Family) (fr : Bytes) :
    (1 + lengthWidth fam ≤ fr.length - 1 ∧
      decodeFixed fam fr =
        { family := some fam
          header := some (marker fam)
          lengthField := some (slice fr 1 (1 + lengthWidth fam))
          lengthValue := some (ube (slice fr 1 (1 + lengthWidth fam)))
          checksum := fr[fr.length - 1]?
          flags := if fr.length ≠ ube (slice fr 1 (1 + lengthWidth fam)) + fixedOffset fam then 0x20
            else 0 }) ∨
    (fr.length - 1 < 1 + lengthWidth fam ∧
      decodeFixed fam fr =
        { family := some fam
          header := some (marker fam)
          checksum := if 2 ≤ fr.length then fr[fr.length - 1]? else none }) := by
  unfold decodeFixed
  by_cases h : 1 + lengthWidth fam ≤ fr.length - 1
  · have h2 : 2 ≤ fr.length := by omega
    refine .inl ⟨h, ?_⟩
    simp only [if_pos h, if_pos h2]
    split <;> simp [DecodedFrame.mark, flagLengthMismatch]
  · exact .inr ⟨by omega, by simp only [if_neg h]⟩

/-- The flags of the fixed parts: LENGTH_MISMATCH or nothing (R181). -/
theorem decodeFixed_flags (fam : Family) (fr : Bytes) :
    ((decodeFixed fam fr).flags = 0 ∨ (decodeFixed fam fr).flags = 0x20) ∧
      ((decodeFixed fam fr).flags = 0x20 ↔
        ∃ L, (decodeFixed fam fr).lengthValue = some L ∧ fr.length ≠ L + fixedOffset fam) := by
  rcases decodeFixed_cases fam fr with ⟨-, h⟩ | ⟨-, h⟩ <;> rw [h]
  · dsimp only
    split_ifs with hne
    · exact ⟨.inr rfl, ⟨fun _ => ⟨_, rfl, hne⟩, fun _ => rfl⟩⟩
    · refine ⟨.inl rfl, ⟨fun h0 => absurd h0 (by decide), ?_⟩⟩
      rintro ⟨L, hL, hne'⟩
      obtain rfl := Option.some.inj hL
      exact absurd hne' hne
  · refine ⟨.inl rfl, ⟨fun h0 => absurd (show (0 : BitVec 8) = 0x20 from h0) (by decide), ?_⟩⟩
    rintro ⟨L, hL, -⟩
    cases hL

theorem decodeFixed_checksum (fam : Family) (fr : Bytes) :
    (decodeFixed fam fr).checksum = if 2 ≤ fr.length then fr[fr.length - 1]? else none := by
  rcases decodeFixed_cases fam fr with ⟨h', h⟩ | ⟨-, h⟩ <;> rw [h]
  exact (if_pos (by omega)).symm

section Fixed

variable (fam : Family) (fr : Bytes)

@[simp] theorem decodeFixed_family : (decodeFixed fam fr).family = some fam := by
  rcases decodeFixed_cases fam fr with ⟨-, h⟩ | ⟨-, h⟩ <;> rw [h]
@[simp] theorem decodeFixed_header : (decodeFixed fam fr).header = some (marker fam) := by
  rcases decodeFixed_cases fam fr with ⟨-, h⟩ | ⟨-, h⟩ <;> rw [h]
@[simp] theorem decodeFixed_key : (decodeFixed fam fr).key = none := by
  rcases decodeFixed_cases fam fr with ⟨-, h⟩ | ⟨-, h⟩ <;> rw [h]
@[simp] theorem decodeFixed_command : (decodeFixed fam fr).command = none := by
  rcases decodeFixed_cases fam fr with ⟨-, h⟩ | ⟨-, h⟩ <;> rw [h]
@[simp] theorem decodeFixed_address : (decodeFixed fam fr).address = none := by
  rcases decodeFixed_cases fam fr with ⟨-, h⟩ | ⟨-, h⟩ <;> rw [h]
@[simp] theorem decodeFixed_unparsed : (decodeFixed fam fr).unparsed = none := by
  rcases decodeFixed_cases fam fr with ⟨-, h⟩ | ⟨-, h⟩ <;> rw [h]
@[simp] theorem decodeFixed_content : (decodeFixed fam fr).content = none := by
  rcases decodeFixed_cases fam fr with ⟨-, h⟩ | ⟨-, h⟩ <;> rw [h]
@[simp] theorem decodeFixed_vendor : (decodeFixed fam fr).vendor = none := by
  rcases decodeFixed_cases fam fr with ⟨-, h⟩ | ⟨-, h⟩ <;> rw [h]
@[simp] theorem decodeFixed_deviceType : (decodeFixed fam fr).deviceType = none := by
  rcases decodeFixed_cases fam fr with ⟨-, h⟩ | ⟨-, h⟩ <;> rw [h]
@[simp] theorem decodeFixed_group : (decodeFixed fam fr).group = none := by
  rcases decodeFixed_cases fam fr with ⟨-, h⟩ | ⟨-, h⟩ <;> rw [h]
@[simp] theorem decodeFixed_functionCode : (decodeFixed fam fr).functionCode = none := by
  rcases decodeFixed_cases fam fr with ⟨-, h⟩ | ⟨-, h⟩ <;> rw [h]
@[simp] theorem decodeFixed_payload : (decodeFixed fam fr).payload = none := by
  rcases decodeFixed_cases fam fr with ⟨-, h⟩ | ⟨-, h⟩ <;> rw [h]
@[simp] theorem decodeFixed_fields : (decodeFixed fam fr).fields = [] := by
  rcases decodeFixed_cases fam fr with ⟨-, h⟩ | ⟨-, h⟩ <;> rw [h]

end Fixed

/-! ### The ways the record can end -/

theorem decodeFrame_notAFrame {fr : Bytes} (h : fr.head?.bind markerFamily = none) (c : Config)
    (flag : BitVec 2) (mode : FloatMode) (draws : Nat) :
    decodeFrame c flag mode fr draws = (({} : DecodedFrame).mark flagNotAFrame, draws) := by
  simp [decodeFrame, h]

theorem decodeFrame_marker (fam : Family) (tl : Bytes) (c : Config) (flag : BitVec 2)
    (mode : FloatMode) (draws : Nat) :
    decodeFrame c flag mode (marker fam :: tl) draws =
      decodeFamily c flag mode fam (marker fam :: tl) draws := by
  simp [decodeFrame]

/-- DECODE of an input that begins with a marker: no key, no content, or content (R171). -/
theorem decodeFamily_cases (c : Config) (flag : BitVec 2) (mode : FloatMode) (fam : Family) (fr : Bytes)
    (draws : Nat) :
    (frameKey c flag fam fr.length = none ∧
      decodeFamily c flag mode fam fr draws = ((decodeFixed fam fr).mark flagVariantUnresolved, draws)) ∨
    ∃ k, frameKey c flag fam fr.length = some k ∧
      ((fr.length - 1 < contentStart c k ∧
        decodeFamily c flag mode fam fr draws =
          ((decodeHeader c k fr (decodeFixed fam fr)).mark flagHeaderTruncated, draws)) ∨
      (contentStart c k ≤ fr.length - 1 ∧
        decodeFamily c flag mode fam fr draws =
          decodeContent c mode k (slice fr (contentStart c k) (fr.length - 1))
            (decodeHeader c k fr (decodeFixed fam fr)) draws)) := by
  unfold decodeFamily
  cases h : frameKey c flag fam fr.length with
  | none => exact .inl ⟨rfl, rfl⟩
  | some k =>
    refine .inr ⟨k, rfl, ?_⟩
    by_cases h' : fr.length - 1 < contentStart c k
    · exact .inl ⟨h', by simp only [if_pos h']⟩
    · exact .inr ⟨by omega, by simp only [if_neg h']⟩

/-- DECODE of the content: no function code, an unknown one, or the fields of its entry (R177 to R179). -/
theorem decodeContent_cases (c : Config) (mode : FloatMode) (k : Key) (content : Bytes)
    (out : DecodedFrame) (draws : Nat) :
    (content.length < functionCodeOffset c k + 2 ∧
      decodeContent c mode k content out draws =
        ((decodePrefix c k content out).mark flagFcAbsent, draws)) ∨
    ∃ fc, functionCodeOffset c k + 2 ≤ content.length ∧
      fc = BitVec.ofNat 16 (ube (slice content (functionCodeOffset c k) (functionCodeOffset c k + 2))) ∧
      (decodePrefix c k content out).functionCode = some fc ∧
      ((contentTable c k fc = none ∧
        decodeContent c mode k content out draws =
          ((decodePrefix c k content out).mark flagUnrecognizedFc, draws)) ∨
      ∃ specs, contentTable c k fc = some specs ∧
        decodeContent c mode k content out draws =
          ({ decodePrefix c k content out with fields := (extractFields c mode content specs draws).1 },
            (extractFields c mode content specs draws).2)) := by
  by_cases h : functionCodeOffset c k + 2 ≤ content.length
  · right
    have hfc : (decodePrefix c k content out).functionCode =
        some (BitVec.ofNat 16
          (ube (slice content (functionCodeOffset c k) (functionCodeOffset c k + 2)))) := by
      simp only [decodePrefix, sliceWithin, if_pos h, Option.map_some]
    refine ⟨_, h, rfl, hfc, ?_⟩
    unfold decodeContent
    simp only [hfc]
    cases ht : contentTable c k _ with
    | none => exact .inl ⟨rfl, rfl⟩
    | some specs => exact .inr ⟨specs, rfl, rfl⟩
  · refine .inl ⟨by omega, ?_⟩
    have hfc : (decodePrefix c k content out).functionCode = none := by
      simp only [decodePrefix, sliceWithin, if_neg h, Option.map_none]
    unfold decodeContent
    simp only [hfc]

/-- The key of a frame belongs to its family. -/
theorem keyFamily_of_frameKey {c : Config} {flag : BitVec 2} {fam : Family} {T : Nat} {k : Key}
    (h : frameKey c flag fam T = some k) : keyFamily k = fam := by
  cases fam with
  | fe => obtain rfl := Option.some.inj h; rfl
  | sevenE =>
    obtain ⟨v, -, rfl⟩ := Option.map_eq_some_iff.1 h
    cases v <;> rfl

/-! ### Fields -/

/-- A field in its two cases (R179). -/
theorem extractField_cases (c : Config) (mode : FloatMode) (content : Bytes) (spec : FieldSpec)
    (draws : Nat) :
    (content.length < spec.off + fieldWidth spec.format ∧
      extractField c mode content spec draws =
        (⟨spec.name, fieldKind spec.format, .truncated, none, none⟩, draws)) ∨
    ∃ raw, spec.off + fieldWidth spec.format ≤ content.length ∧
      raw = slice content spec.off (spec.off + fieldWidth spec.format) ∧
      extractField c mode content spec draws =
        (⟨spec.name, fieldKind spec.format, .ok, some raw,
          some (fieldValue c mode spec.format raw draws).1⟩,
          (fieldValue c mode spec.format raw draws).2) := by
  unfold extractField sliceWithin
  by_cases h : spec.off + fieldWidth spec.format ≤ content.length
  · exact .inr ⟨_, h, rfl, by simp only [if_pos h]⟩
  · exact .inl ⟨by omega, by simp only [if_neg h]⟩

/-- Fields are read one by one, in the table's order. -/
theorem extractFields_forall₂ (c : Config) (mode : FloatMode) (content : Bytes) (specs : List FieldSpec)
    (draws : Nat) :
    List.Forall₂ (fun spec field => ∃ n, field = (extractField c mode content spec n).1) specs
      (extractFields c mode content specs draws).1 := by
  induction specs generalizing draws with
  | nil => exact .nil
  | cons spec specs ih => exact .cons ⟨draws, rfl⟩ (ih _)

/-! ### The record as a whole -/

/-- The ways `out` can be the record of an input that begins with the marker of `fam`, once its key is
known. -/
inductive KeyedRecord (c : Config) (mode : FloatMode) (fam : Family) (k : Key) (fr : Bytes) :
    DecodedFrame → Prop
  /-- The last byte comes before the content (R175). -/
  | headerTruncated (short : fr.length - 1 < contentStart c k) :
      KeyedRecord c mode fam k fr ((decodeHeader c k fr (decodeFixed fam fr)).mark flagHeaderTruncated)
  /-- The content is too short for a function code (R177). -/
  | fcAbsent (content : Bytes) (long : contentStart c k ≤ fr.length - 1)
      (hcontent : content = slice fr (contentStart c k) (fr.length - 1))
      (short : content.length < functionCodeOffset c k + 2) :
      KeyedRecord c mode fam k fr
        ((decodePrefix c k content (decodeHeader c k fr (decodeFixed fam fr))).mark flagFcAbsent)
  /-- The table has no entry for the function code (R178). -/
  | unrecognizedFc (content : Bytes) (fc : BitVec 16) (long : contentStart c k ≤ fr.length - 1)
      (hcontent : content = slice fr (contentStart c k) (fr.length - 1))
      (fits : functionCodeOffset c k + 2 ≤ content.length)
      (hfc : fc = BitVec.ofNat 16
        (ube (slice content (functionCodeOffset c k) (functionCodeOffset c k + 2))))
      (absent : contentTable c k fc = none) :
      KeyedRecord c mode fam k fr
        ((decodePrefix c k content (decodeHeader c k fr (decodeFixed fam fr))).mark flagUnrecognizedFc)
  /-- Each field of the entry is read (R179). -/
  | fields (content : Bytes) (fc : BitVec 16) (specs : List FieldSpec) (fields : List DecodedField)
      (long : contentStart c k ≤ fr.length - 1)
      (hcontent : content = slice fr (contentStart c k) (fr.length - 1))
      (fits : functionCodeOffset c k + 2 ≤ content.length)
      (hfc : fc = BitVec.ofNat 16
        (ube (slice content (functionCodeOffset c k) (functionCodeOffset c k + 2))))
      (entry : contentTable c k fc = some specs)
      (each : List.Forall₂ (fun spec field => ∃ n, field = (extractField c mode content spec n).1)
        specs fields) :
      KeyedRecord c mode fam k fr
        { decodePrefix c k content (decodeHeader c k fr (decodeFixed fam fr)) with fields := fields }

/-- Every record DECODE answers (R171). -/
theorem decodeNow_cases (fr : Bytes) (s : State) :
    (fr.head?.bind markerFamily = none ∧ (decodeNow fr s).1 = ({} : DecodedFrame).mark flagNotAFrame) ∨
    ∃ fam tl, fr = marker fam :: tl ∧
      ((frameKey s.config (sessionVariant s) fam fr.length = none ∧
          (decodeNow fr s).1 = (decodeFixed fam fr).mark flagVariantUnresolved) ∨
        ∃ k, frameKey s.config (sessionVariant s) fam fr.length = some k ∧ keyFamily k = fam ∧
          KeyedRecord s.config (floatMode s) fam k fr (decodeNow fr s).1) := by
  cases h : fr.head?.bind markerFamily with
  | none => exact .inl ⟨rfl, by rw [decodeNow, decodeFrame_notAFrame h]⟩
  | some fam =>
    right
    cases fr with
    | nil => simp at h
    | cons b tl =>
      obtain rfl := markerFamily_eq_some.1 (show markerFamily b = some fam by simpa using h)
      refine ⟨fam, tl, rfl, ?_⟩
      rw [decodeNow, decodeFrame_marker]
      rcases decodeFamily_cases s.config (sessionVariant s) (floatMode s) fam (marker fam :: tl) s.draws
        with ⟨hk, h'⟩ | ⟨k, hk, ⟨hl, h'⟩ | ⟨hl, h'⟩⟩
      · exact .inl ⟨hk, by rw [h']⟩
      · exact .inr ⟨k, hk, keyFamily_of_frameKey hk, by rw [h']; exact .headerTruncated hl⟩
      · refine .inr ⟨k, hk, keyFamily_of_frameKey hk, ?_⟩
        rw [h']
        rcases decodeContent_cases s.config (floatMode s) k
          (slice (marker fam :: tl) (contentStart s.config k) ((marker fam :: tl).length - 1))
          (decodeHeader s.config k (marker fam :: tl) (decodeFixed fam (marker fam :: tl))) s.draws
          with ⟨hs, h''⟩ | ⟨fc, hs, hfc, -, ⟨ht, h''⟩ | ⟨specs, ht, h''⟩⟩ <;> rw [h'']
        · exact .fcAbsent _ hl rfl hs
        · exact .unrecognizedFc _ fc hl rfl hs hfc ht
        · exact .fields _ fc specs _ hl rfl hs hfc ht (extractFields_forall₂ _ _ _ _ _)

/-! ### Nothing is drawn in IEEE mode -/

theorem f32dec_ieee_draws (c : Config) (w : Bin32) (draws : Nat) :
    f32dec c .ieee w draws = (f32decIeee w, draws) := rfl

theorem extractField_ieee_draws (c : Config) (content : Bytes) (spec : FieldSpec) (draws : Nat) :
    (extractField c .ieee content spec draws).2 = draws := by
  rcases extractField_cases c .ieee content spec draws with ⟨-, h⟩ | ⟨raw, -, -, h⟩
  · rw [h]
  · rw [h]
    unfold fieldValue
    cases spec.format <;> rfl

theorem extractFields_ieee_draws (c : Config) (content : Bytes) (specs : List FieldSpec) (draws : Nat) :
    (extractFields c .ieee content specs draws).2 = draws := by
  induction specs generalizing draws with
  | nil => rfl
  | cons spec specs ih =>
    simp only [extractFields]
    rw [ih, extractField_ieee_draws]

theorem decodeContent_ieee_draws (c : Config) (k : Key) (content : Bytes) (out : DecodedFrame)
    (draws : Nat) : (decodeContent c .ieee k content out draws).2 = draws := by
  rcases decodeContent_cases c .ieee k content out draws with
    ⟨-, h⟩ | ⟨fc, -, -, -, ⟨-, h⟩ | ⟨specs, -, h⟩⟩ <;> rw [h]
  exact extractFields_ieee_draws c content specs draws

theorem decodeFrame_ieee_draws (c : Config) (flag : BitVec 2) (fr : Bytes) (draws : Nat) :
    (decodeFrame c flag .ieee fr draws).2 = draws := by
  unfold decodeFrame
  cases fr.head?.bind markerFamily with
  | none => rfl
  | some fam =>
    rcases decodeFamily_cases c flag .ieee fam fr draws with
      ⟨-, h⟩ | ⟨k, -, ⟨-, h⟩ | ⟨-, h⟩⟩ <;> simp only [h]
    exact decodeContent_ieee_draws c k _ _ draws

end Sys2Proof.Machine
end

