-- ==== Sys2Proof/Laws/Encoder.lean ====
section
/-! SUPPORT. What a BUILD operation answers, said once: the four outcomes of the skeleton
(spec/45_encoder.md R205) and their responses (spec/60_exceptions.md R241). -/

namespace Sys2Proof.Machine

variable (s : State)

/-! ### The response of each outcome -/

@[simp] theorem buildResponse_ok (f : Bytes) : buildResponse (.ok f) s = answer (.frame f) s := rfl
@[simp] theorem buildResponse_precondition :
    buildResponse (.error .precondition) s = raise .errPrecondition .none s := rfl
@[simp] theorem buildResponse_operand :
    buildResponse (.error .operand) s = raise .errOperand .none s := rfl
@[simp] theorem buildResponse_length (L : Nat) :
    buildResponse (.error (.length L)) s = raise .errLength (.infoLength L) s := rfl

/-- A BUILD operation changes nothing but the response. -/
theorem buildResponse_eq_respond (r : Except BuildError Bytes) :
    ∃ status results, buildResponse r s = respond status results s := by
  rcases r with (_ | _ | L) | f <;> exact ⟨_, _, rfl⟩

@[simp] theorem buildResponse_config (r : Except BuildError Bytes) :
    (buildResponse r s).config = s.config := by rcases r with (_ | _ | L) | f <;> rfl
@[simp] theorem buildResponse_carry (r : Except BuildError Bytes) :
    (buildResponse r s).carry = s.carry := by rcases r with (_ | _ | L) | f <;> rfl
@[simp] theorem buildResponse_session (r : Except BuildError Bytes) :
    (buildResponse r s).session = s.session := by rcases r with (_ | _ | L) | f <;> rfl
@[simp] theorem buildResponse_cfg (r : Except BuildError Bytes) :
    (buildResponse r s).cfg = s.cfg := by rcases r with (_ | _ | L) | f <;> rfl
@[simp] theorem buildResponse_inbox (r : Except BuildError Bytes) :
    (buildResponse r s).inbox = s.inbox := by rcases r with (_ | _ | L) | f <;> rfl
@[simp] theorem buildResponse_draws (r : Except BuildError Bytes) :
    (buildResponse r s).draws = s.draws := by rcases r with (_ | _ | L) | f <;> rfl

/-- The response does not depend on the state that carries it. -/
theorem buildResponse_response (r : Except BuildError Bytes) (s' : State) :
    (buildResponse r s).response = (buildResponse r s').response := by
  rcases r with (_ | _ | L) | f <;> rfl

/-! ### The outcomes of the skeleton -/

variable {c : Config} {kind : BuildKind} {ctx : Context} {payload : Key → Option Bytes}

/-- The width checks as the six equations of R204. -/
theorem widthsMatch_iff :
    widthsMatch c kind ctx = true ↔
      (txCommand c ctx.key kind ctx).length = commandWidth c ctx.key ∧
      ctx.address.length = addressWidth c ctx.key ∧
      (txUnparsed c ctx.key kind ctx).length = unparsedWidth c ctx.key ∧
      ctx.vendor.length = vendorWidth c ctx.key ∧
      ctx.deviceType.length = deviceTypeWidth c ctx.key ∧
      ctx.group.length = groupWidth c ctx.key := by
  simp [widthsMatch, and_assoc]

@[simp] theorem build_none : build c kind none payload = .error .precondition := rfl

theorem build_of_not_widthsMatch (h : widthsMatch c kind ctx = false) :
    build c kind (some ctx) payload = .error .operand := by
  simp [build, h]

theorem build_of_payload_none (h : payload ctx.key = none) :
    build c kind (some ctx) payload = .error .operand := by
  simp only [build, h]
  split <;> rfl

theorem build_of_fits (h : widthsMatch c kind ctx = true) {p : Bytes} (hp : payload ctx.key = some p) :
    build c kind (some ctx) payload = buildFrame c kind ctx p := by
  simp [build, h, hp]

/-- Every way `build` can end, with what brought it there. -/
theorem build_cases (ctx : Option Context) :
    (ctx = none ∧ build c kind ctx payload = .error .precondition) ∨
    (∃ x, ctx = some x ∧ (widthsMatch c kind x = false ∨ payload x.key = none) ∧
      build c kind ctx payload = .error .operand) ∨
    (∃ x p, ctx = some x ∧ widthsMatch c kind x = true ∧ payload x.key = some p ∧
      build c kind ctx payload = buildFrame c kind x p) := by
  cases ctx with
  | none => exact .inl ⟨rfl, rfl⟩
  | some x =>
    cases hw : widthsMatch c kind x with
    | false => exact .inr (.inl ⟨x, rfl, .inl hw, build_of_not_widthsMatch hw⟩)
    | true =>
      cases hp : payload x.key with
      | none => exact .inr (.inl ⟨x, rfl, .inr hp, build_of_payload_none hp⟩)
      | some p => exact .inr (.inr ⟨x, p, rfl, hw, hp, build_of_fits hw hp⟩)

/-- `L` of a built frame, without the subtraction (R207). -/
theorem buildLength_eq (k : Key) (content : Bytes) :
    buildLength c k content =
      (match k with
        | .fe => 0
        | .digi => commandWidth c .digi
        | .lora => 0) + addressWidth c k + unparsedWidth c k + content.length := by
  cases k <;> simp only [buildLength, keyFamily, lengthWidth, fixedOffset, commandWidth] <;> omega

theorem buildFrame_cases (p : Bytes) :
    (256 ^ lengthWidth (keyFamily ctx.key) ≤ buildLength c ctx.key (buildContent c kind ctx p) ∧
      buildFrame c kind ctx p =
        .error (.length (buildLength c ctx.key (buildContent c kind ctx p)))) ∨
    (buildLength c ctx.key (buildContent c kind ctx p) < 256 ^ lengthWidth (keyFamily ctx.key) ∧
      buildFrame c kind ctx p =
        .ok (marker (keyFamily ctx.key) ::
          (buildBody c kind ctx (buildLength c ctx.key (buildContent c kind ctx p))
              (buildContent c kind ctx p) ++
            [buildChecksum c ctx.key
              (buildBody c kind ctx (buildLength c ctx.key (buildContent c kind ctx p))
                (buildContent c kind ctx p))]))) := by
  have hpos : 0 < 256 ^ lengthWidth (keyFamily ctx.key) := by positivity
  by_cases h : 256 ^ lengthWidth (keyFamily ctx.key) - 1 < buildLength c ctx.key (buildContent c kind ctx p)
  · exact .inl ⟨by omega, by simp [buildFrame, h]⟩
  · exact .inr ⟨by omega, by simp [buildFrame, h]⟩

end Sys2Proof.Machine
end

