-- ==== Sys2Proof/Laws/FloatCodec.lean ====
section
/-! SUPPORT. The fields of packed patterns as numbers, and what the codec's integer functions compute
(spec/42_float_codec.md R122, R125, R127): rounding a quotient, the binary logarithm of a ratio, and the
decimal-free form of each pattern. -/

namespace Sys2Proof.Machine

/-! ### binary32 patterns as numbers -/

theorem sign32_toNat (w : Bin32) : (sign32 w).toNat = w.toNat / 2 ^ 31 := by
  simp only [sign32, BitVec.extractLsb'_toNat, Nat.shiftRight_eq_div_pow]
  have := w.isLt
  omega

theorem exponent32_toNat (w : Bin32) : (exponent32 w).toNat = w.toNat / 2 ^ 23 % 256 := by
  simp [exponent32, BitVec.extractLsb'_toNat, Nat.shiftRight_eq_div_pow]

theorem fraction32_toNat (w : Bin32) : (fraction32 w).toNat = w.toNat % 2 ^ 23 := by
  simp [fraction32, BitVec.extractLsb'_toNat]

theorem pack32_toNat (s : BitVec 1) {e f : Nat} (he : e < 2 ^ 8) (hf : f < 2 ^ 23) :
    (pack32 s e f).toNat = s.toNat * 2 ^ 31 + e * 2 ^ 23 + f := by
  unfold pack32
  rw [BitVec.toNat_append, BitVec.toNat_append, BitVec.toNat_ofNat, BitVec.toNat_ofNat,
    Nat.mod_eq_of_lt he, Nat.mod_eq_of_lt hf, ← Nat.shiftLeft_add_eq_or_of_lt he,
    ← Nat.shiftLeft_add_eq_or_of_lt hf]
  simp only [Nat.shiftLeft_eq]
  omega

@[simp] theorem sign32_pack32 (s : BitVec 1) (e f : Nat) : sign32 (pack32 s e f) = s := by
  unfold sign32 pack32
  rw [BitVec.append_assoc]
  apply BitVec.eq_of_getLsbD_eq
  intro i hi
  obtain rfl : i = 0 := by omega
  rw [BitVec.getLsbD_extractLsb', BitVec.getLsbD_cast, BitVec.getLsbD_append]
  simp

theorem exponent32_pack32 (s : BitVec 1) {e f : Nat} (he : e < 2 ^ 8) (hf : f < 2 ^ 23) :
    (exponent32 (pack32 s e f)).toNat = e := by
  rw [exponent32_toNat, pack32_toNat s he hf]
  have := s.isLt
  omega

theorem fraction32_pack32 (s : BitVec 1) {e f : Nat} (he : e < 2 ^ 8) (hf : f < 2 ^ 23) :
    (fraction32 (pack32 s e f)).toNat = f := by
  rw [fraction32_toNat, pack32_toNat s he hf]
  omega

/-- A pattern is its fields. -/
theorem pack32_fields (w : Bin32) :
    pack32 (sign32 w) (exponent32 w).toNat (fraction32 w).toNat = w := by
  apply BitVec.eq_of_toNat_eq
  rw [pack32_toNat _ (exponent32 w).isLt (fraction32 w).isLt, sign32_toNat, exponent32_toNat,
    fraction32_toNat]
  omega

/-! ### binary64 patterns as numbers -/

theorem sign64_toNat (d : Bin64) : (sign64 d).toNat = d.toNat / 2 ^ 63 := by
  simp only [sign64, BitVec.extractLsb'_toNat, Nat.shiftRight_eq_div_pow]
  have := d.isLt
  omega

theorem exponent64_toNat (d : Bin64) : (exponent64 d).toNat = d.toNat / 2 ^ 52 % 2048 := by
  simp [exponent64, BitVec.extractLsb'_toNat, Nat.shiftRight_eq_div_pow]

theorem fraction64_toNat (d : Bin64) : (fraction64 d).toNat = d.toNat % 2 ^ 52 := by
  simp [fraction64, BitVec.extractLsb'_toNat]

theorem pack64_toNat (s : BitVec 1) {e f : Nat} (he : e < 2 ^ 11) (hf : f < 2 ^ 52) :
    (pack64 s e f).toNat = s.toNat * 2 ^ 63 + e * 2 ^ 52 + f := by
  unfold pack64
  rw [BitVec.toNat_append, BitVec.toNat_append, BitVec.toNat_ofNat, BitVec.toNat_ofNat,
    Nat.mod_eq_of_lt he, Nat.mod_eq_of_lt hf, ← Nat.shiftLeft_add_eq_or_of_lt he,
    ← Nat.shiftLeft_add_eq_or_of_lt hf]
  simp only [Nat.shiftLeft_eq]
  omega

@[simp] theorem sign64_pack64 (s : BitVec 1) (e f : Nat) : sign64 (pack64 s e f) = s := by
  unfold sign64 pack64
  rw [BitVec.append_assoc]
  apply BitVec.eq_of_getLsbD_eq
  intro i hi
  obtain rfl : i = 0 := by omega
  rw [BitVec.getLsbD_extractLsb', BitVec.getLsbD_cast, BitVec.getLsbD_append]
  simp

theorem exponent64_pack64 (s : BitVec 1) {e f : Nat} (he : e < 2 ^ 11) (hf : f < 2 ^ 52) :
    (exponent64 (pack64 s e f)).toNat = e := by
  rw [exponent64_toNat, pack64_toNat s he hf]
  have := s.isLt
  omega

theorem fraction64_pack64 (s : BitVec 1) {e f : Nat} (he : e < 2 ^ 11) (hf : f < 2 ^ 52) :
    (fraction64 (pack64 s e f)).toNat = f := by
  rw [fraction64_toNat, pack64_toNat s he hf]
  omega

/-- A pattern is its fields. -/
theorem pack64_fields (d : Bin64) :
    pack64 (sign64 d) (exponent64 d).toNat (fraction64 d).toNat = d := by
  apply BitVec.eq_of_toNat_eq
  rw [pack64_toNat _ (exponent64 d).isLt (fraction64 d).isLt, sign64_toNat, exponent64_toNat,
    fraction64_toNat]
  omega

/-! ### Rounding -/

/-- The quotient rounded to even is within one half of it, and even when exactly one half away. -/
theorem roundDivEven_spec (a : Nat) {b : Nat} (hb : 0 < b) :
    2 * a ≤ (2 * roundDivEven a b + 1) * b ∧ 2 * (roundDivEven a b * b) ≤ 2 * a + b ∧
      (2 * a = (2 * roundDivEven a b + 1) * b ∨ 2 * (roundDivEven a b * b) = 2 * a + b →
        roundDivEven a b % 2 = 0) := by
  have h1 : a = b * (a / b) + a % b := (Nat.div_add_mod a b).symm
  have h2 : a % b < b := Nat.mod_lt a hb
  have h3 : a / b * b = b * (a / b) := Nat.mul_comm _ _
  have hodd : a / b % 2 = 1 ∨ a / b % 2 = 0 := by omega
  unfold roundDivEven
  simp only
  split_ifs with h
  · have e1 : (2 * (a / b + 1) + 1) * b = 2 * (b * (a / b)) + 3 * b := by ring
    have e2 : (a / b + 1) * b = b * (a / b) + b := by ring
    rw [e1, e2]
    refine ⟨by omega, by omega, ?_⟩
    intro h'
    omega
  · have e1 : (2 * (a / b) + 1) * b = 2 * (b * (a / b)) + b := by ring
    rw [e1, h3]
    refine ⟨by omega, by omega, ?_⟩
    intro h'
    omega

/-- An exact quotient is not rounded. -/
theorem roundDivEven_exact (q : Nat) {b : Nat} (hb : 0 < b) : roundDivEven (q * b) b = q := by
  unfold roundDivEven
  simp only [Nat.mul_div_cancel _ hb, Nat.mul_mod_left]
  rw [if_neg (by omega)]

/-- Rounding is monotone against an integer below the quotient. -/
theorem le_roundDivEven {a b q : Nat} (hb : 0 < b) (h : q * b ≤ a) : q ≤ roundDivEven a b := by
  have hq : q ≤ a / b := (Nat.le_div_iff_mul_le hb).2 h
  unfold roundDivEven
  simp only
  split_ifs <;> omega

/-- Rounding is monotone against an integer above the quotient. -/
theorem roundDivEven_le {a b q : Nat} (hb : 0 < b) (h : a ≤ q * b) : roundDivEven a b ≤ q := by
  have hs := (roundDivEven_spec a hb).2.1
  by_contra hlt
  have h1 : (q + 1) * b ≤ roundDivEven a b * b := Nat.mul_le_mul_right b (by omega)
  have h2 : (q + 1) * b = q * b + b := by ring
  omega

/-- `rne` rounds the quotient by the power of two. -/
theorem rne_eq_roundDivEven (M : Nat) (sh : Int) :
    rne M sh = roundDivEven (M * 2 ^ (-sh).toNat) (2 ^ sh.toNat) := by
  unfold rne
  split_ifs with h
  · rw [Int.toNat_of_nonpos h, pow_zero, Nat.shiftLeft_eq]
    have := roundDivEven_exact (M * 2 ^ (-sh).toNat) (b := 1) (by omega)
    rw [Nat.mul_one] at this
    exact this.symm
  · obtain ⟨n, hn⟩ : ∃ n, sh.toNat = n + 1 := ⟨sh.toNat - 1, by omega⟩
    rw [Int.toNat_of_nonpos (show -sh ≤ 0 by omega), pow_zero, Nat.mul_one, hn]
    have hpow : 2 ^ (n + 1) = 2 * 2 ^ n := by ring
    have hm : M - M / 2 ^ (n + 1) * 2 ^ (n + 1) = M % 2 ^ (n + 1) := by
      have := Nat.div_add_mod M (2 ^ (n + 1))
      rw [Nat.mul_comm] at this
      omega
    unfold roundDivEven
    simp only [Nat.shiftRight_eq_div_pow, Nat.shiftLeft_eq, hm, Nat.add_sub_cancel]
    have e1 : M % 2 ^ (n + 1) > 2 ^ n ↔ 2 * (M % 2 ^ (n + 1)) > 2 ^ (n + 1) := by
      rw [hpow]; omega
    have e2 : M % 2 ^ (n + 1) = 2 ^ n ↔ 2 * (M % 2 ^ (n + 1)) = 2 ^ (n + 1) := by
      rw [hpow]; omega
    simp only [e1, e2]

/-- The same over the rationals: within one half, and even when exactly one half away. -/
theorem roundDivEven_near (a : Nat) {b : Nat} (hb : 0 < b) :
    |(a : ℚ) / b - roundDivEven a b| ≤ 1 / 2 ∧
      (|(a : ℚ) / b - roundDivEven a b| = 1 / 2 → roundDivEven a b % 2 = 0) := by
  obtain ⟨h1, h2, h3⟩ := roundDivEven_spec a hb
  generalize roundDivEven a b = r at *
  have hb' : (0 : ℚ) < b := by exact_mod_cast hb
  have h1' : (2 : ℚ) * a ≤ (2 * r + 1) * b := by exact_mod_cast h1
  have h2' : (2 : ℚ) * (r * b) ≤ 2 * a + b := by exact_mod_cast h2
  have e : (a : ℚ) / b - r = (a - r * b) / b := by field_simp
  rw [e]
  constructor
  · rw [abs_le]
    exact ⟨by rw [le_div_iff₀ hb']; linarith, by rw [div_le_iff₀ hb']; linarith⟩
  · intro h
    apply h3
    rcases (abs_eq (by norm_num)).1 h with h | h
    · left
      rw [div_eq_iff hb'.ne'] at h
      have : (2 : ℚ) * a = (2 * r + 1) * b := by linarith
      exact_mod_cast this
    · right
      rw [div_eq_iff hb'.ne'] at h
      have : (2 : ℚ) * (r * b) = 2 * a + b := by linarith
      exact_mod_cast this

/-- Among the multiples of a quantum, a number's nearest one is nearest, and even on a tie. -/
theorem nearest_multiple {x u : ℚ} {r n : Int} (hu : 0 < u) (h1 : |x - r * u| ≤ u / 2)
    (h2 : |x - r * u| = u / 2 → r % 2 = 0) :
    |x - r * u| ≤ |x - n * u| ∧ (|x - r * u| = |x - n * u| → n ≠ r → r % 2 = 0) := by
  by_cases h : n = r
  · subst h
    exact ⟨le_refl _, fun _ h => absurd rfl h⟩
  · have hone : (1 : ℚ) ≤ |(n : ℚ) - r| := by
      have : (1 : Int) ≤ |n - r| := Int.one_le_abs (sub_ne_zero.2 h)
      exact_mod_cast this
    have hsum : u ≤ |x - r * u| + |x - n * u| := by
      calc u ≤ |(n : ℚ) - r| * u := by nlinarith
        _ = |(x - r * u) - (x - n * u)| := by
            rw [show (x - r * u) - (x - n * u) = (n - r) * u by ring, abs_mul, abs_of_pos hu]
        _ ≤ _ := abs_sub _ _
    exact ⟨by linarith, fun he _ => h2 (by linarith)⟩

/-! ### Logarithms -/

theorem pow_bitlen_le {M : Nat} (h : 0 < M) : 2 ^ (bitlen M - 1) ≤ M := by
  simpa [bitlen] using Nat.log2_self_le (by omega)

theorem lt_pow_bitlen (M : Nat) : M < 2 ^ bitlen M := Nat.lt_log2_self

/-- `log2Ratio a b` is the floor of the binary logarithm of `a / b`. -/
theorem log2Ratio_spec {a b : Nat} (ha : 0 < a) (hb : 0 < b) :
    b * 2 ^ (log2Ratio a b).toNat ≤ a * 2 ^ (-log2Ratio a b).toNat ∧
      a * 2 ^ (-(log2Ratio a b + 1)).toNat < b * 2 ^ (log2Ratio a b + 1).toNat := by
  have a1 := Nat.log2_self_le (n := a) (by omega)
  have a2 := Nat.lt_log2_self (n := a)
  have b1 := Nat.log2_self_le (n := b) (by omega)
  have b2 := Nat.lt_log2_self (n := b)
  have upper : a * 2 ^ (-((a.log2 : Int) - b.log2 + 1)).toNat <
      b * 2 ^ ((a.log2 : Int) - b.log2 + 1).toNat := by
    calc a * 2 ^ (-((a.log2 : Int) - b.log2 + 1)).toNat
        < 2 ^ (a.log2 + 1) * 2 ^ (-((a.log2 : Int) - b.log2 + 1)).toNat :=
          Nat.mul_lt_mul_of_pos_right a2 (by positivity)
      _ = 2 ^ b.log2 * 2 ^ ((a.log2 : Int) - b.log2 + 1).toNat := by
          rw [← pow_add, ← pow_add]; congr 1; omega
      _ ≤ _ := Nat.mul_le_mul_right _ b1
  have lower : b * 2 ^ ((a.log2 : Int) - b.log2 - 1).toNat ≤
      a * 2 ^ (-((a.log2 : Int) - b.log2 - 1)).toNat := by
    calc b * 2 ^ ((a.log2 : Int) - b.log2 - 1).toNat
        ≤ 2 ^ (b.log2 + 1) * 2 ^ ((a.log2 : Int) - b.log2 - 1).toNat := Nat.mul_le_mul_right _ b2.le
      _ = 2 ^ a.log2 * 2 ^ (-((a.log2 : Int) - b.log2 - 1)).toNat := by
          rw [← pow_add, ← pow_add]; congr 1; omega
      _ ≤ _ := Nat.mul_le_mul_right _ a1
  unfold log2Ratio
  simp only
  split_ifs with h
  · exact ⟨h, upper⟩
  · refine ⟨lower, ?_⟩
    rw [Int.sub_add_cancel]
    omega

/-! ### LEGACY decode (R124, R125) -/

/-- Every way a LEGACY decode can answer: `+0.0`, the one draw there is, or the rounded product. -/
theorem f32decLegacy_cases (c : Config) (w : Bin32) (draws : Nat) :
    (fraction32 w = 0 ∧ sign32 w = 0 ∧ f32decLegacy c w draws = (pack64 0 0 0, draws)) ∨
    (fraction32 w = 0 ∧ sign32 w ≠ 0 ∧ f32decLegacy c w draws =
      (pack64 (BitVec.ofBool (Config.legacyZeroNegative draws)) 0 0, draws + 1)) ∨
    (fraction32 w ≠ 0 ∧ f32decLegacy c w draws =
      (legacyProductRounded w (legacyPow2 c (exponent32 w)), draws)) := by
  unfold f32decLegacy
  split_ifs with hf hs
  · exact .inl ⟨hf, hs, rfl⟩
  · exact .inr (.inl ⟨hf, hs, rfl⟩)
  · exact .inr (.inr ⟨hf, rfl⟩)

theorem legacyProductRounded_null {w : Bin32} {p : Ratio} (h : p.num = 0) :
    legacyProductRounded w p = pack64 (BitVec.ofBool (Config.legacyNullNegative w)) 0 0 := if_pos h

theorem legacyProductRounded_nonzero {w : Bin32} {p : Ratio} (h : p.num ≠ 0) :
    legacyProductRounded w p =
      round64 (if p.num < 0 then ~~~sign32 w else sign32 w)
        ((2 ^ 23 + (fraction32 w).toNat) * p.num.natAbs) (2 ^ 23 * (p.denPred + 1)) := if_neg h

end Sys2Proof.Machine
end

