-- ==== Sys2Proof/Laws/PerInstr.lean ====
section
/-! SUPPORT. The per-instruction family `RequestForm`: the reader of an instruction's opcode takes
exactly the operand bytes that the encoder writes for it (spec/30_encoding.md R81 to R84). -/

namespace Sys2Proof.Laws.RequestForm

open Sys2Proof

/-- The opcode of `i` has a reader, and it reads the operand bytes of a well-formed `i` back from the
front of any bytes. -/
def Statement (i : Instr) : Prop :=
  i.wf = true → ∃ reader, operandReader (opcodeByte i) = some reader ∧
    ∀ rest, reader (operandBytes i ++ rest) = some (i, rest)

theorem feed (input : Bytes) : Statement (.feed input) := fun h =>
  ⟨_, rfl, fun _ => takeFormatS_iff.2 ⟨input, rfl, by simpa [Instr.wf] using h, rfl⟩⟩

theorem reset : Statement .reset := fun _ => ⟨_, rfl, fun _ => rfl⟩

theorem readState : Statement .readState := fun _ => ⟨_, rfl, fun _ => rfl⟩

theorem setVariant (v : Byte) : Statement (.setVariant v) := fun _ =>
  ⟨_, rfl, fun _ => takeFormatV_iff.2 ⟨v, rfl, rfl⟩⟩

theorem writeCfg (v : Byte) : Statement (.writeCfg v) := fun _ =>
  ⟨_, rfl, fun _ => takeFormatV_iff.2 ⟨v, rfl, rfl⟩⟩

theorem decode (fr : Bytes) : Statement (.decode fr) := fun h =>
  ⟨_, rfl, fun _ => takeFormatS_iff.2 ⟨fr, rfl, by simpa [Instr.wf] using h, rfl⟩⟩

theorem buildAckData (ctx : Option Context) : Statement (.buildAckData ctx) := fun h =>
  ⟨_, rfl, fun _ => takeFormatC_iff.2 ⟨ctx, rfl, h, rfl⟩⟩

theorem buildAckInfo (ctx : Option Context) : Statement (.buildAckInfo ctx) := fun h =>
  ⟨_, rfl, fun _ => takeFormatC_iff.2 ⟨ctx, rfl, h, rfl⟩⟩

theorem buildConnect (ctx : Option Context) (status : Byte) : Statement (.buildConnect ctx status) :=
  fun h => ⟨_, rfl, fun _ => takeFormatCStatus_iff.2 ⟨ctx, status, rfl, h, rfl⟩⟩

theorem buildDisconnect (ctx : Option Context) (status : Byte) :
    Statement (.buildDisconnect ctx status) := fun h =>
  ⟨_, rfl, fun _ => takeFormatCStatus_iff.2 ⟨ctx, status, rfl, h, rfl⟩⟩

theorem buildDescribe (ctx : Option Context) (t0 t1 t2 t3 t4 : Bytes) :
    Statement (.buildDescribe ctx t0 t1 t2 t3 t4) := fun h =>
  ⟨_, rfl, fun _ => takeFormatCTexts_iff.2
    ⟨ctx, t0, t1, t2, t3, t4, rfl, by simpa [Instr.wf, and_assoc] using h, rfl⟩⟩

theorem buildCalibrate (ctx : Option Context) (index : Byte) (unit : Bytes) (value : Bin64) :
    Statement (.buildCalibrate ctx index unit value) := fun h =>
  ⟨_, rfl, fun _ => takeFormatCCalibrate_iff.2
    ⟨ctx, index, unit, value, rfl, by simpa [Instr.wf] using h, rfl⟩⟩

theorem chkXor (data : Bytes) : Statement (.chkXor data) := fun h =>
  ⟨_, rfl, fun _ => takeFormatS_iff.2 ⟨data, rfl, by simpa [Instr.wf] using h, rfl⟩⟩

theorem chkCsum (data : Bytes) : Statement (.chkCsum data) := fun h =>
  ⟨_, rfl, fun _ => takeFormatS_iff.2 ⟨data, rfl, by simpa [Instr.wf] using h, rfl⟩⟩

theorem f32Decode (w : Bin32) : Statement (.f32Decode w) := fun _ =>
  ⟨_, rfl, fun _ => takeFormatW_iff.2 ⟨w, rfl, rfl⟩⟩

theorem f32Encode (d : Bin64) : Statement (.f32Encode d) := fun _ =>
  ⟨_, rfl, fun _ => takeFormatD_iff.2 ⟨d, rfl, rfl⟩⟩

end Sys2Proof.Laws.RequestForm
end

