-- ==== Sys2Proof/Laws/Reassembler.lean ====
section
/-! SUPPORT. What FEED's scan finds at an index, what one turn of its loop does, and what the bound on
CARRY does, each said once (spec/43_reassembler.md R141 to R147). -/

namespace Sys2Proof.Machine

variable {c : Config} {variant : BitVec 2} {W : Bytes} {i : Nat}

/-! ### `probe` -/

/-- What is found at an index depends on the bytes from there on only. -/
theorem probe_drop (c : Config) (variant : BitVec 2) (W : Bytes) (i : Nat) :
    probe c variant (W.drop i) 0 = probe c variant W i := by
  unfold probe
  have hg : (W.drop i)[0]? = W[i]? := by simp
  rw [hg]
  cases hm : W[i]?.bind markerFamily with
  | none => rfl
  | some fam =>
    have hi : i < W.length := by
      by_contra h
      simp [List.getElem?_eq_none (Nat.le_of_not_lt h)] at hm
    have hs : ∀ a e, slice (W.drop i) a e = slice W (i + a) (i + e) := by
      intro a e
      simp only [slice]
      rw [← List.drop_drop]
      congr 1
      rw [List.drop_take]
      congr 1
      omega
    simp only [hs, List.length_drop, Nat.zero_add, Nat.add_zero, Nat.add_assoc]
    have h1 : (W.length - i ≤ lengthWidth fam) = (W.length ≤ i + lengthWidth fam) := by
      rw [eq_iff_iff]; omega
    have h2 : ∀ T, (W.length - i < T) = (W.length < i + T) := by
      intro T; rw [eq_iff_iff]; omega
    simp only [h1, h2]

/-- A validated frame stands at an index exactly when the bytes from there begin with a candidate of its
declared length whose checksum matches (R141 steps 2 to 5, R144). -/
theorem probe_eq_frame {f : Bytes} :
    probe c variant W i = .frame f ↔
      f <+: W.drop i ∧ ∃ fam l rest, f = marker fam :: (l ++ rest) ∧ l.length = lengthWidth fam ∧
        f.length = ube l + fixedOffset fam ∧ frameValid c fam variant f = true := by
  rw [← probe_drop]
  generalize W.drop i = S
  unfold probe
  constructor
  · intro h
    split at h
    · simp at h
    rename_i fam hm
    simp only [Nat.zero_add] at h
    split_ifs at h with h1 h2 h3
    obtain ⟨b, hb, hf⟩ := Option.bind_eq_some_iff.1 hm
    obtain rfl := markerFamily_eq_some.1 hf
    obtain ⟨S', rfl⟩ : ∃ S', S = marker fam :: S' := by
      cases S with
      | nil => simp at hb
      | cons x S' => exact ⟨S', by simpa using hb⟩
    have hw := lengthWidth_lt_fixedOffset fam
    have hl : slice (marker fam :: S') 1 (1 + lengthWidth fam) = S'.take (lengthWidth fam) := by
      simp [slice, Nat.add_comm 1]
    have hz : ∀ T, slice (marker fam :: S') 0 T = (marker fam :: S').take T := slice_zero _
    rw [hl, hz] at h h3
    rw [hl] at h2
    simp only [List.length_cons] at h1 h2
    set T := ube (S'.take (lengthWidth fam)) + fixedOffset fam with hT
    obtain ⟨m, hm'⟩ : ∃ m, T = m + 1 := ⟨T - 1, by omega⟩
    obtain rfl := Probe.frame.inj h
    refine ⟨List.take_prefix _ _, fam, S'.take (lengthWidth fam),
      (S'.drop (lengthWidth fam)).take (m - lengthWidth fam), ?_, ?_, ?_, h3⟩
    · rw [hm', List.take_succ_cons]
      congr 1
      have : m = lengthWidth fam + (m - lengthWidth fam) := by omega
      conv_lhs => rw [this, List.take_add]
    · simp; omega
    · simp; omega
  · rintro ⟨⟨post, rfl⟩, fam, l, rest, rfl, hl, hT, hv⟩
    have hw := lengthWidth_lt_fixedOffset fam
    have hS : slice (marker fam :: (l ++ rest) ++ post) 1 (1 + lengthWidth fam) = l := by
      simp [slice, Nat.add_comm 1, ← hl]
    have hc : slice (marker fam :: (l ++ rest) ++ post) 0 (ube l + fixedOffset fam) =
        marker fam :: (l ++ rest) := by
      rw [slice_zero, ← hT, List.take_left]
    simp only [List.cons_append, List.getElem?_cons_zero, Option.bind_some, markerFamily_marker,
      Nat.zero_add]
    simp only [List.cons_append] at hS hc
    simp only [List.length_cons, List.length_append] at hT
    simp only [hS, hc, hv, if_true, List.length_cons, List.length_append]
    rw [if_neg (by omega), if_neg (by omega)]

/-- A marker is unresolvable exactly when its length field or its candidate is not within (R143). -/
theorem probe_eq_unresolvable :
    probe c variant W i = .unresolvable ↔
      ∃ fam tl, W.drop i = marker fam :: tl ∧
        (tl.length < lengthWidth fam ∨
          (W.drop i).length < ube (tl.take (lengthWidth fam)) + fixedOffset fam) := by
  rw [← probe_drop]
  generalize W.drop i = S
  cases S with
  | nil => simp [probe]
  | cons b S' =>
    have hl : ∀ n, slice (b :: S') 1 (1 + n) = S'.take n := by
      intro n; simp [slice, Nat.add_comm 1]
    unfold probe
    simp only [List.getElem?_cons_zero, Option.bind_some, Nat.zero_add, hl, List.length_cons]
    constructor
    · intro h
      split at h
      · simp at h
      rename_i fam hm
      obtain rfl := markerFamily_eq_some.1 hm
      refine ⟨fam, S', rfl, ?_⟩
      split_ifs at h with h1 h2
      · exact .inl (by omega)
      · exact .inr h2
    · rintro ⟨fam, tl, h, h'⟩
      obtain ⟨rfl, rfl⟩ := by simpa using h
      simp only [markerFamily_marker]
      have hw := lengthWidth_lt_fixedOffset fam
      split_ifs with h1 h2
      · rfl
      · rfl
      all_goals omega

/-- An emitted frame is not empty, so the scan moves past something. -/
theorem probe_frame_pos {f : Bytes} (h : probe c variant W i = .frame f) : 0 < f.length := by
  obtain ⟨-, fam, l, rest, rfl, -⟩ := probe_eq_frame.1 h
  simp

/-- An emitted frame is the bytes of the sequence from the index on. -/
theorem probe_frame_slice {f : Bytes} (h : probe c variant W i = .frame f) :
    W.drop i = f ++ W.drop (i + f.length) := by
  obtain ⟨⟨post, hp⟩, -⟩ := probe_eq_frame.1 h
  rw [← List.drop_drop, ← hp, List.drop_left]

theorem probe_past (h : W.length ≤ i) : probe c variant W i = .notMarker := by
  unfold probe
  rw [List.getElem?_eq_none h]
  rfl

/-! ### The loop -/

theorem scanStep_frame {st : Scan} {f : Bytes} (h : probe c variant W st.i = .frame f) :
    scanStep c variant W st =
      ⟨st.i + f.length, st.i + f.length, st.frames ++ [f], st.discarded ++ slice W st.last st.i⟩ := by
  simp [scanStep, h]

theorem scanStep_other {st : Scan} (h : ∀ f, probe c variant W st.i ≠ .frame f) :
    scanStep c variant W st = { st with i := st.i + 1 } := by
  unfold scanStep
  split <;> first | rfl | (rename_i hp; exact absurd hp (h _))

/-- One turn of the loop: a frame is emitted, or the cursor moves by one byte. -/
theorem scanStep_cases (c : Config) (variant : BitVec 2) (W : Bytes) (st : Scan) :
    (∃ f, probe c variant W st.i = .frame f ∧ scanStep c variant W st =
      ⟨st.i + f.length, st.i + f.length, st.frames ++ [f], st.discarded ++ slice W st.last st.i⟩) ∨
    ((∀ f, probe c variant W st.i ≠ .frame f) ∧
      scanStep c variant W st = { st with i := st.i + 1 }) := by
  by_cases h : ∃ f, probe c variant W st.i = .frame f
  · obtain ⟨f, h⟩ := h
    exact .inl ⟨f, h, scanStep_frame h⟩
  · have h' : ∀ f, probe c variant W st.i ≠ .frame f := fun f hf => h ⟨f, hf⟩
    exact .inr ⟨h', scanStep_other h'⟩

/-- Each turn moves the cursor (R148). -/
theorem lt_scanStep (c : Config) (variant : BitVec 2) (W : Bytes) (st : Scan) :
    st.i < (scanStep c variant W st).i := by
  rcases scanStep_cases c variant W st with ⟨f, h, h'⟩ | ⟨-, h'⟩
  · have := probe_frame_pos h
    rw [h']; dsimp only; omega
  · rw [h']; dsimp only; omega

theorem scanLoop_done {fuel : Nat} {st : Scan} (h : W.length ≤ st.i) :
    scanLoop c variant W fuel st = st := by
  cases fuel with
  | zero => rfl
  | succ n => simp [scanLoop, Nat.not_lt.2 h]

theorem scanLoop_turn {fuel : Nat} {st : Scan} (h : st.i < W.length) :
    scanLoop c variant W (fuel + 1) st = scanLoop c variant W fuel (scanStep c variant W st) := by
  simp [scanLoop, h]

/-! ### The bound on CARRY -/

/-- What `cap` does (R147): all is kept, or the newest CARRY_CAP bytes. -/
theorem capCarry_cases (c : Config) (s : Bytes) :
    (capCarry c s = ⟨s, [], false⟩ ∧ ∀ cap, c.carryCap = some cap → s.length ≤ cap) ∨
    (∃ cap kept extra, c.carryCap = some cap ∧ cap < s.length ∧ s = extra ++ kept ∧ kept.length = cap ∧
      capCarry c s = ⟨kept, extra, true⟩) := by
  unfold capCarry
  cases hc : c.carryCap with
  | none => simp
  | some cap =>
    by_cases h : s.length ≤ cap
    · exact .inl (by simp [h])
    · exact .inr ⟨cap, _, _, rfl, by omega, (List.take_append_drop (s.length - cap) s).symm,
        by simp; omega, by simp [h]⟩

/-- The kept bytes are within CARRY_CAP. -/
theorem length_capCarry_le {s : Bytes} {cap : Nat} (h : c.carryCap = some cap) :
    (capCarry c s).kept.length ≤ cap := by
  rcases capCarry_cases c s with ⟨h', hb⟩ | ⟨cap', kept, extra, hc, -, -, hk, h'⟩
  · rw [h']; exact hb cap h
  · rw [h']
    have : cap' = cap := Option.some.inj (hc.symm.trans h)
    exact le_of_eq (hk.trans this)

theorem capCarry_unbounded {s : Bytes} (h : c.carryCap = none) : capCarry c s = ⟨s, [], false⟩ := by
  simp [capCarry, h]

theorem capCarry_nil (c : Config) : capCarry c [] = ⟨[], [], false⟩ := by
  rcases capCarry_cases c [] with ⟨h, -⟩ | ⟨cap, kept, extra, -, hl, -⟩
  · exact h
  · simp at hl

end Sys2Proof.Machine
end

