-- ==== Sys2Proof/Laws/Step.lean ====
section
/-! SUPPORT. What one instruction and one step can do, said once (spec/00_scope.md R5, R10). -/

namespace Sys2Proof.Machine

/-! ### SET_VARIANT and WRITE_CFG -/

/-- A legal operand is written to VARIANT (spec/44_decoder.md R170). -/
theorem execSetVariant_legal {v : Byte} (h : v = 0x00 ∨ v = 0x01 ∨ v = 0x02) (s : State) :
    execSetVariant v s = .next (answer .none (writeVariant (v.extractLsb' 0 2) s)) := if_pos h

/-- A reserved operand is refused (spec/44_decoder.md R170). -/
theorem execSetVariant_reserved {v : Byte} (h : ¬ (v = 0x00 ∨ v = 0x01 ∨ v = 0x02)) (s : State) :
    execSetVariant v s = .next (raise .errOperand (.infoByte v) s) := if_neg h

/-- A legal operand is written to FLOAT_MODE (spec/42_float_codec.md R130). -/
theorem execWriteCfg_legal {v : Byte} (h : v.extractLsb' 1 7 = 0) (s : State) :
    execWriteCfg v s = .next (answer .none (writeFloatMode (v.extractLsb' 0 1) s)) :=
  if_neg (not_not_intro h)

/-- An operand with a reserved bit set is refused (spec/42_float_codec.md R130). -/
theorem execWriteCfg_reserved {v : Byte} (h : v.extractLsb' 1 7 ≠ 0) (s : State) :
    execWriteCfg v s = .next (raise .errOperand (.infoByte v) s) := if_pos h

theorem execSetVariant_cases (v : Byte) (s : State) :
    ((v = 0x00 ∨ v = 0x01 ∨ v = 0x02) ∧
      execSetVariant v s = .next (answer .none (writeVariant (v.extractLsb' 0 2) s))) ∨
    (¬ (v = 0x00 ∨ v = 0x01 ∨ v = 0x02) ∧
      execSetVariant v s = .next (raise .errOperand (.infoByte v) s)) := by
  by_cases h : v = 0x00 ∨ v = 0x01 ∨ v = 0x02
  · exact .inl ⟨h, execSetVariant_legal h s⟩
  · exact .inr ⟨h, execSetVariant_reserved h s⟩

theorem execWriteCfg_cases (v : Byte) (s : State) :
    (v.extractLsb' 1 7 = 0 ∧
      execWriteCfg v s = .next (answer .none (writeFloatMode (v.extractLsb' 0 1) s))) ∨
    (v.extractLsb' 1 7 ≠ 0 ∧ execWriteCfg v s = .next (raise .errOperand (.infoByte v) s)) := by
  by_cases h : v.extractLsb' 1 7 = 0
  · exact .inl ⟨h, execWriteCfg_legal h s⟩
  · exact .inr ⟨h, execWriteCfg_reserved h s⟩

/-! ### Every instruction -/

/-- Every instruction answers a next state with a response on the port, leaving the requests behind it
and the configuration alone. -/
theorem exec_answers (i : Instr) (s : State) :
    ∃ t r, exec i s = .next t ∧ t.response = some r ∧ t.inbox = s.inbox ∧ t.config = s.config := by
  have build : ∀ r, ∃ t r', Host.Outcome.next (buildResponse r s) =
      (Host.Outcome.next t : Host.Outcome State Fault Refusal) ∧ t.response = some r' ∧
      t.inbox = s.inbox ∧ t.config = s.config := by
    intro r
    obtain ⟨status, results, h⟩ := buildResponse_eq_respond s r
    exact ⟨respond status results s, _, by rw [h], rfl, rfl, rfl⟩
  cases i with
  | setVariant v =>
    rcases execSetVariant_cases v s with ⟨_, h⟩ | ⟨_, h⟩ <;> exact ⟨_, _, h, rfl, rfl, rfl⟩
  | writeCfg v =>
    rcases execWriteCfg_cases v s with ⟨_, h⟩ | ⟨_, h⟩ <;> exact ⟨_, _, h, rfl, rfl, rfl⟩
  | buildAckData => exact build _
  | buildAckInfo => exact build _
  | buildConnect => exact build _
  | buildDisconnect => exact build _
  | buildDescribe => exact build _
  | buildCalibrate => exact build _
  | feed => exact ⟨_, _, rfl, rfl, rfl, rfl⟩
  | reset => exact ⟨_, _, rfl, rfl, rfl, rfl⟩
  | readState => exact ⟨_, _, rfl, rfl, rfl, rfl⟩
  | decode => exact ⟨_, _, rfl, rfl, rfl, rfl⟩
  | chkXor => exact ⟨_, _, rfl, rfl, rfl, rfl⟩
  | chkCsum => exact ⟨_, _, rfl, rfl, rfl, rfl⟩
  | f32Decode => exact ⟨_, _, rfl, rfl, rfl, rfl⟩
  | f32Encode => exact ⟨_, _, rfl, rfl, rfl, rfl⟩

/-- The requests behind an instruction have no influence on it and stay as they are. -/
theorem exec_of_inbox (i : Instr) (s t : State) (inbox : List Bytes) (h : exec i s = .next t) :
    exec i { s with inbox := inbox } = .next { t with inbox := inbox } := by
  have build : ∀ r, Host.Outcome.next (buildResponse r s) =
      (Host.Outcome.next t : Host.Outcome State Fault Refusal) →
      Host.Outcome.next (buildResponse r { s with inbox := inbox }) =
      (Host.Outcome.next { t with inbox := inbox } : Host.Outcome State Fault Refusal) := by
    intro r hr
    obtain rfl := Host.Outcome.next.inj hr
    rcases r with (_ | _ | L) | f <;> rfl
  cases i with
  | setVariant v =>
    rcases execSetVariant_cases v s with ⟨hv, h'⟩ | ⟨hv, h'⟩
    · obtain rfl := Host.Outcome.next.inj (h'.symm.trans h)
      exact execSetVariant_legal hv _
    · obtain rfl := Host.Outcome.next.inj (h'.symm.trans h)
      exact execSetVariant_reserved hv _
  | writeCfg v =>
    rcases execWriteCfg_cases v s with ⟨hv, h'⟩ | ⟨hv, h'⟩
    · obtain rfl := Host.Outcome.next.inj (h'.symm.trans h)
      exact execWriteCfg_legal hv _
    · obtain rfl := Host.Outcome.next.inj (h'.symm.trans h)
      exact execWriteCfg_reserved hv _
  | buildAckData => exact build _ h
  | buildAckInfo => exact build _ h
  | buildConnect => exact build _ h
  | buildDisconnect => exact build _ h
  | buildDescribe => exact build _ h
  | buildCalibrate => exact build _ h
  | feed => obtain rfl := Host.Outcome.next.inj h; rfl
  | reset => obtain rfl := Host.Outcome.next.inj h; rfl
  | readState => obtain rfl := Host.Outcome.next.inj h; rfl
  | decode => obtain rfl := Host.Outcome.next.inj h; rfl
  | chkXor => obtain rfl := Host.Outcome.next.inj h; rfl
  | chkCsum => obtain rfl := Host.Outcome.next.inj h; rfl
  | f32Decode => obtain rfl := Host.Outcome.next.inj h; rfl
  | f32Encode => obtain rfl := Host.Outcome.next.inj h; rfl

/-- What a step can do: hold an idle state, perform the oldest request, or refuse it as no instruction. -/
theorem step_cases (s : State) :
    (s.inbox = [] ∧ step s = .next s) ∨
    (∃ req rest i, s.inbox = req :: rest ∧ decode req = .ok i ∧
      step s = exec i { s with inbox := rest }) ∨
    (∃ req rest e, s.inbox = req :: rest ∧ decode req = .error e ∧
      step s = .next (refuseRequest e { s with inbox := rest })) := by
  cases hi : s.inbox with
  | nil => exact .inl ⟨rfl, by simp [step, takeRequest_nil s hi]⟩
  | cons req rest =>
    cases hd : decode req with
    | ok i => exact .inr (.inl ⟨req, rest, i, rfl, hd, by simp [step, takeRequest_cons s req rest hi, hd]⟩)
    | error e =>
      exact .inr (.inr ⟨req, rest, e, rfl, hd, by simp [step, takeRequest_cons s req rest hi, hd]⟩)

/-- The placed request is the one the very next step performs. -/
theorem step_withFetchWord (s : State) (nbits w : Nat) (i : Instr)
    (h : decodeTableWord nbits w = some i) : step (s.withFetchWord nbits w) = exec i s := by
  unfold decodeTableWord at h
  split at h
  · obtain rfl := Option.some.inj h
    simp [step, State.withFetchWord, *]
  · simp at h

end Sys2Proof.Machine
end

