-- ==== Sys2Proof/Machine/Assembler.lean ====
section
/-! DEFINITION. The operation syntax of spec/30_encoding.md R88, as the text of each instruction. The
text has no effect on the machine (spec/92_eei_decisions.md D32). Where R88 has two spellings of an
operand this is the one with names, and a `<str>` is written as hex bytes. -/

namespace Sys2Proof.Machine

/-- One hexadecimal digit of a number below 16. -/
def hexDigit (n : Nat) : Char := if n < 10 then Char.ofNat (48 + n) else Char.ofNat (55 + n)

/-- `n` hexadecimal digits of a number. -/
def hexDigits : Nat → Nat → List Char
  | 0, _ => []
  | n + 1, v => hexDigits n (v / 16) ++ [hexDigit (v % 16)]

/-- `0x` and `n` digits. -/
def hexNumber (n v : Nat) : String := "0x" ++ String.ofList (hexDigits n v)

/-- `<hex bytes>`: two-digit bytes, first byte first, a space between. -/
def hexBytes (s : Bytes) : String :=
  String.intercalate " " (s.map fun b => String.ofList (hexDigits 2 b.toNat))

/-- Text in braces. -/
def inBraces (t : String) : String :=
  String.singleton (Char.ofNat 123) ++ t ++ String.singleton (Char.ofNat 125)

/-- An operation with its byte string; alone when there are no bytes. -/
def withBytes (op : String) (s : Bytes) : String :=
  if s.isEmpty then op else op ++ " " ++ hexBytes s

/-- `fam=..., var=...` of a key. -/
def keyText : Key → String
  | .fe => "fam=FE, var=GENERIC"
  | .digi => "fam=7E, var=DIGI"
  | .lora => "fam=7E, var=LORA"

/-- `<ctx>`. -/
def contextText : Option Context → String
  | none => "NOCTX"
  | some ctx =>
      inBraces (keyText ctx.key ++ ", cmd=" ++ hexBytes ctx.command ++ ", addr=" ++
        hexBytes ctx.address ++ ", unp=" ++ hexBytes ctx.unparsed ++ ", ven=" ++ hexBytes ctx.vendor ++
        ", dt=" ++ hexBytes ctx.deviceType ++ ", grp=" ++ hexBytes ctx.group)

/-- `<str>`. -/
def strText (s : Bytes) : String := inBraces (hexBytes s)

/-- The operand of SET_VARIANT. -/
def variantText (v : Byte) : String :=
  if v = 0x00 then "UNSET" else if v = 0x01 then "DIGI" else if v = 0x02 then "LORA"
  else hexNumber 2 v.toNat

/-- The operand of WRITE_CFG. -/
def modeText (v : Byte) : String :=
  if v = 0x00 then "IEEE" else if v = 0x01 then "LEGACY" else hexNumber 2 v.toNat

/-- The line that R88 gives an instruction. -/
def assemblerText : Instr → String
  | .feed input => withBytes "FEED" input
  | .reset => "RESET"
  | .readState => "READ_STATE"
  | .setVariant v => "SET_VARIANT " ++ variantText v
  | .writeCfg v => "WRITE_CFG " ++ modeText v
  | .decode fr => withBytes "DECODE" fr
  | .buildAckData ctx => "BUILD_ACK_DATA " ++ contextText ctx
  | .buildAckInfo ctx => "BUILD_ACK_INFO " ++ contextText ctx
  | .buildConnect ctx status => "BUILD_CONNECT " ++ contextText ctx ++ ", " ++ hexNumber 2 status.toNat
  | .buildDisconnect ctx status =>
      "BUILD_DISCONNECT " ++ contextText ctx ++ ", " ++ hexNumber 2 status.toNat
  | .buildDescribe ctx t0 t1 t2 t3 t4 =>
      "BUILD_DESCRIBE " ++ contextText ctx ++ ", " ++
        String.intercalate ", " ([t0, t1, t2, t3, t4].map strText)
  | .buildCalibrate ctx index unit value =>
      "BUILD_CALIBRATE " ++ contextText ctx ++ ", " ++ hexNumber 2 index.toNat ++ ", " ++ strText unit ++
        ", " ++ hexNumber 16 value.toNat
  | .chkXor data => withBytes "CHK_XOR" data
  | .chkCsum data => withBytes "CHK_CSUM" data
  | .f32Decode w => "F32_DECODE " ++ hexNumber 8 w.toNat
  | .f32Encode d => "F32_ENCODE " ++ hexNumber 16 d.toNat

end Sys2Proof.Machine
end

