-- ==== Sys2Proof/Tests/Slice0.lean ====
section
/-! SUPPORT. The model's own tests: ill-formed terms that WellFormed refuses, request words written out
from spec/30_encoding.md R81 to R84, one-step results taken from spec/95_test_vectors.md, and for every
statement with hypotheses a witness that meets them together. -/

namespace Sys2Proof.Tests

open Sys2Proof.Machine Sys2Proof.Claims

/-! ### The example registry REX (spec/95_test_vectors.md section 0) -/

/-- REX of one key, with its UW. -/
def rexKey (unparsedWidth : Nat) : KeyParams where
  unparsedWidth   := unparsedWidth
  vendorWidth     := 1
  deviceTypeWidth := 1
  groupWidth      := 1
  txCodes         := ⟨0x0081, 0x0082, 0x0010, 0x0011, 0x0020, 0x0021⟩
  ackDataPayload  := []
  ackInfoPayload  := []
  descWidths      := ⟨4, 4, 2, 2, 4⟩
  unitWidth       := 4

/-- REX's content table for one key. -/
def rexEntries (k : Key) : List ContentEntry :=
  [⟨k, 0x0001, [⟨"value", 5, .f32⟩, ⟨"battery", 9, .uint 0⟩, ⟨"status", 10, .uint 1⟩], by decide⟩,
    ⟨k, 0x0002, [⟨"model", 5, .text 4⟩, ⟨"serial", 9, .text 4⟩], by decide⟩]

/-- REX, with one value for LEGACY_POW2 at every exponent. -/
def rexWith (pow2 : Ratio) : Config where
  carryCap             := none
  floatModeReset       := .ieee
  commandWidthDigi     := 1
  addressWidthFe       := 2
  addressWidthDigi     := 8
  fe                   := rexKey 0
  digi                 := rexKey 3
  lora                 := rexKey 0
  contentEntries       := rexEntries .fe ++ rexEntries .digi ++ rexEntries .lora
  variantRules         := []
  txCommandRules       := []
  txUnparsedRules      := []
  legacyPow2           := Vector.replicate 256 pow2
  chk7eDigiAfterLength := false

/-- REX with LEGACY_POW2(e) = 2 at every exponent, as `2^(e - 126)` is at e = 127. -/
def rex : Config := rexWith ⟨2, 0⟩

/-- A state of this configuration, CARRY, SESSION and CFG, with nothing at the port. -/
def at' (c : Config) (carry : Bytes) (session cfg : Byte) : State := ⟨c, carry, session, cfg, [], none, 0⟩

/-- The state after reset with REX for its parameters. -/
def rexReset : State := at' rex [] 0x00 0x00

/-- The response an outcome leaves on the port. -/
def reply : Host.Outcome State Fault Refusal → Option Response
  | .next t => t.response
  | .refused _ => none

/-- CARRY, SESSION and CFG after an outcome. -/
def registers : Host.Outcome State Fault Refusal → Option (Bytes × Byte × Byte)
  | .next t => some (t.carry, t.session, t.cfg)
  | .refused _ => none

/-- The record that DECODE answers. -/
def record (o : Host.Outcome State Fault Refusal) : Option DecodedFrame :=
  match reply o with
  | some ⟨.ok, .decoded out⟩ => some out
  | _ => none

/-- The contexts of spec/95_test_vectors.md section 0. -/
def fe : Context := ⟨.fe, [0x44, 0x81], [0x12, 0x34], [], [0x01], [0x02], [0x03]⟩
/-- `di`. -/
def di : Context :=
  ⟨.digi, [0x90], [0x00, 0x13, 0xA2, 0x00, 0x40, 0x8B, 0x2C, 0x11], [0xFF, 0xFE, 0x01], [0x01], [0x02], [0x03]⟩
/-- `lo`. -/
def lo : Context := ⟨.lora, [], [], [], [0x01], [0x02], [0x03]⟩

/-- A byte string too long for a format S length field. -/
def long32 : Bytes := List.replicate (2 ^ 32) 0
/-- A byte string too long for a `str16`. -/
def long16 : Bytes := List.replicate (2 ^ 16) 0

theorem long32_length : long32.length = 2 ^ 32 := List.length_replicate ..
theorem long16_length : long16.length = 2 ^ 16 := List.length_replicate ..

/-! ### WellFormed refuses, one ill-formed term for each check -/

theorem test_wf_feed : (Instr.feed long32).wf = false := by simp [Instr.wf, Bytes.fits32, long32_length]

theorem test_wf_decode :
    (Instr.decode long32).wf = false := by simp [Instr.wf, Bytes.fits32, long32_length]

theorem test_wf_chkXor :
    (Instr.chkXor long32).wf = false := by simp [Instr.wf, Bytes.fits32, long32_length]

theorem test_wf_chkCsum :
    (Instr.chkCsum long32).wf = false := by simp [Instr.wf, Bytes.fits32, long32_length]

theorem test_wf_context_command :
    Context.wf { lo with command := long16 } = false :=
      by simp [Context.wf, Bytes.fits16, long16_length]

theorem test_wf_context_address :
    Context.wf { lo with address := long16 } = false :=
      by simp [Context.wf, Bytes.fits16, long16_length]

theorem test_wf_context_unparsed :
    Context.wf { lo with unparsed := long16 } = false :=
      by simp [Context.wf, Bytes.fits16, long16_length]

theorem test_wf_context_vendor :
    Context.wf { lo with vendor := long16 } = false := by simp [Context.wf, Bytes.fits16, long16_length]

theorem test_wf_context_deviceType :
    Context.wf { lo with deviceType := long16 } = false :=
      by simp [Context.wf, Bytes.fits16, long16_length]

theorem test_wf_context_group :
    Context.wf { lo with group := long16 } = false := by simp [Context.wf, Bytes.fits16, long16_length]

theorem test_wf_buildAckData :
    (Instr.buildAckData (some { lo with group := long16 })).wf = false :=
      by simp [Instr.wf, ctxWf, Context.wf, Bytes.fits16, long16_length]

theorem test_wf_buildAckInfo :
    (Instr.buildAckInfo (some { lo with group := long16 })).wf = false :=
      by simp [Instr.wf, ctxWf, Context.wf, Bytes.fits16, long16_length]

theorem test_wf_buildConnect :
    (Instr.buildConnect (some { lo with group := long16 }) 0x01).wf = false :=
      by simp [Instr.wf, ctxWf, Context.wf, Bytes.fits16, long16_length]

theorem test_wf_buildDisconnect :
    (Instr.buildDisconnect (some { lo with group := long16 }) 0x01).wf = false :=
      by simp [Instr.wf, ctxWf, Context.wf, Bytes.fits16, long16_length]

theorem test_wf_buildDescribe :
    (Instr.buildDescribe (some { lo with group := long16 }) [] [] [] [] []).wf = false :=
      by simp [Instr.wf, ctxWf, Context.wf, Bytes.fits16, long16_length]

theorem test_wf_buildCalibrate :
    (Instr.buildCalibrate (some { lo with group := long16 }) 0x02 [] 0).wf = false :=
      by simp [Instr.wf, ctxWf, Context.wf, Bytes.fits16, long16_length]

theorem test_wf_buildDescribe_text0 :
    (Instr.buildDescribe none long16 [] [] [] []).wf = false :=
      by simp [Instr.wf, Bytes.fits16, long16_length]

theorem test_wf_buildDescribe_text1 :
    (Instr.buildDescribe none [] long16 [] [] []).wf = false :=
      by simp [Instr.wf, Bytes.fits16, long16_length]

theorem test_wf_buildDescribe_text2 :
    (Instr.buildDescribe none [] [] long16 [] []).wf = false :=
      by simp [Instr.wf, Bytes.fits16, long16_length]

theorem test_wf_buildDescribe_text3 :
    (Instr.buildDescribe none [] [] [] long16 []).wf = false :=
      by simp [Instr.wf, Bytes.fits16, long16_length]

theorem test_wf_buildDescribe_text4 :
    (Instr.buildDescribe none [] [] [] [] long16).wf = false :=
      by simp [Instr.wf, Bytes.fits16, long16_length]

theorem test_wf_buildCalibrate_unit :
    (Instr.buildCalibrate none 0x02 long16 0).wf = false :=
      by simp [Instr.wf, Bytes.fits16, long16_length]

/-- R87: a reserved `imm8` is in form. -/
theorem test_wf_reserved_imm8 :
    (Instr.setVariant 0x03).wf = true ∧ (Instr.writeCfg 0x80).wf = true := by decide

/-! ### Request words, written out from spec/30_encoding.md R81 to R84 -/

theorem test_decode_feed :
    Sys2Proof.decode [0x01, 0x00, 0x00, 0x00, 0x03, 0x7E, 0x00, 0x02] = .ok (.feed [0x7E, 0x00, 0x02])
      := by decide

theorem test_decode_reset : Sys2Proof.decode [0x02] = .ok (.reset) := by decide

theorem test_decode_readState : Sys2Proof.decode [0x03] = .ok (.readState) := by decide

theorem test_decode_setVariant : Sys2Proof.decode [0x08, 0x01] = .ok (.setVariant 0x01) := by decide

theorem test_decode_writeCfg : Sys2Proof.decode [0x09, 0x80] = .ok (.writeCfg 0x80) := by decide

theorem test_decode_decode :
    Sys2Proof.decode [0x10, 0x00, 0x00, 0x00, 0x02, 0xFE, 0x05] = .ok (.decode [0xFE, 0x05]) :=
      by decide

theorem test_decode_buildAckData : Sys2Proof.decode [0x20, 0x00] = .ok (.buildAckData none) := by decide

theorem test_decode_buildAckInfo :
    Sys2Proof.decode [0x21, 0x01, 0x7E, 0x01, 0x00, 0x01, 0x90, 0x00, 0x08, 0x00, 0x13, 0xA2, 0x00,
      0x40, 0x8B, 0x2C, 0x11, 0x00, 0x03, 0xFF, 0xFE, 0x01, 0x00, 0x01, 0x01, 0x00, 0x01, 0x02, 0x00,
      0x01, 0x03] = .ok (.buildAckInfo (some di)) := by decide

theorem test_decode_buildConnect :
    Sys2Proof.decode [0x22, 0x01, 0xFE, 0x00, 0x00, 0x02, 0x44, 0x81, 0x00, 0x02, 0x12, 0x34, 0x00,
      0x00, 0x00, 0x01, 0x01, 0x00, 0x01, 0x02, 0x00, 0x01, 0x03, 0x01] = .ok (.buildConnect (some fe)
      0x01) := by decide

theorem test_decode_buildDisconnect :
    Sys2Proof.decode [0x23, 0x01, 0x7E, 0x02, 0x00, 0x00, 0x00, 0x00, 0x00, 0x00, 0x00, 0x01, 0x01,
      0x00, 0x01, 0x02, 0x00, 0x01, 0x03, 0xFF] = .ok (.buildDisconnect (some lo) 0xFF) := by decide

theorem test_decode_buildDescribe :
    Sys2Proof.decode [0x24, 0x00, 0x00, 0x01, 0x41, 0x00, 0x02, 0x42, 0x43, 0x00, 0x00, 0x00, 0x01,
      0x44, 0x00, 0x01, 0x45] = .ok (.buildDescribe none [0x41] [0x42, 0x43] [] [0x44] [0x45]) :=
      by decide

theorem test_decode_buildCalibrate :
    Sys2Proof.decode [0x25, 0x01, 0x7E, 0x02, 0x00, 0x00, 0x00, 0x00, 0x00, 0x00, 0x00, 0x01, 0x01,
      0x00, 0x01, 0x02, 0x00, 0x01, 0x03, 0x02, 0x00, 0x04, 0x6B, 0x50, 0x61, 0x20, 0x3F, 0xF8, 0x00,
      0x00, 0x00, 0x00, 0x00, 0x01] = .ok (.buildCalibrate (some lo) 0x02 [0x6B, 0x50, 0x61, 0x20]
      0x3FF8000000000001) := by decide

theorem test_decode_chkXor :
    Sys2Proof.decode [0x30, 0x00, 0x00, 0x00, 0x02, 0xAA, 0xBB] = .ok (.chkXor [0xAA, 0xBB]) :=
      by decide

theorem test_decode_chkCsum :
    Sys2Proof.decode [0x31, 0x00, 0x00, 0x00, 0x00] = .ok (.chkCsum []) := by decide

theorem test_decode_f32Decode :
    Sys2Proof.decode [0x40, 0x3F, 0xC0, 0x00, 0x01] = .ok (.f32Decode 0x3FC00001) := by decide

theorem test_decode_f32Encode :
    Sys2Proof.decode [0x41, 0x40, 0x24, 0x00, 0x00, 0x00, 0x00, 0x00, 0x01] = .ok (.f32Encode
      0x4024000000000001) := by decide

/-! ### Requests that are no instruction (spec/95_test_vectors.md section 2.6) -/

theorem test_refuse_short_data :
    Sys2Proof.decode [0x01, 0x00, 0x00, 0x00, 0x03, 0xFE, 0x00] = .error .malformed := by decide

theorem test_refuse_trailing_byte : Sys2Proof.decode [0x02, 0x00] = .error .malformed := by decide

theorem test_refuse_bad_valid : Sys2Proof.decode [0x22, 0x02, 0x01] = .error .malformed := by decide

theorem test_refuse_bad_pair :
    Sys2Proof.decode [0x22, 0x01, 0xFE, 0x01, 0x00, 0x00, 0x00, 0x00, 0x00, 0x00, 0x00, 0x00, 0x00,
      0x00, 0x00, 0x00, 0x01] = .error .malformed := by decide

theorem test_refuse_missing_status : Sys2Proof.decode [0x22, 0x00] = .error .malformed := by decide

theorem test_refuse_opcode_before_form :
    Sys2Proof.decode [0x05, 0xFF, 0xFF] = .error (.illegalOp 0x05) := by decide

theorem test_refuse_empty : Sys2Proof.decode [] = .error .malformed := by decide

/-- R84: a reader for each opcode of the map, and for no other. -/
theorem test_opcode_map :
    ∀ n < 256, (operandReader (BitVec.ofNat 8 n)).isSome = decide (BitVec.ofNat 8 n ∈ legalOpcodes) :=
      by decide +kernel

/-- R85: the illegal opcodes are the rest of R84. -/
theorem test_illegal_opcodes : ∀ n < 256, IllegalOpcode n ↔ BitVec.ofNat 8 n ∉ legalOpcodes := by
  unfold IllegalOpcode
  decide +kernel

/-! ### One step of each operation, with the results of spec/95_test_vectors.md -/

/-- FEED-17, FEED-20: junk between two frames; a rejected candidate with a frame inside it. -/
theorem test_feed_scan :
    reply (exec (.feed [0xFE, 0x00, 0x01, 0x02, 0x03, 0x99, 0x7E, 0x00, 0x02, 0x10, 0x20, 0xCD])
      rexReset) = some ⟨.ok, .feed [[0xFE, 0x00, 0x01, 0x02, 0x03], [0x7E, 0x00, 0x02, 0x10, 0x20,
      0xCD]] [0x99] false⟩ ∧ reply (exec (.feed [0x04, 0xFE, 0x03, 0x01, 0x02, 0xAA, 0xBB, 0xCC, 0xDD])
      (at' rex [0x7E, 0x00] 0x00 0x00)) = some ⟨.ok, .feed [[0xFE, 0x03, 0x01, 0x02, 0xAA, 0xBB, 0xCC,
      0xDD]] [0x7E, 0x00, 0x04] false⟩ := by decide +kernel

/-- FEED-C1, CHK-11: CARRY_CAP cuts; with P14 true and VARIANT DIGI the checksum of F5 fails. -/
theorem test_feed_parameters :
    reply (exec (.feed [0x7E, 0x00, 0x40, 0x01, 0x02, 0x03]) (at' { rex with carryCap := some 4 } []
      0x00 0x00)) = some ⟨.warnCarryTruncated, .feed [] [0x7E, 0x00] true⟩ ∧ reply (exec (.feed [0x7E,
      0x00, 0x18, 0x90, 0x00, 0x13, 0xA2, 0x00, 0x40, 0x8B, 0x2C, 0x11, 0xFF, 0xFE, 0x01, 0x01, 0x02,
      0x03, 0x00, 0x01, 0x41, 0x20, 0x00, 0x00, 0x64, 0x00, 0x05, 0xCB]) (at'
      { rex with chk7eDigiAfterLength := true } [] 0x01 0x00)) = some ⟨.ok, .feed [] [] false⟩ :=
      by decide +kernel

/-- RST-1. -/
theorem test_reset :
    registers (exec .reset (at' rex [0x7E, 0x00, 0x02] 0x02 0x01)) = some ([], 0x02, 0x01) := by decide

/-- R151. -/
theorem test_readState :
    reply (exec (.readState) (at' rex [0x7E] 0x02 0x01)) = some ⟨.ok, .state 0x02 0x01 [0x7E]⟩ :=
      by decide +kernel

/-- R22, R24: reserved bits read 0. -/
theorem test_readState_reserved :
    reply (exec (.readState) (at' rex [] 0xFE 0xFE)) = some ⟨.ok, .state 0x02 0x00 []⟩ :=
      by decide +kernel

/-- SV-1. -/
theorem test_setVariant :
    registers (exec (.setVariant 0x02) (at' rex [] 0x01 0x00)) = some ([], 0x02, 0x00) := by decide

/-- SV-3. -/
theorem test_setVariant_reserved :
    reply (exec (.setVariant 0x03) (at' rex [] 0x02 0x00)) = some ⟨.errOperand, .infoByte 0x03⟩ :=
      by decide +kernel

/-- CFG-1. -/
theorem test_writeCfg : registers (exec (.writeCfg 0x01) rexReset) = some ([], 0x00, 0x01) := by decide

/-- CFG-3. -/
theorem test_writeCfg_reserved :
    reply (exec (.writeCfg 0x80) rexReset) = some ⟨.errOperand, .infoByte 0x80⟩ := by decide +kernel

/-- DEC-2: the last field is truncated and the others stand. -/
theorem test_decode_fields :
    (record (exec (.decode [0xFE, 0x0C, 0x44, 0x81, 0x12, 0x34, 0x01, 0x02, 0x03, 0x00, 0x01, 0x41,
      0x20, 0x00, 0x00, 0x64, 0xEB]) rexReset)).map (fun d => (d.flags, d.fields.map
      DecodedField.value)) = some (0x00, [some (.f32 0x4024000000000000), some (.uint 100), none]) :=
      by decide +kernel

/-- DEC-8: a Digi frame sliced by the LoRa layout. -/
theorem test_decode_wrong_variant :
    (record (exec (.decode [0x7E, 0x00, 0x18, 0x90, 0x00, 0x13, 0xA2, 0x00, 0x40, 0x8B, 0x2C, 0x11,
      0xFF, 0xFE, 0x01, 0x01, 0x02, 0x03, 0x00, 0x01, 0x41, 0x20, 0x00, 0x00, 0x64, 0x00, 0x05, 0xCB])
      (at' rex [] 0x02 0x00))).map (fun d => (d.flags, d.functionCode)) = some (0x10, some 0xA200) :=
      by decide +kernel

/-- ENC-3. -/
theorem test_buildAckData :
    reply (exec (.buildAckData (some fe)) rexReset) = some ⟨.ok, .frame [0xFE, 0x07, 0x44, 0x81, 0x12,
      0x34, 0x01, 0x02, 0x03, 0x00, 0x81, 0x65]⟩ := by decide +kernel

/-- ENC-4. -/
theorem test_buildAckInfo :
    reply (exec (.buildAckInfo (some lo)) rexReset) = some ⟨.ok, .frame [0x7E, 0x00, 0x05, 0x01, 0x02,
      0x03, 0x00, 0x82, 0x72]⟩ := by decide +kernel

/-- ENC-13. -/
theorem test_buildConnect :
    reply (exec (.buildConnect (some di) 0x01) rexReset) = some ⟨.ok, .frame [0x7E, 0x00, 0x12, 0x90,
      0x00, 0x13, 0xA2, 0x00, 0x40, 0x8B, 0x2C, 0x11, 0xFF, 0xFE, 0x01, 0x01, 0x02, 0x03, 0x00, 0x10,
      0x01, 0x8B]⟩ := by decide +kernel

/-- ENC-8. -/
theorem test_buildDisconnect :
    reply (exec (.buildDisconnect (some fe) 0x01) rexReset) = some ⟨.ok, .frame [0xFE, 0x08, 0x44, 0x81,
      0x12, 0x34, 0x01, 0x02, 0x03, 0x00, 0x11, 0x01, 0xFB]⟩ := by decide +kernel

/-- ENC-19. -/
theorem test_buildDescribe :
    reply (exec (.buildDescribe (some lo) [0x50, 0x38, 0x30, 0x30] [0x41, 0x31, 0x32, 0x33] [0x36, 0x37]
      [0x64, 0x32] [0x50, 0x54, 0x2D, 0x31]) rexReset) = some ⟨.ok, .frame [0x7E, 0x00, 0x15, 0x01,
      0x02, 0x03, 0x00, 0x20, 0x50, 0x38, 0x30, 0x30, 0x41, 0x31, 0x32, 0x33, 0x36, 0x37, 0x64, 0x32,
      0x50, 0x54, 0x2D, 0x31, 0x00]⟩ := by decide +kernel

/-- ENC-10. -/
theorem test_buildCalibrate :
    reply (exec (.buildCalibrate (some fe) 0x02 [0x6B, 0x50, 0x61, 0x20] 0x3FF8000000000000) rexReset) =
      some ⟨.ok, .frame [0xFE, 0x10, 0x44, 0x81, 0x12, 0x34, 0x01, 0x02, 0x03, 0x00, 0x21, 0x02, 0x6B,
      0x50, 0x61, 0x20, 0x3F, 0xC0, 0x00, 0x00, 0x55]⟩ := by decide +kernel

/-- ENC-E1. -/
theorem test_buildConnect_no_context :
    reply (exec (.buildConnect none 0x01) rexReset) = some ⟨.errPrecondition, .none⟩ :=
      by decide +kernel

/-- ENC-E4. -/
theorem test_buildCalibrate_unit_width :
    reply (exec (.buildCalibrate (some lo) 0x02 [0x6B, 0x50, 0x61] 0x3FF8000000000000) rexReset) = some
      ⟨.errOperand, .none⟩ := by decide +kernel

/-- ENC-E6. -/
theorem test_buildDescribe_length :
    reply (exec (.buildDescribe (some fe) [0x50, 0x38, 0x30, 0x30] [0x41, 0x31, 0x32, 0x33] [0x36, 0x37]
      [0x64, 0x32] (List.replicate 240 0x20)) (at'
      { rex with fe := { rexKey 0 with descWidths := ⟨4, 4, 2, 2, 240⟩ } } [] 0x00 0x00)) = some
      ⟨.errLength, .infoLength 259⟩ := by decide +kernel

/-- CHK-2. -/
theorem test_chkXor :
    reply (exec (.chkXor [0x24, 0x5F, 0x01, 0x02, 0x03]) rexReset) = some ⟨.ok, .chk 0x7B⟩ :=
      by decide +kernel

/-- CHK-1. -/
theorem test_chkXor_empty :
    reply (exec (.chkXor []) rexReset) = some ⟨.ok, .chk 0x00⟩ := by decide +kernel

/-- CHK-9. -/
theorem test_chkCsum :
    reply (exec (.chkCsum [0x80, 0x80, 0x80]) rexReset) = some ⟨.ok, .chk 0x7F⟩ := by decide +kernel

/-- CHK-6. -/
theorem test_chkCsum_empty :
    reply (exec (.chkCsum []) rexReset) = some ⟨.ok, .chk 0xFF⟩ := by decide +kernel

/-- F32D-11. -/
theorem test_f32Decode_subnormal :
    reply (exec (.f32Decode 0x007FFFFF) rexReset) = some ⟨.ok, .bin64 0x380FFFFFC0000000⟩ :=
      by decide +kernel

/-- FLG-3. -/
theorem test_f32Decode_legacy :
    reply (exec (.f32Decode 0x3FC00000) (at' rex [] 0x00 0x01)) = some ⟨.ok, .bin64 0x4008000000000000⟩
      := by decide +kernel

/-- F32E-14. -/
theorem test_f32Encode_tie :
    reply (exec (.f32Encode 0x3FF0000030000000) rexReset) = some ⟨.ok, .bin32 0x3F800002⟩ :=
      by decide +kernel

/-- F32E-19. -/
theorem test_f32Encode_carry :
    reply (exec (.f32Encode 0x380FFFFFE0000000) rexReset) = some ⟨.ok, .bin32 0x00800000⟩ :=
      by decide +kernel

/-- R88. -/
theorem test_assembler_text :
    assemblerText (.setVariant 0x02) = "SET_VARIANT LORA" ∧ assemblerText (.chkXor [0x24, 0x5F]) =
      "CHK_XOR 24 5F" := by decide +kernel

/-- A table word is the first instruction after reset: RESET, and SET_VARIANT with `imm8` 0x02. -/
theorem test_first_step :
    reply (step (State.reset.withFetchWord 8 0x02)) = some ⟨.ok, .none⟩ ∧ registers (step
      (State.reset.withFetchWord 16 0x0208)) = some ([], 0x02, State.reset.cfg) := ⟨by decide, rfl⟩
/-! ### Witnesses: what the hypotheses of each statement can be -/

/-- Frame A of spec/95_test_vectors.md. -/
def frameA : Bytes := [0xFE, 0x00, 0x01, 0x02, 0x03]
/-- Frame C. -/
def frameC : Bytes := [0x7E, 0x00, 0x02, 0x10, 0x20, 0xCD]
/-- Frame F1. -/
def frameF1 : Bytes :=
  [0xFE, 0x0E, 0x44, 0x81, 0x12, 0x34, 0x01, 0x02, 0x03, 0x00, 0x01, 0x41, 0x20, 0x00, 0x00, 0x64, 0x00,
    0x05, 0xEC]
/-- Frame F2, whose last field is cut off. -/
def frameF2 : Bytes :=
  [0xFE, 0x0C, 0x44, 0x81, 0x12, 0x34, 0x01, 0x02, 0x03, 0x00, 0x01, 0x41, 0x20, 0x00, 0x00, 0x64, 0xEB]
/-- Frame F4, of LORA. -/
def frameF4 : Bytes :=
  [0x7E, 0x00, 0x0C, 0x01, 0x02, 0x03, 0x00, 0x01, 0x41, 0x20, 0x00, 0x00, 0x64, 0x00, 0x05, 0x22]

/-- This state with these requests at the port. -/
def withInbox (s : State) (inbox : List Bytes) : State := { s with inbox := inbox }

theorem validA (v : BitVec 2) : ValidFrame rex v frameA :=
  .inl ⟨0x00, [0x01, 0x02], 0x03, rfl, rfl, rfl⟩

theorem validC (v : BitVec 2) : ValidFrame rex v frameC :=
  .inr ⟨0x00, 0x02, [0x10, 0x20], 0xCD, rfl, rfl, by
    rw [if_neg (by simp [rex, rexWith])]
    decide⟩

theorem inv_rexReset : rexReset.Inv := ⟨by decide, by decide, fun _ h => nomatch h⟩

/-- ResetValues: each mode that FLOAT_MODE_RESET can be is one of its two clauses. -/
theorem witness_ResetValues :
    State.reset.config.floatModeReset = .ieee ∨ State.reset.config.floatModeReset = .legacy := by
  cases State.reset.config.floatModeReset <;> simp

/-- StepKeepsInvariant: every SESSION value the invariant allows, CFG at its largest, CARRY at CARRY_CAP. -/
theorem witness_StepKeepsInvariant :
    ∀ session ∈ [0x00#8, 0x01#8, 0x02#8], ∃ s t : State, s.session = session ∧ s.cfg = 0x01 ∧
      s.config.carryCap = some s.carry.length ∧ s.Inv ∧ step s = .next t := by
  intro session h
  refine ⟨withInbox (at' { rex with carryCap := some 1 } [0x7E] session 0x01) [[0x02]], _, rfl, rfl, rfl,
    ⟨?_, .inr rfl, ?_⟩, rfl⟩
  · show session = 0x00 ∨ session = 0x01 ∨ session = 0x02
    simpa using h
  · rintro cap h
    cases h
    exact le_rfl

/-- The longest byte string that a `str16` carries. -/
def longest16 : Bytes := List.replicate 65535 0x20

theorem longest16_length : longest16.length = 65535 := List.length_replicate ..

/-- DecodeOfEncode: a text at the longest length a `str16` admits. -/
theorem witness_DecodeOfEncode :
    (Instr.buildCalibrate (some fe) 0xFF longest16 0xFFFFFFFFFFFFFFFF).wf = true := by
  simp [Instr.wf, ctxWf, Context.wf, Bytes.fits16, longest16_length, fe]

theorem witness_DecodedRequestIsItsEncoding : Sys2Proof.decode [0x09, 0xFF] = .ok (.writeCfg 0xFF) := by
  decide

theorem witness_StepRunsDecodedRequest :
    (withInbox rexReset [[0x02], [0x05]]).inbox = [0x02] :: [[0x05]] ∧
      Sys2Proof.decode [0x02] = .ok .reset := by decide

theorem witness_IdlePortHoldsState : State.reset.inbox = [] := rfl

theorem witness_EveryRequestIsAnswered : (withInbox rexReset [[], [0xFF]]).inbox = [] :: [[0xFF]] := rfl

/-- IllegalOpcodeIsRefused: the ends of every range of R85. -/
theorem witness_IllegalOpcodeIsRefused :
    ∀ n ∈ [0x00, 0x04, 0x07, 0x0A, 0x0F, 0x11, 0x1F, 0x26, 0x2F, 0x32, 0x3F, 0x42, 0xFF],
      IllegalOpcode (BitVec.ofNat 8 n).toNat ∧
        (withInbox rexReset [[BitVec.ofNat 8 n]]).inbox = (BitVec.ofNat 8 n :: []) :: [] := by
  unfold IllegalOpcode
  decide

/-- MalformedRequestIsRefused: RESET with a byte left over. -/
theorem witness_MalformedRequestIsRefused :
    (0x02 : Byte) ∈ legalOpcodes ∧ (∀ i : Instr, i.wf = true → encode i ≠ 0x02 :: [0x00]) ∧
      (withInbox rexReset [[0x02, 0x00]]).inbox = (0x02 :: [0x00]) :: [] := by
  refine ⟨by decide, fun i _ h => ?_, rfl⟩
  cases i <;> simp [encode, opcodeByte, operandBytes] at h

/-- RefusalWritesNoState: one request for each of the four refusals. -/
theorem witness_RefusalWritesNoState :
    ∀ p ∈ [([0x05], Status.errIllegalOp), ([0x02, 0x00], .errOperand), ([0x22, 0x00, 0x01], .errPrecondition),
        (encode (.buildAckData (some fe)), .errLength)],
      (reply (step (withInbox
        (at' { rex with fe := { rexKey 0 with ackDataPayload := List.replicate 249 0 } } [0x7E] 0x01 0x01)
        [p.1]))).map Response.status = some p.2 := by decide +kernel

/-- StatusesComeFromTheirOperations: an operation for each status it speaks of. -/
theorem witness_StatusesComeFromTheirOperations :
    (reply (exec (.buildAckInfo none) rexReset)).map Response.status = some .errPrecondition ∧
      (reply (exec (.setVariant 0xFF) rexReset)).map Response.status = some .errOperand ∧
      (reply (exec (.buildConnect (some { lo with group := [] }) 0x00) rexReset)).map Response.status =
        some .errOperand ∧
      (reply (exec (.buildAckInfo (some fe))
        (at' { rex with fe := { rexKey 0 with ackInfoPayload := List.replicate 249 0 } } [] 0x00 0x00))).map
        Response.status = some .errLength ∧
      (reply (exec (.feed [0x7E]) (at' { rex with carryCap := some 0 } [] 0x00 0x00))).map Response.status =
        some .warnCarryTruncated := by decide +kernel

/-- OnlyOwnersWriteState: an instruction of no owner, and the owner of each register. -/
theorem witness_OnlyOwnersWriteState :
    (∃ t, exec (.chkXor []) rexReset = .next t) ∧ (∀ x, Instr.chkXor [] ≠ .feed x) ∧
      Instr.chkXor [] ≠ .reset ∧ (∀ v, Instr.chkXor [] ≠ .setVariant v) ∧
      (∀ v, Instr.chkXor [] ≠ .writeCfg v) :=
  ⟨⟨_, rfl⟩, by simp, by simp, by simp, by simp⟩

theorem witness_RequestsTakeEffectInOrder :
    (∀ i ∈ [Instr.writeCfg 0x01, .f32Decode 0x3FC00000], i.wf = true) ∧
      (withInbox rexReset [[0x09, 0x01], [0x40, 0x3F, 0xC0, 0x00, 0x00], [0x02]]).inbox =
        [Instr.writeCfg 0x01, .f32Decode 0x3FC00000].map encode ++ [[0x02]] := by decide

/-- RepeatedOperationAnswersTheSame: F32_DECODE that makes a draw, and one whose zero is no draw. -/
theorem witness_RepeatedOperationAnswersTheSame :
    (∀ x, Instr.f32Decode 0xBF800000 ≠ .feed x) ∧
      (∃ t, exec (.f32Decode 0xBF800000) (at' rex [] 0x00 0x01) = .next t) ∧
      ∃ t, exec (.f32Decode 0xBFC00000) (at' (rexWith ⟨0, 0⟩) [] 0x00 0x01) = .next t ∧
        t.draws = (at' (rexWith ⟨0, 0⟩) [] 0x00 0x01).draws :=
  ⟨by simp, ⟨_, rfl⟩, _, rfl, by decide +kernel⟩

/-- CarryDoesNotInfluenceOtherOperations: two states that differ in CARRY and at the port. -/
theorem witness_CarryDoesNotInfluenceOtherOperations :
    (∀ x, Instr.decode frameF4 ≠ .feed x) ∧ Instr.decode frameF4 ≠ .readState ∧
      (at' rex [] 0x02 0x00).config = (withInbox (at' rex [0x7E] 0x02 0x00) [[0x02]]).config ∧
      (at' rex [] 0x02 0x00).session = (withInbox (at' rex [0x7E] 0x02 0x00) [[0x02]]).session ∧
      (at' rex [] 0x02 0x00).cfg = (withInbox (at' rex [0x7E] 0x02 0x00) [[0x02]]).cfg ∧
      (at' rex [] 0x02 0x00).draws = (withInbox (at' rex [0x7E] 0x02 0x00) [[0x02]]).draws ∧
      ∃ t, exec (.decode frameF4) (withInbox (at' rex [0x7E] 0x02 0x00) [[0x02]]) = .next t :=
  ⟨by simp, by simp, rfl, rfl, rfl, rfl, _, rfl⟩

/-- BootSetsUpConnection: both modes with the last variant value. -/
theorem witness_BootSetsUpConnection :
    (0x02 : Byte).toNat ≤ 2 ∧ ∀ m ∈ [FloatMode.ieee, .legacy],
      (withInbox rexReset [[0x09, if m = .ieee then 0x00 else 0x01], [0x02], [0x08, 0x02]]).inbox =
        [[0x09, if m = .ieee then 0x00 else 0x01], [0x02], [0x08, 0x02]] ++ [] := by decide

/-- OneByteChangeChangesChecksums: the last byte. -/
theorem witness_OneByteChangeChangesChecksums :
    2 < [0x80#8, 0x80#8, 0x80#8].length ∧ [0x80#8, 0x80#8, 0x80#8][2]? ≠ some 0x81 := by decide

/-- CorruptFrameIsNotEmitted: the length byte and the checksum byte of A. -/
theorem witness_CorruptFrameIsNotEmitted :
    rexReset.carry = [] ∧ ValidFrame rexReset.config (rexReset.session.extractLsb' 0 2) frameA ∧
      (1 ≤ 1 ∧ 1 < frameA.length ∧ frameA[1]? ≠ some 0x01) ∧
      (1 ≤ 4 ∧ 4 < frameA.length ∧ frameA[4]? ≠ some 0x00) :=
  ⟨rfl, validA _, by decide, by decide⟩

/-- F32DecodeIeeeIsExact: the mode, and a pattern for each clause at its bound. -/
theorem witness_F32DecodeIeeeIsExact :
    rexReset.cfg.getLsbD 0 = false ∧ Finite32 0x7F7FFFFF ∧
      (0x7F800000 : Bin32).toNat % 2 ^ 31 = 0x7F800000 ∧
      0x7F800000 < (0x7F800001 : Bin32).toNat % 2 ^ 31 := by
  unfold Finite32
  decide

/-- F32DecodeLegacyZero: 1.0 of each sign, and a nonzero fraction with a power that is zero. -/
theorem witness_F32DecodeLegacyZero :
    (at' rex [] 0x00 0x01).cfg.getLsbD 0 = true ∧ (0x3F800000 : Bin32).toNat % 2 ^ 23 = 0 ∧
      (0x3F800000 : Bin32).msb = false ∧ (0xBF800000 : Bin32).toNat % 2 ^ 23 = 0 ∧
      (0x3FC00000 : Bin32).toNat % 2 ^ 23 ≠ 0 ∧
      (legacyPow2 (rexWith ⟨0, 0⟩) ((0x3FC00000 : Bin32).extractLsb' 23 8)).num = 0 := by decide +kernel

theorem legacyPow2_rexWith (p : Ratio) (e : BitVec 8) : legacyPow2 (rexWith p) e = p := by
  simp [legacyPow2, rexWith]

/-- 1.5 by the product of R124. -/
theorem legacyProduct_pos (p : Ratio) :
    legacyProduct (rexWith p) 0x3FC00000 = 3 / 2 * (p.num / (p.denPred + 1)) := by
  simp only [legacyProduct, legacyPow2_rexWith, show (0x3FC00000 : Bin32).msb = false from by decide,
    show (0x3FC00000 : Bin32).toNat % 2 ^ 23 = 2 ^ 22 from by decide]
  norm_num

/-- -1.5 by the product of R124. -/
theorem legacyProduct_neg (p : Ratio) :
    legacyProduct (rexWith p) 0xBFC00000 = -(3 / 2) * (p.num / (p.denPred + 1)) := by
  simp only [legacyProduct, legacyPow2_rexWith, show (0xBFC00000 : Bin32).msb = true from by decide,
    show (0xBFC00000 : Bin32).toNat % 2 ^ 23 = 2 ^ 22 from by decide]
  norm_num

/-- F32DecodeLegacyIsNearest: a product in the range, and the least magnitude that gives infinity. -/
theorem witness_F32DecodeLegacyIsNearest :
    (at' rex [] 0x00 0x01).cfg.getLsbD 0 = true ∧ (0x3FC00000 : Bin32).toNat % 2 ^ 23 ≠ 0 ∧
      (0xBFC00000 : Bin32).toNat % 2 ^ 23 ≠ 0 ∧
      (legacyProduct rex 0x3FC00000 ≠ 0 ∧ |legacyProduct rex 0x3FC00000| < 2 ^ 1024 - 2 ^ 970) ∧
      legacyProduct (rexWith ⟨2 * (2 ^ 1024 - 2 ^ 970), 2⟩) 0xBFC00000 ≠ 0 ∧
      2 ^ 1024 - 2 ^ 970 ≤ |legacyProduct (rexWith ⟨2 * (2 ^ 1024 - 2 ^ 970), 2⟩) 0xBFC00000| := by
  refine ⟨by decide, by decide, by decide, ?_⟩
  rw [rex, legacyProduct_pos, legacyProduct_neg]
  have h : (2 : ℚ) ^ 1024 = 2 ^ 54 * 2 ^ 970 := by rw [← pow_add]
  have h1 : (1 : ℚ) ≤ 2 ^ 970 := one_le_pow₀ (by norm_num)
  norm_num
  rw [h]
  generalize (2 : ℚ) ^ 970 = x at h1 ⊢
  exact ⟨by linarith, by intro h0; linarith, by have := neg_le_abs (x - 2 ^ 54 * x); linarith⟩

/-- F32EncodeIsNearest: the largest finite binary32 as a binary64. -/
theorem witness_F32EncodeIsNearest :
    Finite64 0x47EFFFFFE0000000 ∧ |value64 0x47EFFFFFE0000000| < 2 ^ 128 - 2 ^ 103 := by
  refine ⟨by unfold Finite64; decide, ?_⟩
  simp only [value64, show (0x47EFFFFFE0000000 : Bin64).msb = false from by decide,
    show (0x47EFFFFFE0000000 : Bin64).toNat / 2 ^ 52 % 2048 = 1150 from by decide,
    show (0x47EFFFFFE0000000 : Bin64).toNat % 2 ^ 52 = 0xFFFFFE0000000 from by decide]
  norm_num

/-- F32EncodeSpecialInputs: an input for each clause, the two bounds themselves among them. -/
theorem witness_F32EncodeSpecialInputs :
    (0xFFF0000000000000 : Bin64).toNat % 2 ^ 63 = 0x7FF * 2 ^ 52 ∧
      0x7FF * 2 ^ 52 < (0xFFF0000000000001 : Bin64).toNat % 2 ^ 63 ∧
      (0x8000000000000000 : Bin64).toNat % 2 ^ 63 = 0 ∧
      (Finite64 0x47EFFFFFF0000000 ∧ (2 ^ 24 - 1 / 2) * 2 ^ 104 ≤ |value64 0x47EFFFFFF0000000|) ∧
      (Finite64 0xB690000000000000 ∧ |value64 0xB690000000000000| ≤ 2 ^ (-150 : ℤ)) := by
  refine ⟨by decide, by decide, by decide, ⟨by unfold Finite64; decide, ?_⟩,
    by unfold Finite64; decide, ?_⟩
  · simp only [value64, show (0x47EFFFFFF0000000 : Bin64).msb = false from by decide,
      show (0x47EFFFFFF0000000 : Bin64).toNat / 2 ^ 52 % 2048 = 1150 from by decide,
      show (0x47EFFFFFF0000000 : Bin64).toNat % 2 ^ 52 = 0xFFFFFF0000000 from by decide]
    norm_num
  · simp only [value64, show (0xB690000000000000 : Bin64).msb = true from by decide,
      show (0xB690000000000000 : Bin64).toNat / 2 ^ 52 % 2048 = 873 from by decide,
      show (0xB690000000000000 : Bin64).toNat % 2 ^ 52 = 0 from by decide]
    norm_num [abs_of_neg]

/-- FloatRoundTrip: the mode, and both sides of its bound. -/
theorem witness_FloatRoundTrip :
    rexReset.cfg.getLsbD 0 = false ∧ 0x7F800000 < (0xFF800001 : Bin32).toNat % 2 ^ 31 ∧
      ¬ 0x7F800000 < (0xFF800000 : Bin32).toNat % 2 ^ 31 := by decide

/-- WriteCfgWritesFloatMode: the ends of its two ranges. -/
theorem witness_WriteCfgWritesFloatMode :
    (0x00 : Byte).toNat ≤ 1 ∧ (0x01 : Byte).toNat ≤ 1 ∧ 1 < (0x02 : Byte).toNat ∧
      1 < (0xFF : Byte).toNat := by decide

/-- FeedBoundsCarry: a bound of 0. -/
theorem witness_FeedBoundsCarry :
    (at' { rex with carryCap := some 0 } [0x7E] 0x00 0x00).config.carryCap = some 0 := rfl

/-- A scan that finds one frame behind one byte of junk. -/
theorem greedyScan_junk_frame : GreedyScan rex 0b00 (0x55 :: frameA) [([0x55], frameA)] [] := by
  refine .frame [0x55] frameA [] [] [] (validA _) ?_ (.done [] ?_)
  · rintro i hi g (⟨_, _, _, rfl, -⟩ | ⟨_, _, _, _, rfl, -⟩) hp <;>
      (obtain rfl : i = 0 := by simpa using hi) <;> simp at hp
  · rintro i g (⟨_, _, _, rfl, -⟩ | ⟨_, _, _, _, rfl, -⟩) hp <;> simp at hp

/-- FeedSplitsWhereMarkersResolve: junk that is no marker before the first FEED's frame; P14 false, so any second SESSION. -/
theorem witness_FeedSplitsWhereMarkersResolve :
    rexReset.config.carryCap = none ∧ rexReset.config.chk7eDigiAfterLength = false ∧
      GreedyScan rexReset.config (rexReset.session.extractLsb' 0 2) (rexReset.carry ++ 0x55 :: frameA)
        [([0x55], frameA)] [] ∧
      (∀ pre junk f post, [([0x55], frameA)] = pre ++ (junk, f) :: post → ∀ i < junk.length,
        ¬ Unresolvable ((rexReset.carry ++ 0x55 :: frameA).drop ((segBytes pre).length + i))) := by
  refine ⟨rfl, rfl, greedyScan_junk_frame, ?_⟩
  rintro pre junk f post h i hi
  obtain ⟨rfl, h'⟩ | ⟨_, rfl, h'⟩ := List.cons_eq_append_iff.1 h
  · simp only [List.cons.injEq, Prod.mk.injEq] at h'
    obtain ⟨⟨rfl, rfl⟩, rfl⟩ := h'
    obtain rfl : i = 0 := by simpa using hi
    show ¬ Unresolvable (0x55 :: frameA)
    simp [Unresolvable]
  · simp at h'

/-- Where the condition of R149 does not hold the two runs differ (SRC-5): the 7E candidate absorbs A. -/
theorem split_differs_without_condition :
    reply (exec (.feed [0x7E, 0x00, 0x05, 0xFE, 0x00, 0x01, 0x02, 0x03]) rexReset) =
        some ⟨.ok, .feed [frameA] [0x7E, 0x00, 0x05] false⟩ ∧
      reply (exec (.feed [0x7E, 0x00, 0x05, 0xFE, 0x00, 0x01, 0x02, 0x03, 0xF6]) rexReset) =
        some ⟨.ok, .feed [[0x7E, 0x00, 0x05, 0xFE, 0x00, 0x01, 0x02, 0x03, 0xF6]] [] false⟩ := by
  decide +kernel

/-- FeedSplitsWhereMarkersResolve with P14 true: a second FEED under the first one's variant, reserved bits apart. -/
theorem witness_FeedSplitsWhereMarkersResolve_P14 :
    let s := at' { rex with chk7eDigiAfterLength := true } [] 0x01 0x00
    s.config.carryCap = none ∧ s.config.chk7eDigiAfterLength = true ∧
      (0xFD : Byte).extractLsb' 0 2 = s.session.extractLsb' 0 2 ∧
      GreedyScan s.config (s.session.extractLsb' 0 2) (s.carry ++ []) [] [] := by
  refine ⟨rfl, rfl, by decide, .done [] ?_⟩
  rintro i g (⟨_, _, _, rfl, -⟩ | ⟨_, _, _, _, rfl, -⟩) hp <;> simp at hp

/-- ValidFrameIsEmitted, ResetClearsOnlyCarry: the smallest frame of each family (R153). -/
theorem witness_ValidFrameIsEmitted :
    rexReset.carry = [] ∧
      ValidFrame rexReset.config (rexReset.session.extractLsb' 0 2) [0xFE, 0x00, 0x00, 0x00, 0x00] ∧
      ValidFrame rexReset.config (rexReset.session.extractLsb' 0 2) [0x7E, 0x00, 0x00, 0xFF] :=
  ⟨rfl, .inl ⟨0x00, [0x00, 0x00], 0x00, rfl, rfl, rfl⟩, .inr ⟨0x00, 0x00, [], 0xFF, rfl, rfl, rfl⟩⟩

/-- ValidFrame with P14 true and VARIANT DIGI: the region starts after the length field. -/
theorem witness_ValidFrame_after_length :
    ValidFrame { rex with chk7eDigiAfterLength := true } 0b01 [0x7E, 0x00, 0x02, 0x10, 0x20, 0xCF] :=
  .inr ⟨0x00, 0x02, [0x10, 0x20], 0xCF, rfl, rfl, rfl⟩

/-- ReadStateReturnsState: its last clause, in a state that meets the invariant. -/
theorem witness_ReadStateReturnsState : rexReset.Inv := inv_rexReset

/-- SetVariantWritesVariant: the ends of its two ranges. -/
theorem witness_SetVariantWritesVariant :
    (0x00 : Byte).toNat ≤ 2 ∧ (0x02 : Byte).toNat ≤ 2 ∧ 2 < (0x03 : Byte).toNat ∧
      2 < (0xFF : Byte).toNat := by decide

/-- DecodeOfNoFrame: no byte, and a first byte that is no marker. -/
theorem witness_DecodeOfNoFrame :
    (([] : Bytes).head? ≠ some 0xFE ∧ ([] : Bytes).head? ≠ some 0x7E) ∧
      [0x00#8, 0xFE#8].head? ≠ some 0xFE ∧ [0x00#8, 0xFE#8].head? ≠ some 0x7E := by decide

/-- REX with a LEN_SET of LORA that leaves out the length 4. -/
def rexLenSet : Config := { rex with variantRules := [⟨0b10, 4, none⟩] }

/-- DecodeKeyFollowsFlag: the default selector at every flag, and a configured one at a length that it
names and at the next. -/
theorem witness_DecodeKeyFollowsFlag :
    (SelectsVariant rex 0b00 4 none ∧ SelectsVariant rex 0b01 4 (some .digi) ∧
      SelectsVariant rex 0b10 4 (some .lora)) ∧
      SelectsVariant rexLenSet 0b10 4 none ∧ SelectsVariant rexLenSet 0b10 5 (some .lora) := by
  refine ⟨⟨.inr ?_, .inr ?_, .inr ?_⟩, .inl ⟨[], ⟨0b10, 4, none⟩, [], rfl, by simp, rfl, rfl, rfl⟩,
    .inr ?_⟩ <;> decide

/-- R173: that LEN_SET makes a frame of the length it leaves out unresolved. -/
theorem test_decode_len_set :
    (record (exec (.decode [0x7E, 0x00, 0x00, 0xFF]) (at' rexLenSet [] 0x02 0x00))).map DecodedFrame.flags =
      some 0x02 := by decide +kernel

/-- DecodeReadsFixedParts: the length field at the last byte, and right before it, in each family. -/
theorem witness_DecodeReadsFixedParts :
    ([0x00#8].length ≤ lengthBytesOf .fe ∧ lengthBytesOf .fe < [0x00#8, 0x00].length) ∧
      [0x00#8, 0x00].length ≤ lengthBytesOf .sevenE ∧
      lengthBytesOf .sevenE < [0x00#8, 0x00, 0x00].length := by decide

/-- DecodeSlicesHeader, DecodedRegionsMakeFrame: FE frames whose last byte stands right before the
content start and at it. -/
theorem witness_DecodeSlicesHeader :
    ((record (exec (.decode [0xFE, 0x01, 0x44, 0x81, 0x12, 0xD6]) rexReset)).bind DecodedFrame.key =
        some .fe ∧ [0xFE#8, 0x01, 0x44, 0x81, 0x12, 0xD6].length ≤ contentIndex rex .fe) ∧
      (record (exec (.decode [0xFE, 0x02, 0x44, 0x81, 0x12, 0x34, 0xE1]) rexReset)).bind
        DecodedFrame.key = some .fe ∧
      contentIndex rex .fe < [0xFE#8, 0x02, 0x44, 0x81, 0x12, 0x34, 0xE1].length := by decide +kernel

/-- DecodeReadsContentPrefix: a LORA content one byte short of the function code, one of its exact
length with a code the table has not, and one with a code it has. -/
theorem witness_DecodeReadsContentPrefix :
    ((record (exec (.decode [0x7E, 0x00, 0x04, 0x01, 0x02, 0x03, 0x00, 0xF5]) (at' rex [] 0x02 0x00))).bind
        DecodedFrame.content = some [0x01, 0x02, 0x03, 0x00] ∧
      [0x01#8, 0x02, 0x03, 0x00].length < 1 + 1 + 1 + 2) ∧
    ((record (exec (.decode [0x7E, 0x00, 0x05, 0x01, 0x02, 0x03, 0x05, 0xFF, 0xF0])
        (at' rex [] 0x02 0x00))).bind DecodedFrame.content = some [0x01, 0x02, 0x03, 0x05, 0xFF] ∧
      1 + 1 + 1 + 2 ≤ [0x01#8, 0x02, 0x03, 0x05, 0xFF].length ∧ contentTable rex .lora 0x05FF = none) ∧
    (record (exec (.decode frameF4) (at' rex [] 0x02 0x00))).bind DecodedFrame.key = some .lora ∧
    (contentTable rex .lora 0x0001).isSome := by decide +kernel

/-- DecodeExtractsFields: F1, all fields whole, and F2, the last field cut off. -/
theorem witness_DecodeExtractsFields :
    ∀ fr ∈ [frameF1, frameF2], ∃ out c fc specs, record (exec (.decode fr) rexReset) = some out ∧
      out.key = some .fe ∧ out.content = some c ∧ out.functionCode = some fc ∧
      contentTable rex .fe fc = some specs := by
  intro fr h
  obtain rfl | rfl : fr = frameF1 ∨ fr = frameF2 := by simpa using h
  · exact ⟨_, _, _, _, rfl, rfl, rfl, rfl, rfl⟩
  · exact ⟨_, _, _, _, rfl, rfl, rfl, rfl, rfl⟩

/-- FedFrameHasItsLength: a frame of each family. -/
theorem witness_FedFrameHasItsLength :
    ∃ t, exec (.feed (frameA ++ frameC)) rexReset = .next t ∧
      t.response = some ⟨.ok, .feed [frameA, frameC] [] false⟩ :=
  ⟨_, rfl, by decide +kernel⟩

/-- DecodeDoesNotCheckChecksum: the shortest body of each family. -/
theorem witness_DecodeDoesNotCheckChecksum :
    [0xFE#8].head? = some 0xFE ∧ [0x7E#8].head? = some 0x7E := by decide

theorem witness_BuildWithoutContextIsRefused :
    contextOf (.buildDescribe none [0x50] [] [] [] []) = some none := rfl

/-- BuildOfWrongWidthIsRefused: an address one byte short (ENC-E2). -/
theorem witness_BuildOfWrongWidthIsRefused :
    buildOf (.buildConnect (some { fe with address := [0x12] }) 0x01) =
        some (.connect, { fe with address := [0x12] }) ∧
      ¬ FitsWidths rexReset.config .connect { fe with address := [0x12] } := by
  unfold FitsWidths
  decide +kernel

/-- BuildOfWrongTextIsRefused: a text and a unit one byte short (ENC-E3, ENC-E4). -/
theorem witness_BuildOfWrongTextIsRefused :
    buildOf (.buildCalibrate (some lo) 0x02 [0x6B, 0x50, 0x61] 0) = some (.calibrate, lo) ∧
      ¬ TextsFit rexReset.config lo.key (.buildCalibrate (some lo) 0x02 [0x6B, 0x50, 0x61] 0) ∧
      buildOf (.buildDescribe (some lo) [] [] [] [] []) = some (.describe, lo) ∧
      ¬ TextsFit rexReset.config lo.key (.buildDescribe (some lo) [] [] [] [] []) := by
  unfold TextsFit
  decide +kernel

/-- A state with REX but an acknowledgement payload of this length for FE. -/
def withAckLength (n : Nat) : State :=
  at' { rex with fe := { rexKey 0 with ackDataPayload := List.replicate n 0 } } [] 0x00 0x00

/-- BuildOfOverlongFrameIsRefused: a length value of 256, one more than fits. -/
theorem witness_BuildOfOverlongFrameIsRefused :
    buildOf (.buildAckData (some fe)) = some (.ackData, fe) ∧
      FitsWidths (withAckLength 249).config .ackData fe ∧
      TextsFit (withAckLength 249).config fe.key (.buildAckData (some fe)) ∧
      builtLength (withAckLength 249).config .ackData fe
        (payloadOf (withAckLength 249).config fe.key (.buildAckData (some fe))) = lengthLimit fe.key + 1 := by
  unfold FitsWidths TextsFit
  decide +kernel

/-- BuildAcknowledgements: a length value of 255, the most that fits, and one of LORA. -/
theorem witness_BuildAcknowledgements :
    (FitsWidths (withAckLength 248).config .ackData fe ∧
      builtLength (withAckLength 248).config .ackData fe (ackDataPayload (withAckLength 248).config fe.key) =
        lengthLimit fe.key) ∧
      FitsWidths rexReset.config .ackInfo lo ∧
      builtLength rexReset.config .ackInfo lo (ackInfoPayload rexReset.config lo.key) ≤ lengthLimit lo.key := by
  unfold FitsWidths
  decide +kernel

theorem witness_BuildConnectAndDisconnect :
    (FitsWidths rexReset.config .connect di ∧
      builtLength rexReset.config .connect di [0xFF] ≤ lengthLimit di.key) ∧
      FitsWidths rexReset.config .disconnect fe ∧
      builtLength rexReset.config .disconnect fe [0x00] ≤ lengthLimit fe.key := by
  unfold FitsWidths
  decide +kernel

theorem witness_BuildDescribe :
    FitsWidths rexReset.config .describe lo ∧
      [0x50#8, 0x38, 0x30, 0x30].length = (descWidths rexReset.config lo.key).model ∧
      [0x41#8, 0x31, 0x32, 0x33].length = (descWidths rexReset.config lo.key).serial ∧
      [0x36#8, 0x37].length = (descWidths rexReset.config lo.key).ipRating ∧
      [0x64#8, 0x32].length = (descWidths rexReset.config lo.key).explosionGrade ∧
      [0x50#8, 0x54, 0x2D, 0x31].length = (descWidths rexReset.config lo.key).description ∧
      builtLength rexReset.config .describe lo ([0x50, 0x38, 0x30, 0x30] ++ [0x41, 0x31, 0x32, 0x33] ++
        [0x36, 0x37] ++ [0x64, 0x32] ++ [0x50, 0x54, 0x2D, 0x31]) ≤ lengthLimit lo.key := by
  unfold FitsWidths
  decide +kernel

theorem witness_BuildCalibrate :
    FitsWidths rexReset.config .calibrate di ∧
      [0x6B#8, 0x50, 0x61, 0x20].length = unitWidth rexReset.config di.key ∧
      ∀ w : Bin32, builtLength rexReset.config .calibrate di (0x02 :: ([0x6B, 0x50, 0x61, 0x20] ++ be 4 w.toNat)) ≤
        lengthLimit di.key := by
  refine ⟨by unfold FitsWidths; decide +kernel, by decide +kernel, fun w => ?_⟩
  have hl : (be 4 w.toNat).length = 4 := length_be ..
  simp [builtLength, builtContent, lengthLimit, di, rexReset, at', rex, rexWith, rexKey, hl]

/-- BuiltFrameIsFedBack, BuiltFrameDecodesBack: a frame of DIGI while VARIANT is DIGI, P14 true (ENC-E7),
and one of FE. -/
theorem witness_BuiltFrameIsFedBack :
    let s := at' { rex with chk7eDigiAfterLength := true } [] 0x01 0x00
    (∃ t f, buildOf (.buildConnect (some di) 0x01) = some (.connect, di) ∧
      exec (.buildConnect (some di) 0x01) s = .next t ∧ t.response = some ⟨.ok, .frame f⟩ ∧ s.carry = [] ∧
      (s.session.extractLsb' 0 2 = 0b01 ↔ di.key = .digi) ∧
      (variantSelect s.config (s.session.extractLsb' 0 2) f.length).map variantKey = some di.key) ∧
    ∃ t f, buildOf (.buildAckData (some fe)) = some (.ackData, fe) ∧
      exec (.buildAckData (some fe)) s = .next t ∧ t.response = some ⟨.ok, .frame f⟩ ∧ ¬ fe.key ≠ .fe :=
  ⟨⟨_, _, rfl, rfl, rfl, rfl, by decide, rfl⟩, ⟨_, _, rfl, rfl, rfl, by decide⟩⟩

/-- BuildSendsContextRegions: a frame of DIGI and one of LORA under the default. -/
theorem witness_BuildSendsContextRegions :
    rexReset.config.txCommandRules = [] ∧ rexReset.config.txUnparsedRules = [] ∧
      (∃ t f, buildOf (.buildConnect (some di) 0x01) = some (.connect, di) ∧
        exec (.buildConnect (some di) 0x01) rexReset = .next t ∧ t.response = some ⟨.ok, .frame f⟩) ∧
      ∃ t f, buildOf (.buildAckInfo (some lo)) = some (.ackInfo, lo) ∧
        exec (.buildAckInfo (some lo)) rexReset = .next t ∧ t.response = some ⟨.ok, .frame f⟩ :=
  ⟨rfl, rfl, ⟨_, _, rfl, rfl, rfl⟩, ⟨_, _, rfl, rfl, rfl⟩⟩

/-- RegistryMeetsItsChecks: an entry of the table, an entry behind others, and a code with none. -/
theorem witness_RegistryMeetsItsChecks :
    contentTable rex .digi 0x0002 = some [⟨"model", 5, .text 4⟩, ⟨"serial", 9, .text 4⟩] ∧
      (∃ pre e post, rex.contentEntries = pre ++ e :: post ∧ pre.length = 3 ∧ e.key = .digi ∧ e.fc = 0x0002 ∧
        ∀ e' ∈ pre, ¬ (e'.key = .digi ∧ e'.fc = 0x0002)) ∧
      ∀ e ∈ rex.contentEntries, ¬ (e.key = .fe ∧ e.fc = 0x0003) := by
  refine ⟨by decide +kernel, ⟨rex.contentEntries.take 3, _, rex.contentEntries.drop 4, rfl, ?_⟩, ?_⟩ <;>
    decide +kernel

end Sys2Proof.Tests
end

section
/-! PROOFS. The refusals of spec/30_encoding.md R85 and R86 at the step. An opcode has a reader exactly
when R84 lists it, and a reader takes nothing but the operand bytes of a well-formed instruction; so a
request that is no instruction's encoding does not decode. -/

namespace Sys2Proof.Proofs

open Sys2Proof.Machine Sys2Proof.Claims

/-! ### Which opcodes have a reader (R84, R85) -/

theorem operandReader_of_mem_legalOpcodes {op : Byte} (h : op ∈ legalOpcodes) :
    (operandReader op).isSome = true := by
  revert op
  decide

theorem mem_legalOpcodes_of_operandReader {op : Byte} {reader : Bytes → Option (Instr × Bytes)}
    (h : operandReader op = some reader) : op ∈ legalOpcodes := by
  have hop : op.toNat ∈ legalOpcodes.map BitVec.toNat := by
    unfold operandReader at h
    split at h
    case h_17 => cases h
    all_goals simp [legalOpcodes, *]
  obtain ⟨op', hmem, heq⟩ := List.mem_map.1 hop
  exact BitVec.eq_of_toNat_eq heq ▸ hmem

/-- The ranges of R85 hold no opcode of R84. -/
theorem not_illegalOpcode_of_mem_legalOpcodes {op : Byte} (h : op ∈ legalOpcodes) :
    ¬ IllegalOpcode op.toNat := by
  revert op
  unfold IllegalOpcode
  decide

theorem operandReader_of_illegalOpcode {op : Byte} (h : IllegalOpcode op.toNat) :
    operandReader op = none :=
  Option.eq_none_iff_forall_ne_some.2 fun _ hr =>
    not_illegalOpcode_of_mem_legalOpcodes (mem_legalOpcodes_of_operandReader hr) h

/-! ### What a reader takes (R81 to R83) -/

/-- `reader` takes only operand bytes that the encoder writes behind `op` for a well-formed instruction:
the converse of `Laws.RequestForm.Statement`. -/
def ReadsOnlyEncodings (op : Byte) (reader : Bytes → Option (Instr × Bytes)) : Prop :=
  ∀ (tl rest : Bytes) (i : Instr), reader tl = some (i, rest) → i.wf = true ∧ op :: tl = encode i ++ rest

section Formats

variable {op : Byte}

theorem takeFormatV_readsOnlyEncodings {f : Byte → Instr}
    (hf : ∀ v, (f v).wf = true ∧ encode (f v) = [op, v]) : ReadsOnlyEncodings op (takeFormatV f) := by
  intro tl rest i h
  obtain ⟨v, rfl, rfl⟩ := takeFormatV_iff.1 h
  simp [hf]

theorem takeFormatS_readsOnlyEncodings {f : Bytes → Instr}
    (hf : ∀ d, (f d).wf = Bytes.fits32 d ∧ encode (f d) = op :: sizedBytes 4 d) :
    ReadsOnlyEncodings op (takeFormatS f) := by
  intro tl rest i h
  obtain ⟨d, rfl, hd, rfl⟩ := takeFormatS_iff.1 h
  simpa [hf] using hd

theorem takeFormatC_readsOnlyEncodings {f : Option Context → Instr}
    (hf : ∀ c, (f c).wf = ctxWf c ∧ encode (f c) = op :: contextBytes c) :
    ReadsOnlyEncodings op (takeFormatC f) := by
  intro tl rest i h
  obtain ⟨c, rfl, hc, rfl⟩ := takeFormatC_iff.1 h
  simpa [hf] using hc

theorem takeFormatCStatus_readsOnlyEncodings {f : Option Context → Byte → Instr}
    (hf : ∀ c st, (f c st).wf = ctxWf c ∧ encode (f c st) = op :: (contextBytes c ++ [st])) :
    ReadsOnlyEncodings op (takeFormatCStatus f) := by
  intro tl rest i h
  obtain ⟨c, st, rfl, hc, rfl⟩ := takeFormatCStatus_iff.1 h
  simpa [hf] using hc

end Formats

theorem describe_readsOnlyEncodings : ReadsOnlyEncodings 0x24 (takeFormatCTexts .buildDescribe) := by
  intro tl rest i h
  obtain ⟨c, t0, t1, t2, t3, t4, rfl, hw, rfl⟩ := takeFormatCTexts_iff.1 h
  exact ⟨by simpa [Instr.wf, and_assoc] using hw, rfl⟩

theorem calibrate_readsOnlyEncodings : ReadsOnlyEncodings 0x25 (takeFormatCCalibrate .buildCalibrate) := by
  intro tl rest i h
  obtain ⟨c, idx, u, d, rfl, hw, rfl⟩ := takeFormatCCalibrate_iff.1 h
  exact ⟨by simpa [Instr.wf] using hw, rfl⟩

theorem f32Decode_readsOnlyEncodings : ReadsOnlyEncodings 0x40 (takeFormatW .f32Decode) := by
  intro tl rest i h
  obtain ⟨w, rfl, rfl⟩ := takeFormatW_iff.1 h
  exact ⟨rfl, rfl⟩

theorem f32Encode_readsOnlyEncodings : ReadsOnlyEncodings 0x41 (takeFormatD .f32Encode) := by
  intro tl rest i h
  obtain ⟨d, rfl, rfl⟩ := takeFormatD_iff.1 h
  exact ⟨rfl, rfl⟩

/-- Format Z: no operand byte. -/
theorem formatZ_readsOnlyEncodings {op : Byte} {j : Instr} (hj : j.wf = true ∧ encode j = [op]) :
    ReadsOnlyEncodings op fun bs => some (j, bs) := by
  intro tl rest i h
  obtain ⟨rfl, rfl⟩ := Prod.mk.inj (Option.some.inj h)
  simp [hj]

/-- Every row of the operation map (R84). -/
theorem operandReader_readsOnlyEncodings {op : Byte} {reader : Bytes → Option (Instr × Bytes)}
    (h : operandReader op = some reader) : ReadsOnlyEncodings op reader := by
  have hop := mem_legalOpcodes_of_operandReader h
  simp only [legalOpcodes, List.mem_cons, List.not_mem_nil, or_false] at hop
  rcases hop with rfl | rfl | rfl | rfl | rfl | rfl | rfl | rfl | rfl | rfl | rfl | rfl | rfl | rfl |
    rfl | rfl <;> obtain rfl := Option.some.inj h
  · exact takeFormatS_readsOnlyEncodings fun _ => ⟨rfl, rfl⟩
  · exact formatZ_readsOnlyEncodings ⟨rfl, rfl⟩
  · exact formatZ_readsOnlyEncodings ⟨rfl, rfl⟩
  · exact takeFormatV_readsOnlyEncodings fun _ => ⟨rfl, rfl⟩
  · exact takeFormatV_readsOnlyEncodings fun _ => ⟨rfl, rfl⟩
  · exact takeFormatS_readsOnlyEncodings fun _ => ⟨rfl, rfl⟩
  · exact takeFormatC_readsOnlyEncodings fun _ => ⟨rfl, rfl⟩
  · exact takeFormatC_readsOnlyEncodings fun _ => ⟨rfl, rfl⟩
  · exact takeFormatCStatus_readsOnlyEncodings fun _ _ => ⟨rfl, rfl⟩
  · exact takeFormatCStatus_readsOnlyEncodings fun _ _ => ⟨rfl, rfl⟩
  · exact describe_readsOnlyEncodings
  · exact calibrate_readsOnlyEncodings
  · exact takeFormatS_readsOnlyEncodings fun _ => ⟨rfl, rfl⟩
  · exact takeFormatS_readsOnlyEncodings fun _ => ⟨rfl, rfl⟩
  · exact f32Decode_readsOnlyEncodings
  · exact f32Encode_readsOnlyEncodings

/-- A request that decodes is the encoding of what it decodes to (R80 to R84). -/
theorem wf_and_encode_of_decode {req : Bytes} {i : Instr} (h : decode req = .ok i) :
    i.wf = true ∧ encode i = req := by
  obtain ⟨op, tl, reader, rfl, hr, hi⟩ := decode_eq_ok.1 h
  obtain ⟨hw, he⟩ := operandReader_readsOnlyEncodings hr tl [] i hi
  exact ⟨hw, by simpa using he.symm⟩

/-! ### Requests that do not decode (R85, R86) -/

theorem decode_of_illegalOpcode {op : Byte} (h : IllegalOpcode op.toNat) (tl : Bytes) :
    decode (op :: tl) = .error (.illegalOp op) := by
  simp [decode, operandReader_of_illegalOpcode h]

/-- A legal opcode's only refusal is that of its form. -/
theorem decode_error_of_mem_legalOpcodes {op : Byte} (h : op ∈ legalOpcodes) {tl : Bytes}
    {e : DecodeError} (he : decode (op :: tl) = .error e) : e = .malformed := by
  obtain ⟨reader, hr⟩ := Option.isSome_iff_exists.1 (operandReader_of_mem_legalOpcodes h)
  simp only [decode, hr] at he
  split at he <;> cases he <;> rfl

/-- A request that does not decode is refused, and the rest of the state stands. -/
theorem step_of_decode_error {s : State} {req : Bytes} {rest : List Bytes} {e : DecodeError}
    (hi : s.inbox = req :: rest) (hd : decode req = .error e) :
    step s = .next (refuseRequest e { s with inbox := rest }) := by
  simp [step, takeRequest_cons s req rest hi, hd]

/-- Settles O10: an opcode of R85's ranges has no reader, so no operand byte is looked at. -/
theorem illegalOpcodeIsRefused : Obligations.IllegalOpcodeIsRefused := by
  intro s op tl rest hop hi
  exact step_of_decode_error hi (decode_of_illegalOpcode hop tl)

/-- Settles O11: a request that decoded would be a well-formed instruction's encoding, and the only
refusal behind a legal opcode is the malformed one. -/
theorem malformedRequestIsRefused : Obligations.MalformedRequestIsRefused := by
  intro s op tl rest hop hno hi
  cases hd : decode (op :: tl) with
  | ok i =>
    obtain ⟨hw, he⟩ := wf_and_encode_of_decode hd
    exact absurd he (hno i hw)
  | error e =>
    obtain rfl := decode_error_of_mem_legalOpcodes hop hd
    exact step_of_decode_error hi hd

end Sys2Proof.Proofs
end

section
/-! PROOFS. The answers of CHK_XOR and CHK_CSUM (spec/41_checksum.md R100 to R103). Bit by bit, the XOR of
a sequence is a parity, which each byte flips or keeps; the complement of the byte sum is what it lacks to
0xFF. -/

namespace Sys2Proof.Proofs

open Sys2Proof.Machine Sys2Proof.Claims

/-! ### The two operations (R101, R103) -/

theorem exec_chkXor (data : Bytes) (s : State) :
    exec (.chkXor data) s = .next (answered s .ok (.chk (xor8 data))) := rfl

theorem exec_chkCsum (data : Bytes) (s : State) :
    exec (.chkCsum data) s = .next (answered s .ok (.chk (csum8 data))) := rfl

/-! ### The two functions (R100, R102) -/

/-- A bit of the XOR is the parity of the bytes that have it (R100). -/
theorem getLsbD_xor8 (data : Bytes) (j : Nat) :
    (xor8 data).getLsbD j = decide (data.countP (fun x => x.getLsbD j) % 2 = 1) := by
  induction data with
  | nil => simp
  | cons b data ih =>
    rw [xor8_cons, BitVec.getLsbD_xor, ih, List.countP_cons]
    cases b.getLsbD j with
    | false => simp
    | true =>
      rw [Bool.true_xor, if_pos rfl, ← decide_not, decide_eq_decide, Nat.succ_mod_two_eq_one_iff]
      exact Nat.mod_two_ne_one

/-- The complement of the sum is what it lacks to 0xFF, without a borrow (R102). -/
theorem toNat_csum8_add_toNat_sum8 (data : Bytes) : (csum8 data).toNat + (sum8 data).toNat = 0xFF := by
  rw [csum8_eq_not, BitVec.toNat_not]
  have hlt := (sum8 data).isLt
  omega

/-- Settles O19: CHK_XOR answers with `xor8`, whose bits are parities. -/
theorem chkXorAnswersParity : Obligations.ChkXorAnswersParity := by
  intro data s
  exact ⟨xor8 data, exec_chkXor data s, fun j _ => getLsbD_xor8 data j⟩

/-- Settles O20: CHK_CSUM answers with `csum8`, and `sum8` is the sum over the integers modulo 256. -/
theorem chkCsumAnswersComplement : Obligations.ChkCsumAnswersComplement := by
  intro data s
  refine ⟨csum8 data, exec_chkCsum data s, ?_⟩
  rw [← toNat_sum8]
  exact toNat_csum8_add_toNat_sum8 data

end Sys2Proof.Proofs
end

section
/-! PROOFS. The floating-point codec (spec/42_float_codec.md R120 to R129). A pattern is its sign, its
exponent field and its fraction field; its value is its sign times the magnitude of the two fields, so
exactness and the bounds of R128 are facts about magnitudes. -/

namespace Sys2Proof.Proofs

open Sys2Proof.Machine Sys2Proof.Claims

/-! ### The two operations (R121, R126) -/

theorem floatMode_eq_ieee {s : State} (h : s.cfg.getLsbD 0 = false) : floatMode s = .ieee := by
  have h0 : s.cfg.extractLsb' 0 1 = 0 := by
    apply BitVec.eq_of_getLsbD_eq
    intro i hi
    obtain rfl : i = 0 := by omega
    simpa using h
  exact if_pos h0

theorem exec_f32Decode_ieee (w : Bin32) {s : State} (h : s.cfg.getLsbD 0 = false) :
    exec (.f32Decode w) s = .next (answered s .ok (.bin64 (f32decIeee w))) := by
  show execF32Decode w s = _
  simp only [execF32Decode, floatMode_eq_ieee h, f32dec_ieee_draws]
  rfl

theorem exec_f32Encode (d : Bin64) (s : State) :
    exec (.f32Encode d) s = .next (answered s .ok (.bin32 (f32enc d))) := rfl

/-! ### Patterns by their fields (R122, R127) -/

/-- The magnitude of a finite binary32 with these exponent and fraction fields. -/
def magnitude32 (e f : Nat) : ℚ :=
  if e = 0 then (f : ℚ) * 2 ^ (-149 : ℤ) else (2 ^ 23 + f : ℚ) * 2 ^ ((e : ℤ) - 150)

/-- The magnitude of a finite binary64 with these exponent and fraction fields. -/
def magnitude64 (e f : Nat) : ℚ :=
  if e = 0 then (f : ℚ) * 2 ^ (-1074 : ℤ) else (2 ^ 52 + f : ℚ) * 2 ^ ((e : ℤ) - 1075)

theorem magnitude64_nonneg (e f : Nat) : 0 ≤ magnitude64 e f := by
  unfold magnitude64
  split_ifs <;> positivity

theorem exists_eq_pack32 (w : Bin32) : ∃ s e f, e < 2 ^ 8 ∧ f < 2 ^ 23 ∧ w = pack32 s e f :=
  ⟨_, _, _, (exponent32 w).isLt, (fraction32 w).isLt, (pack32_fields w).symm⟩

theorem exists_eq_pack64 (d : Bin64) : ∃ s e f, e < 2 ^ 11 ∧ f < 2 ^ 52 ∧ d = pack64 s e f :=
  ⟨_, _, _, (exponent64 d).isLt, (fraction64 d).isLt, (pack64_fields d).symm⟩

theorem msb_eq_msb_sign32 (w : Bin32) : w.msb = (sign32 w).msb := by
  rw [BitVec.msb_eq_decide, BitVec.msb_eq_decide, sign32_toNat, decide_eq_decide]
  omega

theorem msb_eq_msb_sign64 (d : Bin64) : d.msb = (sign64 d).msb := by
  rw [BitVec.msb_eq_decide, BitVec.msb_eq_decide, sign64_toNat, decide_eq_decide]
  omega

@[simp] theorem msb_pack32 (s : BitVec 1) (e f : Nat) : (pack32 s e f).msb = s.msb := by
  rw [msb_eq_msb_sign32, sign32_pack32]

@[simp] theorem msb_pack64 (s : BitVec 1) (e f : Nat) : (pack64 s e f).msb = s.msb := by
  rw [msb_eq_msb_sign64, sign64_pack64]

section Fields

variable (s : BitVec 1) {e f : Nat}

theorem pack32_toNat_mod_two_pow_31 (he : e < 2 ^ 8) (hf : f < 2 ^ 23) :
    (pack32 s e f).toNat % 2 ^ 31 = e * 2 ^ 23 + f := by
  rw [pack32_toNat s he hf]
  omega

theorem pack64_toNat_mod_two_pow_63 (he : e < 2 ^ 11) (hf : f < 2 ^ 52) :
    (pack64 s e f).toNat % 2 ^ 63 = e * 2 ^ 52 + f := by
  rw [pack64_toNat s he hf]
  omega

theorem pack32_infinity_toNat_mod : (pack32 s 0xFF 0).toNat % 2 ^ 31 = 0x7F800000 :=
  pack32_toNat_mod_two_pow_31 s (by decide) (by decide)

theorem pack32_zero_toNat_mod : (pack32 s 0 0).toNat % 2 ^ 31 = 0 :=
  pack32_toNat_mod_two_pow_31 s (by decide) (by decide)

theorem pack64_infinity_toNat_mod : (pack64 s 0x7FF 0).toNat % 2 ^ 63 = 0x7FF * 2 ^ 52 :=
  pack64_toNat_mod_two_pow_63 s (by decide) (by decide)

theorem finite32_pack32 (he : e < 2 ^ 8) (hf : f < 2 ^ 23) : Finite32 (pack32 s e f) ↔ e ≠ 0xFF := by
  rw [Finite32, ← exponent32_toNat, exponent32_pack32 s he hf]

theorem finite64_pack64 (he : e < 2 ^ 11) (hf : f < 2 ^ 52) : Finite64 (pack64 s e f) ↔ e ≠ 0x7FF := by
  rw [Finite64, ← exponent64_toNat, exponent64_pack64 s he hf]

theorem value32_pack32 (he : e < 2 ^ 8) (hf : f < 2 ^ 23) :
    value32 (pack32 s e f) = (if s.msb then -1 else 1) * magnitude32 e f := by
  rw [value32, ← exponent32_toNat, ← fraction32_toNat, exponent32_pack32 s he hf,
    fraction32_pack32 s he hf, msb_pack32]
  rfl

theorem value64_pack64 (he : e < 2 ^ 11) (hf : f < 2 ^ 52) :
    value64 (pack64 s e f) = (if s.msb then -1 else 1) * magnitude64 e f := by
  rw [value64, ← exponent64_toNat, ← fraction64_toNat, exponent64_pack64 s he hf,
    fraction64_pack64 s he hf, msb_pack64]
  rfl

theorem abs_value64_pack64 (he : e < 2 ^ 11) (hf : f < 2 ^ 52) :
    |value64 (pack64 s e f)| = magnitude64 e f := by
  rw [value64_pack64 s he hf, abs_mul, abs_of_nonneg (magnitude64_nonneg e f)]
  split_ifs <;> simp

end Fields

/-! ### IEEE decode (R122, R123) -/

theorem sign64_f32decIeee (w : Bin32) : sign64 (f32decIeee w) = sign32 w := by
  unfold f32decIeee
  dsimp only
  split_ifs <;> exact sign64_pack64 ..

theorem f32decIeee_infinity (s : BitVec 1) : f32decIeee (pack32 s 0xFF 0) = pack64 s 0x7FF 0 := by
  simp [f32decIeee, exponent32_pack32, fraction32_pack32]

theorem f32decIeee_nan (s : BitVec 1) {f : Nat} (h0 : f ≠ 0) (hf : f < 2 ^ 23) :
    f32decIeee (pack32 s 0xFF f) = pack64 s 0x7FF (2 ^ 51 ||| f * 2 ^ 29) := by
  simp [f32decIeee, exponent32_pack32 s _ hf, fraction32_pack32 s _ hf, h0, Nat.shiftLeft_eq]

theorem f32decIeee_zero (s : BitVec 1) : f32decIeee (pack32 s 0 0) = pack64 s 0 0 := by
  simp [f32decIeee, exponent32_pack32, fraction32_pack32]

theorem f32decIeee_subnormal (s : BitVec 1) {f : Nat} (h0 : f ≠ 0) (hf : f < 2 ^ 23) :
    f32decIeee (pack32 s 0 f) =
      pack64 s (f.log2 + 874) ((f - 2 ^ f.log2) * 2 ^ (52 - f.log2)) := by
  simp [f32decIeee, exponent32_pack32 s _ hf, fraction32_pack32 s _ hf, h0, Nat.shiftLeft_eq]

theorem f32decIeee_normal (s : BitVec 1) {e f : Nat} (h0 : e ≠ 0) (he : e < 0xFF) (hf : f < 2 ^ 23) :
    f32decIeee (pack32 s e f) = pack64 s (e + 896) (f * 2 ^ 29) := by
  simp [f32decIeee, exponent32_pack32 s (he.trans (by decide)) hf,
    fraction32_pack32 s (he.trans (by decide)) hf, h0, he.ne, Nat.shiftLeft_eq]

/-- A subnormal's leading bit becomes the hidden bit. -/
theorem magnitude64_subnormal {f : Nat} (h0 : f ≠ 0) (hf : f < 2 ^ 23) :
    (f - 2 ^ f.log2) * 2 ^ (52 - f.log2) < 2 ^ 52 ∧
    magnitude64 (f.log2 + 874) ((f - 2 ^ f.log2) * 2 ^ (52 - f.log2)) = magnitude32 0 f := by
  have hle : 2 ^ f.log2 ≤ f := Nat.log2_self_le h0
  have hlt : f < 2 ^ (f.log2 + 1) := Nat.lt_log2_self
  have hn : f.log2 < 23 := (Nat.log2_lt h0).2 hf
  generalize f.log2 = n at *
  have hpow : 2 ^ n * 2 ^ (52 - n) = 2 ^ 52 := by rw [← pow_add]; congr 1; omega
  constructor
  · calc (f - 2 ^ n) * 2 ^ (52 - n) < 2 ^ n * 2 ^ (52 - n) :=
          Nat.mul_lt_mul_of_pos_right (by omega) (by positivity)
      _ = 2 ^ 52 := hpow
  · have hsum : 2 ^ 52 + (f - 2 ^ n) * 2 ^ (52 - n) = f * 2 ^ (52 - n) := by
      rw [← hpow, ← Nat.add_mul, Nat.add_sub_cancel' hle]
    have hsum' : (2 ^ 52 + ((f - 2 ^ n) * 2 ^ (52 - n) : ℕ) : ℚ) = f * 2 ^ (52 - n) := by
      exact_mod_cast hsum
    have hexp : (2 : ℚ) ^ (52 - n) * 2 ^ (((n + 874 : ℕ) : ℤ) - 1075) = 2 ^ (-149 : ℤ) := by
      rw [← zpow_natCast (2 : ℚ) (52 - n), ← zpow_add₀ two_ne_zero,
        show ((52 - n : ℕ) : ℤ) + (((n + 874 : ℕ) : ℤ) - 1075) = -149 by omega]
    rw [magnitude64, magnitude32, if_neg (by omega), if_pos rfl, hsum', mul_assoc, hexp]

theorem magnitude64_normal {e : Nat} (h0 : e ≠ 0) (f : Nat) :
    magnitude64 (e + 896) (f * 2 ^ 29) = magnitude32 e f := by
  rw [magnitude64, magnitude32, if_neg (by omega), if_neg h0]
  have hexp : (2 : ℚ) ^ ((e : ℤ) - 150) = 2 ^ 29 * 2 ^ (((e + 896 : ℕ) : ℤ) - 1075) := by
    rw [← zpow_natCast (2 : ℚ) 29, ← zpow_add₀ two_ne_zero,
      show (e : ℤ) - 150 = (29 : ℕ) + (((e + 896 : ℕ) : ℤ) - 1075) by omega]
  rw [hexp]
  push_cast
  ring

/-- A finite pattern decodes to fields of a finite binary64 of the same magnitude. -/
theorem f32decIeee_finite (s : BitVec 1) {e f : Nat} (he : e < 0xFF) (hf : f < 2 ^ 23) :
    ∃ e' f', e' < 0x7FF ∧ f' < 2 ^ 52 ∧ f32decIeee (pack32 s e f) = pack64 s e' f' ∧
      magnitude64 e' f' = magnitude32 e f := by
  rcases Nat.eq_zero_or_pos e with rfl | hpos
  · rcases Nat.eq_zero_or_pos f with rfl | hfpos
    · exact ⟨0, 0, by decide, by decide, f32decIeee_zero s, by simp [magnitude64, magnitude32]⟩
    · obtain ⟨hlt, hmag⟩ := magnitude64_subnormal hfpos.ne' hf
      have hn : f.log2 < 23 := (Nat.log2_lt hfpos.ne').2 hf
      exact ⟨_, _, by omega, hlt, f32decIeee_subnormal s hfpos.ne' hf, hmag⟩
  · exact ⟨_, _, by omega, by omega, f32decIeee_normal s hpos.ne' he hf, magnitude64_normal hpos.ne' f⟩

/-- Settles O23: the pattern's class by its fields, and the decoded magnitude when it is finite. -/
theorem f32DecodeIeeeIsExact : Obligations.F32DecodeIeeeIsExact := by
  intro w st hmode
  refine ⟨_, exec_f32Decode_ieee w hmode, ?_, ?_⟩
  · rw [msb_eq_msb_sign64, sign64_f32decIeee, ← msb_eq_msb_sign32]
  obtain ⟨s, e, f, he, hf, rfl⟩ := exists_eq_pack32 w
  rw [finite32_pack32 s he hf, pack32_toNat_mod_two_pow_31 s he hf, ← fraction32_toNat,
    fraction32_pack32 s he hf]
  refine ⟨fun hfin => ?_, fun hinf => ?_, fun hnan => ?_⟩
  · obtain ⟨e', f', he', hf', hdec, hmag⟩ := f32decIeee_finite s (show e < 0xFF by omega) hf
    have he'' : e' < 2 ^ 11 := by omega
    rw [hdec, finite64_pack64 s he'' hf', value64_pack64 s he'' hf', value32_pack32 s he hf, hmag]
    exact ⟨he'.ne, rfl⟩
  · obtain ⟨rfl, rfl⟩ : e = 0xFF ∧ f = 0 := by omega
    rw [f32decIeee_infinity, pack64_infinity_toNat_mod]
  · obtain ⟨rfl, hf0⟩ : e = 0xFF ∧ f ≠ 0 := by omega
    have hpayload : 2 ^ 51 ||| f * 2 ^ 29 < 2 ^ 52 := Nat.or_lt_two_pow (by decide) (by omega)
    rw [f32decIeee_nan s hf0 hf, pack64_toNat_mod_two_pow_63 s (by decide) hpayload]

/-! ### Rounding on encode (R127) -/

/-- `rne` is within one half of the quotient by the power of two, and even when exactly one half away. -/
theorem rne_near (M : Nat) (sh : Int) :
    |(M : ℚ) * 2 ^ (-sh) - rne M sh| ≤ 1 / 2 ∧
      (|(M : ℚ) * 2 ^ (-sh) - rne M sh| = 1 / 2 → rne M sh % 2 = 0) := by
  have hquot : ((M * 2 ^ (-sh).toNat : ℕ) : ℚ) / (2 ^ sh.toNat : ℕ) = M * 2 ^ (-sh) := by
    push_cast
    rw [mul_div_assoc, ← zpow_natCast, ← zpow_natCast, ← zpow_sub₀ two_ne_zero]
    congr 2
    omega
  rw [rne_eq_roundDivEven, ← hquot]
  exact roundDivEven_near _ (by positivity)

/-- An even number within one half of the quotient is the one that `rne` gives: a tie goes to it. -/
theorem rne_eq_of_even {M n : Nat} {sh : Int} (heven : n % 2 = 0)
    (h : |(M : ℚ) * 2 ^ (-sh) - n| ≤ 1 / 2) : rne M sh = n := by
  obtain ⟨hnear, htie⟩ := rne_near M sh
  have hdist := abs_sub_le (rne M sh : ℚ) (M * 2 ^ (-sh)) n
  rw [abs_sub_comm (rne M sh : ℚ) (M * 2 ^ (-sh))] at hdist
  rcases hnear.eq_or_lt with heq | hlt
  · have hle : |(rne M sh : ℤ) - n| ≤ 1 := by
      have : |(rne M sh : ℚ) - n| ≤ 1 := by linarith
      exact_mod_cast this
    rw [abs_le] at hle
    have := htie heq
    omega
  · have hlt' : |(rne M sh : ℤ) - n| < 1 := by
      have : |(rne M sh : ℚ) - n| < 1 := by linarith
      exact_mod_cast this
    rw [abs_lt] at hlt'
    omega

/-! ### Encode of special inputs (R128) -/

theorem sign32_f32encFinite (s : BitVec 1) (M : Nat) (q : Int) : sign32 (f32encFinite s M q) = s := by
  unfold f32encFinite
  dsimp only
  split_ifs <;> exact sign32_pack32 ..

theorem sign32_f32enc (d : Bin64) : sign32 (f32enc d) = sign64 d := by
  unfold f32enc
  dsimp only
  split_ifs <;> simp only [sign32_pack32, sign32_f32encFinite]

theorem f32enc_infinity (s : BitVec 1) : f32enc (pack64 s 0x7FF 0) = pack32 s 0xFF 0 := by
  simp [f32enc, exponent64_pack64, fraction64_pack64]

theorem f32enc_nan (s : BitVec 1) {f : Nat} (h0 : f ≠ 0) (hf : f < 2 ^ 52) :
    f32enc (pack64 s 0x7FF f) = pack32 s 0xFF (2 ^ 22 ||| f / 2 ^ 29) := by
  simp [f32enc, exponent64_pack64 s _ hf, fraction64_pack64 s _ hf, h0, Nat.shiftRight_eq_div_pow]

theorem f32enc_zero (s : BitVec 1) : f32enc (pack64 s 0 0) = pack32 s 0 0 := by
  simp [f32enc, exponent64_pack64, fraction64_pack64]

/-- A finite nonzero pattern is encoded from an integer and a power of two whose product is its
magnitude. -/
theorem f32enc_finite (s : BitVec 1) {e f : Nat} (he : e < 0x7FF) (hf : f < 2 ^ 52)
    (hnz : ¬ (e = 0 ∧ f = 0)) :
    ∃ M q, 0 < M ∧ f32enc (pack64 s e f) = f32encFinite s M q ∧
      magnitude64 e f = (M : ℚ) * 2 ^ q := by
  have he' : e < 2 ^ 11 := by omega
  rcases Nat.eq_zero_or_pos e with rfl | hpos
  · have hf0 : f ≠ 0 := fun h => hnz ⟨rfl, h⟩
    exact ⟨f, -1074, Nat.pos_of_ne_zero hf0,
      by simp [f32enc, exponent64_pack64 s _ hf, fraction64_pack64 s _ hf, hf0], if_pos rfl⟩
  · refine ⟨f + 2 ^ 52, (e : ℤ) - 1075, by omega,
      by simp [f32enc, exponent64_pack64 s he' hf, fraction64_pack64 s he' hf, he.ne, hpos.ne'], ?_⟩
    rw [magnitude64, if_neg hpos.ne']
    push_cast
    ring

/-- `M` lies between the powers of two of its bit length, scaled by `2 ^ q`. -/
theorem mul_zpow_bounds {M : Nat} (hM : 0 < M) (q : Int) :
    (2 : ℚ) ^ ((bitlen M : ℤ) - 1 + q) ≤ M * 2 ^ q ∧ (M : ℚ) * 2 ^ q < 2 ^ ((bitlen M : ℤ) + q) := by
  have hlen : ((bitlen M - 1 : ℕ) : ℤ) = (bitlen M : ℤ) - 1 := by simp [bitlen]
  have hlo : (2 : ℚ) ^ (bitlen M - 1) ≤ M := by exact_mod_cast pow_bitlen_le hM
  have hhi : (M : ℚ) < 2 ^ bitlen M := by exact_mod_cast lt_pow_bitlen M
  have hq : (0 : ℚ) < 2 ^ q := by positivity
  rw [zpow_add₀ two_ne_zero, zpow_add₀ two_ne_zero, ← hlen, zpow_natCast, zpow_natCast]
  exact ⟨mul_le_mul_of_nonneg_right hlo hq.le, mul_lt_mul_of_pos_right hhi hq⟩

/-- From the overflow bound on, the significand of the top binade rounds up to `2 ^ 24`. -/
theorem rne_of_overflow {M : Nat} {q : Int} (hM : 0 < M) (hb : (bitlen M : ℤ) + q = 128)
    (h : (2 ^ 24 - 1 / 2) * 2 ^ 104 ≤ (M : ℚ) * 2 ^ q) : rne M ((bitlen M : ℤ) - 24) = 2 ^ 24 := by
  apply rne_eq_of_even (by decide)
  have hlt : (M : ℚ) * 2 ^ q < 2 ^ (128 : ℤ) := hb ▸ (mul_zpow_bounds hM q).2
  have hx : (M : ℚ) * 2 ^ q = M * 2 ^ (-((bitlen M : ℤ) - 24)) * 2 ^ 104 := by
    rw [mul_assoc, ← zpow_natCast (2 : ℚ) 104, ← zpow_add₀ two_ne_zero,
      show -((bitlen M : ℤ) - 24) + (104 : ℕ) = q by omega]
  rw [hx] at h hlt
  rw [abs_le]
  norm_num at h hlt ⊢
  exact ⟨by linarith, by linarith⟩

/-- The overflow bound: in the top binade the significand carries out, and above it none fits. -/
theorem f32encFinite_overflow (s : BitVec 1) {M : Nat} {q : Int} (hM : 0 < M)
    (h : (2 ^ 24 - 1 / 2) * 2 ^ 104 ≤ (M : ℚ) * 2 ^ q) : f32encFinite s M q = pack32 s 0xFF 0 := by
  have hk : 128 ≤ (bitlen M : ℤ) + q := by
    have hpow : (2 : ℚ) ^ (127 : ℤ) < 2 ^ ((bitlen M : ℤ) + q) :=
      lt_of_lt_of_le (by norm_num) (h.trans (mul_zpow_bounds hM q).2.le)
    have := (zpow_lt_zpow_iff_right₀ one_lt_two).1 hpow
    omega
  unfold f32encFinite
  dsimp only
  rw [if_pos (by omega)]
  rcases hk.eq_or_lt with hb | hb
  · rw [rne_of_overflow hM hb.symm h, if_pos rfl, if_pos (by omega)]
  · exact if_pos (by split_ifs <;> omega)

/-- The underflow bound: at most half of the least subnormal rounds to the even zero. -/
theorem f32encFinite_underflow (s : BitVec 1) {M : Nat} {q : Int} (hM : 0 < M)
    (h : (M : ℚ) * 2 ^ q ≤ 2 ^ (-150 : ℤ)) : f32encFinite s M q = pack32 s 0 0 := by
  have hk : (bitlen M : ℤ) - 1 + q ≤ -150 :=
    (zpow_le_zpow_iff_right₀ one_lt_two).1 ((mul_zpow_bounds hM q).1.trans h)
  have hzero : rne M (-149 - q) = 0 := by
    apply rne_eq_of_even rfl
    have hx : (M : ℚ) * 2 ^ (-(-149 - q)) = M * 2 ^ q * 2 ^ (149 : ℤ) := by
      rw [mul_assoc, ← zpow_add₀ two_ne_zero, show q + 149 = -(-149 - q) by omega]
    have hhalf : (M : ℚ) * 2 ^ q * 2 ^ (149 : ℤ) ≤ 2 ^ (-150 : ℤ) * 2 ^ (149 : ℤ) :=
      mul_le_mul_of_nonneg_right h (by positivity)
    rw [hx, Nat.cast_zero, sub_zero, abs_of_nonneg (by positivity)]
    exact hhalf.trans (by norm_num)
  unfold f32encFinite
  dsimp only
  rw [if_neg (by omega), hzero, if_neg (by decide)]

/-- The quiet bit and the payload of a NaN lie below the exponent field. -/
theorem nan_magnitude_bits {f : Nat} (hf : f < 2 ^ 52) :
    2 ^ 22 ||| f / 2 ^ 29 < 2 ^ 23 ∧
      0xFF * 2 ^ 23 + (2 ^ 22 ||| f / 2 ^ 29) = 0x7FC00000 ||| f / 2 ^ 29 := by
  have hlt : 2 ^ 22 ||| f / 2 ^ 29 < 2 ^ 23 := Nat.or_lt_two_pow (by decide) (by omega)
  refine ⟨hlt, ?_⟩
  have := Nat.two_pow_add_eq_or_of_lt hlt 0xFF
  rw [Nat.mul_comm, this, ← Nat.or_assoc]
  rfl

/-- Settles O27: the clauses by the input's fields, and the two bounds by its magnitude. -/
theorem f32EncodeSpecialInputs : Obligations.F32EncodeSpecialInputs := by
  intro d st
  refine ⟨_, exec_f32Encode d st, ?_, ?_⟩
  · rw [msb_eq_msb_sign32, sign32_f32enc, ← msb_eq_msb_sign64]
  obtain ⟨s, e, f, he, hf, rfl⟩ := exists_eq_pack64 d
  rw [pack64_toNat_mod_two_pow_63 s he hf, ← fraction64_toNat, fraction64_pack64 s he hf,
    finite64_pack64 s he hf, abs_value64_pack64 s he hf]
  refine ⟨fun hinf => ?_, fun hnan => ?_, fun hzero => ?_, fun hfin hbig => ?_, fun hfin hsmall => ?_⟩
  · obtain ⟨rfl, rfl⟩ : e = 0x7FF ∧ f = 0 := by omega
    rw [f32enc_infinity, pack32_infinity_toNat_mod]
  · obtain ⟨rfl, hf0⟩ : e = 0x7FF ∧ f ≠ 0 := by omega
    obtain ⟨hlt, hbits⟩ := nan_magnitude_bits hf
    rw [f32enc_nan s hf0 hf, pack32_toNat_mod_two_pow_31 s (by decide) hlt, hbits]
  · obtain ⟨rfl, rfl⟩ : e = 0 ∧ f = 0 := by omega
    rw [f32enc_zero, pack32_zero_toNat_mod]
  · have hnz : ¬ (e = 0 ∧ f = 0) := by
      rintro ⟨rfl, rfl⟩
      norm_num [magnitude64] at hbig
    obtain ⟨M, q, hM, henc, hmag⟩ := f32enc_finite s (show e < 0x7FF by omega) hf hnz
    rw [henc, f32encFinite_overflow s hM (hmag ▸ hbig), pack32_infinity_toNat_mod]
  · by_cases hz : e = 0 ∧ f = 0
    · obtain ⟨rfl, rfl⟩ := hz
      rw [f32enc_zero, pack32_zero_toNat_mod]
    · obtain ⟨M, q, hM, henc, hmag⟩ := f32enc_finite s (show e < 0x7FF by omega) hf hz
      rw [henc, f32encFinite_underflow s hM (hmag ▸ hsmall), pack32_zero_toNat_mod]

end Sys2Proof.Proofs
end

section
/-! PROOFS. DECODE (spec/44_decoder.md R174, R175, R179, R182). A record with a key is one of the four of
`KeyedRecord`, so what R174 to R179 say of it is read off case by case; and no part of DECODE but the one
that reports the checksum looks at the last byte. -/

namespace Sys2Proof.Proofs

open Sys2Proof.Machine Sys2Proof.Claims

/-! ### The operation (R171) -/

theorem decodeAnswers_decodeNow (fr : Bytes) (s : State) : DecodeAnswers s fr (decodeNow fr s).1 := by
  refine ⟨(decodeNow fr s).2, rfl, fun hieee => ?_⟩
  rw [decodeNow, floatMode_eq_ieee hieee]
  exact decodeFrame_ieee_draws ..

/-! ### The layout and the slices in the rules' words (spec/30_encoding.md R65 to R67, R71) -/

theorem widths_eq (c : Config) (k : Key) :
    widths c k =
      (lengthWidth (keyFamily k), commandWidth c k, addressWidth c k, unparsedWidth c k) := by
  cases k <;> rfl

theorem contentIndex_eq_contentStart (c : Config) (k : Key) : contentIndex c k = contentStart c k := by
  cases k <;>
    simp [contentIndex, contentStart, keyFamily, lengthWidth, commandWidth, addressWidth, unparsedWidth,
      keyParams]

theorem slice_eq_take_drop (fr : Bytes) (a n : Nat) : slice fr a (a + n) = (fr.drop a).take n := by
  rw [slice, List.drop_take, Nat.add_sub_cancel_left]

theorem slice_pred_length (fr : Bytes) (a : Nat) : slice fr a (fr.length - 1) = (fr.drop a).dropLast := by
  rw [slice, ← List.dropLast_eq_take, List.dropLast_drop_eq_drop_dropLast]

theorem slice_append_of_le {body : Bytes} {e : Nat} (he : e ≤ body.length) (a : Nat) (last : Bytes) :
    slice (body ++ last) a e = slice body a e := by
  rw [slice, slice, List.take_append_of_le_length he]

/-- A region lies within `fr[0 .. T-2]` when it ends before the last byte (R174). -/
theorem sliceWithin_dropLast {fr : Bytes} (hne : fr ≠ []) (a n : Nat) :
    sliceWithin fr.dropLast a n = regionAt fr a n := by
  have hpos := List.length_pos_iff.2 hne
  unfold sliceWithin regionAt
  by_cases hlt : a + n < fr.length
  · have hle : a + n ≤ fr.dropLast.length := by rw [List.length_dropLast]; omega
    rw [if_pos hle, if_pos hlt, ← slice_append_of_le hle a [fr.getLast hne],
      List.dropLast_append_getLast, slice_eq_take_drop]
  · have hnle : ¬ a + n ≤ fr.dropLast.length := by rw [List.length_dropLast]; omega
    rw [if_neg hnle, if_neg hlt]

/-! ### Records with a key -/

section Keyed

variable {c : Config} {mode : FloatMode} {fam : Family} {k : Key} {fr : Bytes} {out : DecodedFrame}

theorem key_of_keyedRecord (h : KeyedRecord c mode fam k fr out) : out.key = some k := by
  cases h <;> rfl

/-- Only an input that begins with a marker and has a key gets one in its record (R172, R173). -/
theorem keyedRecord_of_key {s : State} (hkey : (decodeNow fr s).1.key = some k) :
    fr ≠ [] ∧ KeyedRecord s.config (floatMode s) (keyFamily k) k fr (decodeNow fr s).1 := by
  rcases decodeNow_cases fr s with ⟨-, hout⟩ | ⟨fam, tl, rfl, ⟨-, hout⟩ | ⟨k', -, hfam, hrec⟩⟩
  · rw [hout] at hkey
    cases hkey
  · rw [hout, mark_key, decodeFixed_key] at hkey
    cases hkey
  · obtain rfl : k' = k := Option.some.inj ((key_of_keyedRecord hrec).symm.trans hkey)
    subst hfam
    exact ⟨List.cons_ne_nil _ _, hrec⟩

theorem regions_of_keyedRecord (h : KeyedRecord c mode fam k fr out) :
    let a0 := 1 + lengthWidth (keyFamily k)
    out.command = sliceWithin fr.dropLast a0 (commandWidth c k) ∧
      out.address = sliceWithin fr.dropLast (a0 + commandWidth c k) (addressWidth c k) ∧
      out.unparsed =
        sliceWithin fr.dropLast (a0 + commandWidth c k + addressWidth c k) (unparsedWidth c k) := by
  cases h <;> exact ⟨rfl, rfl, rfl⟩

/-- The fixed parts set no flag but bit 5 (R181). -/
@[simp] theorem decodeFixed_flags_headerTruncated (fam : Family) (fr : Bytes) :
    (decodeFixed fam fr).flags[2] = false := by
  rcases (decodeFixed_flags fam fr).1 with h | h <;> rw [h] <;> rfl

@[simp] theorem decodeHeader_flags : (decodeHeader c k fr out).flags = out.flags := rfl

@[simp] theorem decodePrefix_flags (content : Bytes) :
    (decodePrefix c k content out).flags = out.flags := rfl

/-- HEADER_TRUNCATED, bit 2, is what the first way to end says, and no other way (R175). -/
theorem headerTruncated_iff_of_keyedRecord (h : KeyedRecord c mode fam k fr out) :
    out.flags.getLsbD 2 = true ↔ fr.length - 1 < contentStart c k := by
  cases h with
  | headerTruncated short =>
    exact iff_of_true (by simp [flagHeaderTruncated]) short
  | fcAbsent content long =>
    exact iff_of_false (by simp [flagFcAbsent]) long.not_gt
  | unrecognizedFc content fc long =>
    exact iff_of_false (by simp [flagUnrecognizedFc]) long.not_gt
  | fields content fc specs fields long =>
    exact iff_of_false (by simp) long.not_gt

/-- A record that ends before the content has nothing of it (R175). -/
theorem absent_of_keyedRecord_short (h : KeyedRecord c mode fam k fr out)
    (short : fr.length - 1 < contentStart c k) :
    out.content = none ∧ out.vendor = none ∧ out.deviceType = none ∧ out.group = none ∧
      out.functionCode = none ∧ out.payload = none ∧ out.fields = [] := by
  cases h with
  | headerTruncated => simp [decodeHeader]
  | fcAbsent content long => exact absurd short long.not_gt
  | unrecognizedFc content fc long => exact absurd short long.not_gt
  | fields content fc specs fields long => exact absurd short long.not_gt

theorem content_of_keyedRecord_long (h : KeyedRecord c mode fam k fr out)
    (long : contentStart c k ≤ fr.length - 1) :
    out.content = some (slice fr (contentStart c k) (fr.length - 1)) := by
  cases h with
  | headerTruncated short => exact absurd short long.not_gt
  | fcAbsent content _ hcontent => exact congrArg some hcontent
  | unrecognizedFc content fc _ hcontent => exact congrArg some hcontent
  | fields content fc specs fields _ hcontent => exact congrArg some hcontent

/-- The function code of a content that is long enough for one is the two bytes after the prefix fields
(R177). -/
theorem functionCode_decodePrefix {content : Bytes}
    (fits : functionCodeOffset c k + 2 ≤ content.length) :
    (decodePrefix c k content out).functionCode = some (BitVec.ofNat 16
      (ube (slice content (functionCodeOffset c k) (functionCodeOffset c k + 2)))) := by
  simp only [decodePrefix, sliceWithin, if_pos fits, Option.map_some]

theorem functionCode_decodePrefix_of_short {content : Bytes}
    (short : content.length < functionCodeOffset c k + 2) :
    (decodePrefix c k content out).functionCode = none := by
  simp only [decodePrefix, sliceWithin_eq_none.2 short, Option.map_none]

/-- A record whose function code has a table entry lists that entry's fields, each extracted from the
content it reports (R178, R179). -/
theorem fields_of_keyedRecord {content : Bytes} {fc : BitVec 16} {specs : List FieldSpec}
    (h : KeyedRecord c mode fam k fr out) (hcontent : out.content = some content)
    (hfc : out.functionCode = some fc) (entry : contentTable c k fc = some specs) :
    List.Forall₂ (fun spec field => ∃ n, field = (extractField c mode content spec n).1) specs
      out.fields := by
  cases h with
  | headerTruncated => simp [decodeHeader] at hfc
  | fcAbsent content' _ _ short =>
    rw [mark_functionCode, functionCode_decodePrefix_of_short short] at hfc
    cases hfc
  | unrecognizedFc content' fc' _ _ fits hfc' absent =>
    rw [mark_functionCode, functionCode_decodePrefix fits, ← hfc'] at hfc
    rw [← Option.some.inj hfc, absent] at entry
    cases entry
  | fields content' fc' specs' fields' _ _ fits hfc' entry' each =>
    obtain rfl : content' = content := Option.some.inj hcontent
    dsimp only at hfc
    rw [functionCode_decodePrefix fits, ← hfc'] at hfc
    obtain rfl : fc' = fc := Option.some.inj hfc
    obtain rfl : specs' = specs := Option.some.inj (entry'.symm.trans entry)
    exact each

end Keyed

/-- Settles O40: the header regions of a record with a key are those within `fr[0 .. T-2]`, and of the ways
it can end only the first comes before the content. -/
theorem decodeSlicesHeader : Obligations.DecodeSlicesHeader := by
  intro fr s
  refine ⟨_, decodeAnswers_decodeNow fr s, fun k hkey => ?_⟩
  obtain ⟨hne, hrec⟩ := keyedRecord_of_key hkey
  have hpos := List.length_pos_iff.2 hne
  obtain ⟨hcommand, haddress, hunparsed⟩ := regions_of_keyedRecord hrec
  rw [widths_eq, contentIndex_eq_contentStart, ← slice_pred_length]
  simp only [← sliceWithin_dropLast hne]
  have hshort : fr.length - 1 < contentStart s.config k ↔ fr.length ≤ contentStart s.config k := by omega
  exact ⟨hcommand, haddress, hunparsed, (headerTruncated_iff_of_keyedRecord hrec).trans hshort,
    fun h => absent_of_keyedRecord_short hrec (hshort.2 h),
    fun h => content_of_keyedRecord_long hrec (by omega)⟩

/-! ### Fields (R179) -/

theorem fieldWidth_eq_formatWidth (format : FieldFormat) : fieldWidth format = formatWidth format := by
  cases format <;> rfl

theorem fieldKind_eq_formatKind (format : FieldFormat) : fieldKind format = formatKind format := by
  cases format <;> rfl

theorem floatMode_eq (s : State) : floatMode s = if !s.cfg.getLsbD 0 then .ieee else .legacy := by
  cases hbit : s.cfg.getLsbD 0 with
  | false => exact floatMode_eq_ieee hbit
  | true =>
    refine if_neg fun h => ?_
    have h0 := congrArg (BitVec.getLsbD · 0) h
    simp only [BitVec.getLsbD_extractLsb', Nat.add_zero, hbit] at h0
    cases h0

theorem fieldFollowsSpec_extractField (c : Config) (ieee : Bool) (content : Bytes) (spec : FieldSpec)
    (n : Nat) :
    FieldFollowsSpec c ieee content spec
      (extractField c (if ieee then .ieee else .legacy) content spec n).1 := by
  simp only [FieldFollowsSpec, ← fieldWidth_eq_formatWidth, ← fieldKind_eq_formatKind,
    ← slice_eq_take_drop]
  rcases extractField_cases c (if ieee then .ieee else .legacy) content spec n with
    ⟨hshort, h⟩ | ⟨raw, hfits, rfl, h⟩
  · rw [h]
    exact ⟨rfl, rfl, fun _ => ⟨rfl, rfl, rfl⟩, fun hfits => absurd hshort hfits.not_gt⟩
  · rw [h]
    refine ⟨rfl, rfl, fun hshort => absurd hshort hfits.not_gt, fun _ => ⟨rfl, rfl, ?_⟩⟩
    cases spec.format with
    | uint m => rfl
    | text w => rfl
    | f32 => exact ⟨_, rfl, n, rfl⟩

/-- Settles O43: the fields are those of the entry, one by one, and a field extracted alone follows its
spec, whatever was drawn before it. -/
theorem decodeExtractsFields : Obligations.DecodeExtractsFields := by
  intro fr s
  refine ⟨_, decodeAnswers_decodeNow fr s, fun k content fc specs hkey hcontent hfc entry => ?_⟩
  obtain ⟨-, hrec⟩ := keyedRecord_of_key hkey
  refine (fields_of_keyedRecord hrec hcontent hfc entry).imp ?_
  rintro spec field ⟨n, rfl⟩
  rw [floatMode_eq]
  exact fieldFollowsSpec_extractField ..

/-! ### The last byte (R182) -/

section LastByte

variable (c : Config) (flag : BitVec 2) (mode : FloatMode) (k : Key) (fam : Family)

theorem decodeFixed_snoc {body : Bytes} (hne : body ≠ []) (a b : Byte) :
    decodeFixed fam (body ++ [a]) = { decodeFixed fam (body ++ [b]) with checksum := some a } := by
  have hpos := List.length_pos_iff.2 hne
  have htwo : 2 ≤ body.length + 1 := by omega
  simp only [decodeFixed, List.length_append, List.length_singleton, Nat.add_sub_cancel, if_pos htwo,
    List.getElem?_concat_length]
  by_cases hlen : 1 + lengthWidth fam ≤ body.length
  · simp only [if_pos hlen, slice_append_of_le hlen]
    split <;> rfl
  · simp only [if_neg hlen]

theorem decodeHeader_snoc (body : Bytes) (a b : Byte) (out : DecodedFrame) (chk : Option Byte) :
    decodeHeader c k (body ++ [a]) { out with checksum := chk } =
      { decodeHeader c k (body ++ [b]) out with checksum := chk } := by
  simp only [decodeHeader, List.dropLast_concat]

theorem decodeContent_checksum (content : Bytes) (out : DecodedFrame) (chk : Option Byte) (draws : Nat) :
    decodeContent c mode k content { out with checksum := chk } draws =
      ({ (decodeContent c mode k content out draws).1 with checksum := chk },
        (decodeContent c mode k content out draws).2) := by
  simp only [decodeContent, decodePrefix]
  split
  · rfl
  · split <;> rfl

theorem decodeFamily_snoc {body : Bytes} (hne : body ≠ []) (a b : Byte) (draws : Nat) :
    decodeFamily c flag mode fam (body ++ [a]) draws =
      ({ (decodeFamily c flag mode fam (body ++ [b]) draws).1 with checksum := some a },
        (decodeFamily c flag mode fam (body ++ [b]) draws).2) := by
  simp only [decodeFamily, List.length_append, List.length_singleton, Nat.add_sub_cancel,
    slice_append_of_le le_rfl, decodeFixed_snoc fam hne a b]
  cases frameKey c flag fam (body.length + 1) with
  | none => rfl
  | some k =>
    simp only [decodeHeader_snoc c k body a b]
    split
    · rfl
    · exact decodeContent_checksum ..

end LastByte

/-- An input that begins with a marker is decoded but for the checksum without its last byte. -/
theorem decodeNow_snoc {body : Bytes} (hmarker : body.head? = some 0xFE ∨ body.head? = some 0x7E)
    (a b : Byte) (s : State) :
    (decodeNow (body ++ [a]) s).1 = { (decodeNow (body ++ [b]) s).1 with checksum := some a } := by
  obtain ⟨fam, tl, rfl⟩ : ∃ fam tl, body = marker fam :: tl := by
    rcases hmarker with h | h <;> obtain ⟨tl, rfl⟩ := List.head?_eq_some_iff.1 h
    · exact ⟨.fe, tl, rfl⟩
    · exact ⟨.sevenE, tl, rfl⟩
  simp only [decodeNow, List.cons_append, decodeFrame_marker]
  exact congrArg Prod.fst (decodeFamily_snoc _ _ _ fam (List.cons_ne_nil (marker fam) tl) a b _)

/-- Settles O46: the record of `body ++ [a]` serves for both, since of the last byte only the checksum
reports anything. -/
theorem decodeDoesNotCheckChecksum : Obligations.DecodeDoesNotCheckChecksum := by
  intro body a b s hmarker
  refine ⟨(decodeNow (body ++ [a]) s).1, ?_, ?_⟩
  · rw [← decodeNow_snoc hmarker a a s]
    exact decodeAnswers_decodeNow ..
  · rw [← decodeNow_snoc hmarker b a s]
    exact decodeAnswers_decodeNow ..

end Sys2Proof.Proofs
end

section
/-! PROOFS. The refusals of the BUILD operations (spec/45_encoder.md R204). The six operations run one
skeleton, which checks the widths before it looks at the payload, so one refusal serves all of them. -/

namespace Sys2Proof.Proofs

open Sys2Proof.Machine Sys2Proof.Claims

/-! ### One skeleton (R205) -/

/-- A BUILD request runs the skeleton with its kind and context; the operations differ in the payload. -/
theorem exec_eq_buildResponse_of_buildOf {i : Instr} {kind : BuildKind} {ctx : Context}
    (h : buildOf i = some (kind, ctx)) (s : State) :
    ∃ payload, exec i s = .next (buildResponse (build s.config kind (some ctx) payload) s) :=
  match i, h with
  | .buildAckData (some _), rfl => ⟨_, rfl⟩
  | .buildAckInfo (some _), rfl => ⟨_, rfl⟩
  | .buildConnect (some _) _, rfl => ⟨_, rfl⟩
  | .buildDisconnect (some _) _, rfl => ⟨_, rfl⟩
  | .buildDescribe (some _) _ _ _ _ _, rfl => ⟨_, rfl⟩
  | .buildCalibrate (some _) _ _ _, rfl => ⟨_, rfl⟩

/-! ### The widths in the rule's words (R204) -/

theorem prefixWidths_eq (c : Config) (k : Key) :
    prefixWidths c k = (vendorWidth c k, deviceTypeWidth c k, groupWidth c k) := by
  cases k <;> rfl

/-- The skeleton's width check is R204's. -/
theorem widthsMatch_iff_fitsWidths {c : Config} {kind : BuildKind} {ctx : Context} :
    widthsMatch c kind ctx = true ↔ FitsWidths c kind ctx := by
  rw [widthsMatch_iff, FitsWidths, widths_eq, prefixWidths_eq]

/-- Settles O48: the width check fails, and no payload is asked for. -/
theorem buildOfWrongWidthIsRefused : Obligations.BuildOfWrongWidthIsRefused := by
  intro i kind ctx s hbuild hwidths
  obtain ⟨payload, hexec⟩ := exec_eq_buildResponse_of_buildOf hbuild s
  have hmatch : widthsMatch s.config kind ctx = false :=
    Bool.eq_false_of_not_eq_true (mt widthsMatch_iff_fitsWidths.1 hwidths)
  rw [hexec, build_of_not_widthsMatch hmatch, buildResponse_operand]
  rfl

end Sys2Proof.Proofs
end

section
/-! PROOFS. One response for every request (spec/60_exceptions.md R240). A request decodes and is
performed, or it does not and is refused; both leave a response and the requests behind it. -/

namespace Sys2Proof.Proofs

open Sys2Proof.Machine Sys2Proof.Claims

/-! ### The status codes (R241) -/

theorem statusCode_toNat_le (status : Status) : (statusCode status).toNat ≤ 0x05 := by
  cases status <;> decide

/-! ### A request is performed or refused (R85, R86) -/

/-- A request that decodes is performed, in the state without it. -/
theorem step_of_decode_ok {s : State} {req : Bytes} {rest : List Bytes} {i : Instr}
    (hi : s.inbox = req :: rest) (hd : decode req = .ok i) :
    step s = exec i { s with inbox := rest } := by
  simp [step, takeRequest_cons s req rest hi, hd]

/-- A refusal changes nothing but the response. -/
theorem refuseRequest_eq_respond (e : DecodeError) (s : State) :
    ∃ status results, refuseRequest e s = respond status results s := by
  cases e with
  | illegalOp opcode => exact ⟨_, _, rfl⟩
  | malformed => exact ⟨_, _, rfl⟩

/-- Settles O9: the instruction answers, or the refusal of a request that is none does. -/
theorem everyRequestIsAnswered : Obligations.EveryRequestIsAnswered := by
  intro s req rest hi
  cases hd : decode req with
  | ok i =>
    obtain ⟨t, r, hexec, hresponse, hinbox, -⟩ := exec_answers i { s with inbox := rest }
    exact ⟨t, r, (step_of_decode_ok hi hd).trans hexec, hresponse, hinbox, statusCode_toNat_le _⟩
  | error e =>
    obtain ⟨status, results, hrefuse⟩ := refuseRequest_eq_respond e { s with inbox := rest }
    refine ⟨respond status results { s with inbox := rest }, ⟨status, results⟩, ?_, respond_response ..,
      respond_inbox .., statusCode_toNat_le status⟩
    rw [step_of_decode_error hi hd, hrefuse]

end Sys2Proof.Proofs
end

section
/-! PROOFS. Power-on reset and RESET (spec/70_reset_and_hazards.md R260, R261). RESET leaves an empty
CARRY, so the next FEED scans its input alone: a valid candidate is found at index 0 and ends the scan. -/

namespace Sys2Proof.Proofs

open Sys2Proof.Machine Sys2Proof.Claims

/-! ### CFG after power-on reset (R24, R260) -/

theorem reset_cfg_of_ieee (h : State.reset.config.floatModeReset = .ieee) : State.reset.cfg = 0 := by
  change Config.params.floatModeReset = .ieee at h
  simp [State.reset, h]

theorem reset_cfg_of_legacy (h : State.reset.config.floatModeReset = .legacy) : State.reset.cfg = 1 := by
  change Config.params.floatModeReset = .legacy at h
  simp [State.reset, h]

/-- Settles O1: CARRY and SESSION are fixed, and CFG follows from the mode that FLOAT_MODE_RESET is. -/
theorem resetValues : Obligations.ResetValues := by
  refine ⟨rfl, rfl, rfl, fun h => ?_, fun h => ?_, ?_⟩
  · rw [reset_cfg_of_ieee h]; rfl
  · rw [reset_cfg_of_legacy h]; rfl
  · cases h : State.reset.config.floatModeReset with
    | ieee => rw [reset_cfg_of_ieee h]; rfl
    | legacy => rw [reset_cfg_of_legacy h]; rfl

/-! ### A valid frame fed from an empty CARRY (R141, R144) -/

section Frame

variable {c : Config} {variant : BitVec 2} {f : Bytes}

/-- The scan finds a valid candidate at every index where one begins. -/
theorem probe_eq_frame_of_validFrame {W : Bytes} {i : Nat} (hv : ValidFrame c variant f)
    (hp : f <+: W.drop i) : probe c variant W i = .frame f := by
  refine probe_eq_frame.2 ⟨hp, ?_⟩
  obtain ⟨l, rest, chk, rfl, hlen, hchk⟩ | ⟨h, l, rest, chk, rfl, hlen, hchk⟩ := hv
  · refine ⟨.fe, [l], rest ++ [chk], rfl, rfl, by rw [hlen, ube_singleton]; rfl, ?_⟩
    exact (frameValid_iff c .fe variant _ chk (l :: rest)).2 (by simpa [checksumOf] using hchk)
  · refine ⟨.sevenE, [h, l], rest ++ [chk], rfl, rfl, by rw [hlen, ube_pair]; rfl, ?_⟩
    refine (frameValid_iff c .sevenE variant _ chk (h :: l :: rest)).2 ?_
    simpa only [regionAfterLength_sevenE, checksumOf, List.drop_succ_cons, List.drop_zero] using hchk

/-- The scan of a valid frame alone emits it in its first turn and ends there. -/
theorem scan_of_validFrame (hv : ValidFrame c variant f) :
    scan c variant f = ⟨f.length, f.length, [f], []⟩ := by
  have hprobe : probe c variant f 0 = .frame f := probe_eq_frame_of_validFrame hv List.prefix_rfl
  obtain ⟨fuel, hfuel⟩ := Nat.exists_eq_succ_of_ne_zero (probe_frame_pos hprobe).ne'
  calc scan c variant f
      = scanLoop c variant f (fuel + 1) ⟨0, 0, [], []⟩ := by rw [scan, hfuel]
    _ = scanLoop c variant f fuel (scanStep c variant f ⟨0, 0, [], []⟩) :=
        scanLoop_turn (probe_frame_pos hprobe)
    _ = scanLoop c variant f fuel ⟨f.length, f.length, [f], []⟩ := by
        rw [scanStep_frame hprobe]; simp [slice]
    _ = ⟨f.length, f.length, [f], []⟩ := scanLoop_done le_rfl

end Frame

theorem exec_feed (input : Bytes) (s : State) : exec (.feed input) s = .next (feed input s) := rfl

/-- Nothing is left for CARRY or for the bound on it, so FEED's whole effect is its response. -/
theorem exec_feed_of_validFrame {s : State} {f : Bytes} (hcarry : s.carry = [])
    (hv : ValidFrame s.config (s.session.extractLsb' 0 2) f) :
    exec (.feed f) s = .next (answered s .ok (.feed [f] [] false)) := by
  have hscan : scan s.config (sessionVariant s) f = ⟨f.length, f.length, [f], []⟩ :=
    scan_of_validFrame hv
  rw [exec_feed]
  simp [feed, hcarry, hscan, capCarry_nil, answered, respond]

/-! ### RESET (R150, R261) -/

theorem exec_reset (s : State) :
    exec .reset s = .next (answered { s with carry := [] } .ok .none) := rfl

/-- Settles O35: the state after RESET has an empty CARRY and the variant and parameters of the state
before it, so a valid frame stays valid and is all that FEED sees. -/
theorem resetClearsOnlyCarry : Obligations.ResetClearsOnlyCarry :=
  fun s => ⟨_, exec_reset s, rfl, fun _ hv => exec_feed_of_validFrame rfl hv⟩

end Sys2Proof.Proofs
end

section
/-! PROOFS. The encoding is a bijection between well-formed instructions and the requests that decode
(spec/30_encoding.md R80 to R86): each opcode's reader takes exactly the operand bytes written behind it. -/

namespace Sys2Proof.Proofs

open Sys2Proof.Machine Sys2Proof.Claims

/-- Every instruction's row of the operation map (R84). -/
theorem requestForm (i : Instr) : Laws.RequestForm.Statement i :=
  match i with
  | .feed input => Laws.RequestForm.feed input
  | .reset => Laws.RequestForm.reset
  | .readState => Laws.RequestForm.readState
  | .setVariant v => Laws.RequestForm.setVariant v
  | .writeCfg v => Laws.RequestForm.writeCfg v
  | .decode fr => Laws.RequestForm.decode fr
  | .buildAckData ctx => Laws.RequestForm.buildAckData ctx
  | .buildAckInfo ctx => Laws.RequestForm.buildAckInfo ctx
  | .buildConnect ctx status => Laws.RequestForm.buildConnect ctx status
  | .buildDisconnect ctx status => Laws.RequestForm.buildDisconnect ctx status
  | .buildDescribe ctx t0 t1 t2 t3 t4 => Laws.RequestForm.buildDescribe ctx t0 t1 t2 t3 t4
  | .buildCalibrate ctx index unit value => Laws.RequestForm.buildCalibrate ctx index unit value
  | .chkXor data => Laws.RequestForm.chkXor data
  | .chkCsum data => Laws.RequestForm.chkCsum data
  | .f32Decode w => Laws.RequestForm.f32Decode w
  | .f32Encode d => Laws.RequestForm.f32Encode d

/-- Settles O4: the reader of the instruction's opcode takes all of its operand bytes. -/
theorem decodeOfEncode : Obligations.DecodeOfEncode := by
  intro i hwf
  obtain ⟨reader, hreader, hread⟩ := requestForm i hwf
  refine decode_eq_ok.2 ⟨_, _, reader, rfl, hreader, ?_⟩
  simpa using hread []

/-- Settles O5: what decodes is the encoding of what it decodes to. -/
theorem decodedRequestIsItsEncoding : Obligations.DecodedRequestIsItsEncoding :=
  fun _ _ h => wf_and_encode_of_decode h

/-- Settles O6: each word is its instruction's encoding, byte for byte. -/
theorem requestWordsDecode : Obligations.RequestWordsDecode :=
  ⟨decodeOfEncode (.feed [0x7E, 0x00]) rfl, decodeOfEncode (.setVariant 0x02) rfl,
    decodeOfEncode (.f32Decode 0x3FC00000) rfl,
    decodeOfEncode (.buildDisconnect (some ⟨.lora, [], [], [], [0x01], [0x02], [0x03]⟩) 0x05) rfl⟩

end Sys2Proof.Proofs
end

section
/-! PROOFS. The answers of the BUILD operations (spec/45_encoder.md R202 to R211). The six operations differ
in their texts and their payload only, so the skeleton's length and frame are matched once with the sums
and tables of the rules, and each operation is one case of it. -/

namespace Sys2Proof.Proofs

open Sys2Proof.Machine Sys2Proof.Claims

/-! ### The skeleton in the rules' words (R205, R207) -/

section Skeleton

variable {c : Config} {kind : BuildKind} {ctx : Context}

theorem buildLength_eq_builtLength (p : Bytes) :
    buildLength c ctx.key (buildContent c kind ctx p) = builtLength c kind ctx p := by
  obtain ⟨k, command, address, unparsed, vendor, deviceType, group⟩ := ctx
  rw [buildLength_eq]
  cases k <;>
    simp [builtLength, builtContent, buildContent, commandWidth, addressWidth, unparsedWidth, keyParams]

theorem two_pow_lengthWidth (k : Key) : 256 ^ lengthWidth (keyFamily k) = lengthLimit k + 1 := by
  cases k <;> rfl

/-- The frame of steps 4 to 6 (R205). -/
theorem frame_eq_builtFrame (p : Bytes) :
    marker (keyFamily ctx.key) ::
        (buildBody c kind ctx (builtLength c kind ctx p) (buildContent c kind ctx p) ++
          [buildChecksum c ctx.key
            (buildBody c kind ctx (builtLength c kind ctx p) (buildContent c kind ctx p))]) =
      builtFrame c kind ctx p := by
  obtain ⟨k, command, address, unparsed, vendor, deviceType, group⟩ := ctx
  cases k with
  | fe =>
    simp [builtFrame, buildBody, buildChecksum, keyFamily, marker, lengthWidth, checksumOf, buildContent,
      builtContent]
  | digi =>
    cases hp14 : c.chk7eDigiAfterLength <;>
      simp [builtFrame, buildBody, buildChecksum, keyFamily, marker, lengthWidth, checksumOf,
        buildContent, builtContent, hp14, be]
  | lora =>
    simp [builtFrame, buildBody, buildChecksum, keyFamily, marker, lengthWidth, checksumOf, buildContent,
      builtContent]

theorem buildFrame_of_overlong {p : Bytes} (h : lengthLimit ctx.key < builtLength c kind ctx p) :
    buildFrame c kind ctx p = .error (.length (builtLength c kind ctx p)) := by
  rcases buildFrame_cases (c := c) (kind := kind) (ctx := ctx) p with ⟨-, hb⟩ | ⟨hl, -⟩
  · rw [hb, buildLength_eq_builtLength]
  · rw [buildLength_eq_builtLength, two_pow_lengthWidth] at hl
    omega

theorem buildFrame_of_le {p : Bytes} (h : builtLength c kind ctx p ≤ lengthLimit ctx.key) :
    buildFrame c kind ctx p = .ok (builtFrame c kind ctx p) := by
  rcases buildFrame_cases (c := c) (kind := kind) (ctx := ctx) p with ⟨hl, -⟩ | ⟨-, hb⟩
  · rw [buildLength_eq_builtLength, two_pow_lengthWidth] at hl
    omega
  · rw [hb, buildLength_eq_builtLength, frame_eq_builtFrame]

end Skeleton

/-! ### Every BUILD request (R202 to R211) -/

/-- Settles O47: the context is looked at before any other operand. -/
theorem buildWithoutContextIsRefused : Obligations.BuildWithoutContextIsRefused := fun i _ h =>
  match i, h with
  | .buildAckData none, rfl => rfl
  | .buildAckInfo none, rfl => rfl
  | .buildConnect none _, rfl => rfl
  | .buildDisconnect none _, rfl => rfl
  | .buildDescribe none _ _ _ _ _, rfl => rfl
  | .buildCalibrate none _ _ _, rfl => rfl

/-- The payload of the skeleton is the one that the request asks for, when its texts fit (R206 to R211). -/
theorem exec_eq_buildResponse_payloadOf {i : Instr} {kind : BuildKind} {ctx : Context}
    (h : buildOf i = some (kind, ctx)) (s : State) :
    ∃ payload, exec i s = .next (buildResponse (build s.config kind (some ctx) payload) s) ∧
      (TextsFit s.config ctx.key i → payload ctx.key = some (payloadOf s.config ctx.key i)) ∧
      (¬ TextsFit s.config ctx.key i → payload ctx.key = none) :=
  match i, h with
  | .buildAckData (some _), rfl => ⟨_, rfl, fun _ => rfl, fun hn => absurd trivial hn⟩
  | .buildAckInfo (some _), rfl => ⟨_, rfl, fun _ => rfl, fun hn => absurd trivial hn⟩
  | .buildConnect (some _) _, rfl => ⟨_, rfl, fun _ => rfl, fun hn => absurd trivial hn⟩
  | .buildDisconnect (some _) _, rfl => ⟨_, rfl, fun _ => rfl, fun hn => absurd trivial hn⟩
  | .buildDescribe (some _) _ _ _ _ _, rfl => ⟨_, rfl, fun hfit => if_pos hfit, fun hn => if_neg hn⟩
  | .buildCalibrate (some _) _ _ _, rfl => ⟨_, rfl, fun hfit => if_pos hfit, fun hn => if_neg hn⟩

section Build

variable {i : Instr} {kind : BuildKind} {ctx : Context} {s : State}

/-- Settles O49: the texts are looked at before the length. -/
theorem buildOfWrongTextIsRefused : Obligations.BuildOfWrongTextIsRefused := by
  intro i kind ctx s hbuild htexts
  obtain ⟨payload, hexec, -, hnone⟩ := exec_eq_buildResponse_payloadOf hbuild s
  rw [hexec, build_of_payload_none (hnone htexts), buildResponse_operand]
  rfl

/-- A BUILD request whose regions and texts fit answers what the frame of its payload comes to. -/
theorem exec_of_fits (hbuild : buildOf i = some (kind, ctx)) (hwidths : FitsWidths s.config kind ctx)
    (htexts : TextsFit s.config ctx.key i) :
    exec i s = .next (buildResponse
      (buildFrame s.config kind ctx (payloadOf s.config ctx.key i)) s) := by
  obtain ⟨payload, hexec, hsome, -⟩ := exec_eq_buildResponse_payloadOf hbuild s
  rw [hexec, build_of_fits (widthsMatch_iff_fitsWidths.2 hwidths) (hsome htexts)]

/-- Settles O50: of regions and texts that fit only the length is left to refuse. -/
theorem buildOfOverlongFrameIsRefused : Obligations.BuildOfOverlongFrameIsRefused := by
  intro i kind ctx s hbuild hwidths htexts hlength
  rw [exec_of_fits hbuild hwidths htexts, buildFrame_of_overlong hlength, buildResponse_length]
  rfl

/-- A BUILD request that passes every check answers with the frame of the skeleton. -/
theorem exec_of_built (hbuild : buildOf i = some (kind, ctx)) (hwidths : FitsWidths s.config kind ctx)
    (htexts : TextsFit s.config ctx.key i)
    (hlength : builtLength s.config kind ctx (payloadOf s.config ctx.key i) ≤ lengthLimit ctx.key) :
    exec i s = .next (answered s .ok
      (.frame (builtFrame s.config kind ctx (payloadOf s.config ctx.key i)))) := by
  rw [exec_of_fits hbuild hwidths htexts, buildFrame_of_le hlength, buildResponse_ok]
  rfl

/-- Settles O51: both kinds take the registry's payload and have no text. -/
theorem buildAcknowledgements : Obligations.BuildAcknowledgements := fun ctx _ =>
  ⟨fun hwidths hlength => exec_of_built (i := .buildAckData (some ctx)) rfl hwidths trivial hlength,
    fun hwidths hlength => exec_of_built (i := .buildAckInfo (some ctx)) rfl hwidths trivial hlength⟩

/-- Settles O52: both kinds take the status byte and have no text. -/
theorem buildConnectAndDisconnect : Obligations.BuildConnectAndDisconnect := fun ctx status _ =>
  ⟨fun hwidths hlength =>
      exec_of_built (i := .buildConnect (some ctx) status) rfl hwidths trivial hlength,
    fun hwidths hlength =>
      exec_of_built (i := .buildDisconnect (some ctx) status) rfl hwidths trivial hlength⟩

/-- Settles O53: the five text widths are what the payload asks for. -/
theorem buildDescribe : Obligations.BuildDescribe :=
  fun ctx t0 t1 t2 t3 t4 _ hwidths h0 h1 h2 h3 h4 hlength =>
    exec_of_built (i := .buildDescribe (some ctx) t0 t1 t2 t3 t4) rfl hwidths ⟨h0, h1, h2, h3, h4⟩ hlength

/-- Settles O54: the value is encoded as F32_ENCODE answers it. -/
theorem buildCalibrate : Obligations.BuildCalibrate :=
  fun ctx index unit value s hwidths hunit =>
    ⟨f32enc value, exec_f32Encode value s, fun hlength =>
      exec_of_built (i := .buildCalibrate (some ctx) index unit value) rfl hwidths hunit hlength⟩

end Build

end Sys2Proof.Proofs
end

section
/-! PROOFS. DECODE of an input with and without a marker (spec/44_decoder.md R171, R172, R176, R180, R181).
Whatever becomes of its key and content, a record extends the fixed parts by at most one flag. -/

namespace Sys2Proof.Proofs

open Sys2Proof.Machine Sys2Proof.Claims

/-! ### The family's constants in the rules' words (spec/30_encoding.md R61 to R63) -/

theorem headerOf_eq_marker (fam : Family) : headerOf fam = marker fam := by cases fam <;> rfl

theorem lengthBytesOf_eq_lengthWidth (fam : Family) : lengthBytesOf fam = lengthWidth fam := by
  cases fam <;> rfl

theorem offsetOf_eq_fixedOffset (fam : Family) : offsetOf fam = fixedOffset fam := by cases fam <;> rfl

theorem marker_injective : Function.Injective marker := by
  rintro (_ | _) (_ | _) h
  · rfl
  · cases h
  · cases h
  · rfl

/-! ### No marker (R172) -/

theorem head?_bind_markerFamily_eq_none {fr : Bytes} :
    fr.head?.bind markerFamily = none ↔ ∀ fam, fr.head? ≠ some (marker fam) := by
  simp only [Option.eq_none_iff_forall_ne_some, ne_eq, Option.bind_eq_some_iff, markerFamily_eq_some,
    exists_eq_right]

theorem decodeNow_of_no_marker {fr : Bytes} (h : ∀ fam, fr.head? ≠ some (marker fam)) (s : State) :
    (decodeNow fr s).1 = { flags := 0x01 } := by
  rw [decodeNow, decodeFrame_notAFrame (head?_bind_markerFamily_eq_none.2 h)]
  rfl

/-- Settles O38: no family marks the first byte, so nothing is read. -/
theorem decodeOfNoFrame : Obligations.DecodeOfNoFrame := by
  intro fr s hfe hsevenE
  have hno : ∀ fam, fr.head? ≠ some (marker fam) := fun fam =>
    match fam with
    | .fe => hfe
    | .sevenE => hsevenE
  exact decodeNow_of_no_marker hno s ▸ decodeAnswers_decodeNow fr s

/-! ### An input that begins with a marker (R171) -/

/-- The two ways to end: no key, or a record with the key of the family. -/
theorem decodeNow_marker_cases (fam : Family) (tl : Bytes) (s : State) :
    (frameKey s.config (sessionVariant s) fam (marker fam :: tl).length = none ∧
        (decodeNow (marker fam :: tl) s).1 =
          (decodeFixed fam (marker fam :: tl)).mark flagVariantUnresolved) ∨
      ∃ k, frameKey s.config (sessionVariant s) fam (marker fam :: tl).length = some k ∧
        KeyedRecord s.config (floatMode s) fam k (marker fam :: tl)
          (decodeNow (marker fam :: tl) s).1 := by
  rcases decodeNow_cases (marker fam :: tl) s with ⟨hno, -⟩ | ⟨fam', tl', heq, hcases⟩
  · simp at hno
  · obtain ⟨hfam, -⟩ := List.cons.inj heq
    obtain rfl := marker_injective hfam
    exact hcases.imp_right fun ⟨k, hkey, _, hrec⟩ => ⟨k, hkey, hrec⟩

/-- The record reports the fixed parts of `fixed`, and of the flags at most one more than it. -/
structure ExtendsFixed (fixed out : DecodedFrame) : Prop where
  family : out.family = fixed.family
  header : out.header = fixed.header
  lengthField : out.lengthField = fixed.lengthField
  lengthValue : out.lengthValue = fixed.lengthValue
  checksum : out.checksum = fixed.checksum
  flags : ∃ e ∈ [0x00, flagVariantUnresolved, flagHeaderTruncated, flagFcAbsent, flagUnrecognizedFc],
    out.flags = fixed.flags ||| e

section Keyed

variable {c : Config} {mode : FloatMode} {fam : Family} {k : Key} {fr : Bytes} {out : DecodedFrame}

theorem extendsFixed_of_keyedRecord (h : KeyedRecord c mode fam k fr out) :
    ExtendsFixed (decodeFixed fam fr) out := by
  cases h with
  | headerTruncated => exact ⟨rfl, rfl, rfl, rfl, rfl, _, by simp, rfl⟩
  | fcAbsent => exact ⟨rfl, rfl, rfl, rfl, rfl, _, by simp, rfl⟩
  | unrecognizedFc => exact ⟨rfl, rfl, rfl, rfl, rfl, _, by simp, rfl⟩
  | fields => exact ⟨rfl, rfl, rfl, rfl, rfl, 0x00, by simp, (BitVec.or_zero ..).symm⟩

theorem extendsFixed_decodeNow (fam : Family) (tl : Bytes) (s : State) :
    ExtendsFixed (decodeFixed fam (marker fam :: tl)) (decodeNow (marker fam :: tl) s).1 := by
  rcases decodeNow_marker_cases fam tl s with ⟨-, hout⟩ | ⟨k, -, hrec⟩
  · rw [hout]
    exact ⟨rfl, rfl, rfl, rfl, rfl, _, by simp, rfl⟩
  · exact extendsFixed_of_keyedRecord hrec

/-- Of a record that extends the fixed parts, bits 0, 6 and 7 are clear and bit 5 is theirs. -/
theorem flags_of_extendsFixed (h : ExtendsFixed (decodeFixed fam fr) out) :
    out.flags.getLsbD 0 = false ∧ out.flags.getLsbD 6 = false ∧ out.flags.getLsbD 7 = false ∧
      (out.flags.getLsbD 5 = true ↔ (decodeFixed fam fr).flags = 0x20) := by
  obtain ⟨e, he, hflags⟩ := h.flags
  rw [hflags]
  have hbits : ∀ a ∈ [(0 : BitVec 8), 0x20],
      ∀ e ∈ [0x00, flagVariantUnresolved, flagHeaderTruncated, flagFcAbsent, flagUnrecognizedFc],
        (a ||| e).getLsbD 0 = false ∧ (a ||| e).getLsbD 6 = false ∧ (a ||| e).getLsbD 7 = false ∧
          ((a ||| e).getLsbD 5 = true ↔ a = 0x20) := by decide
  exact hbits _ (by simpa using (decodeFixed_flags fam fr).1) e he

/-! ### The fixed parts (R171, R181) -/

theorem slice_one_cons (b : Byte) (tl : Bytes) (n : Nat) : slice (b :: tl) 1 (1 + n) = tl.take n := by
  simp [slice_eq_take_drop]

theorem decodeFixed_of_short {tl : Bytes} (h : tl.length ≤ lengthWidth fam) (b : Byte) :
    (decodeFixed fam (b :: tl)).lengthField = none ∧ (decodeFixed fam (b :: tl)).lengthValue = none := by
  rcases decodeFixed_cases fam (b :: tl) with ⟨hlong, -⟩ | ⟨-, hfixed⟩
  · rw [List.length_cons] at hlong
    omega
  · rw [hfixed]
    exact ⟨rfl, rfl⟩

theorem decodeFixed_of_long {tl : Bytes} (h : lengthWidth fam < tl.length) (b : Byte) :
    (decodeFixed fam (b :: tl)).lengthField = some (tl.take (lengthWidth fam)) ∧
      (decodeFixed fam (b :: tl)).lengthValue = some (ube (tl.take (lengthWidth fam))) := by
  rcases decodeFixed_cases fam (b :: tl) with ⟨-, hfixed⟩ | ⟨hshort, -⟩
  · rw [hfixed, slice_one_cons]
    exact ⟨rfl, rfl⟩
  · rw [List.length_cons] at hshort
    omega

theorem decodeFixed_checksum_cons (b : Byte) (tl : Bytes) :
    (decodeFixed fam (b :: tl)).checksum = tl.getLast? := by
  rw [decodeFixed_checksum]
  cases tl with
  | nil => rfl
  | cons x tl => simp [List.getLast?_eq_getElem?]

/-- LENGTH_MISMATCH of the fixed parts (R181). -/
theorem decodeFixed_flags_cons (b : Byte) (tl : Bytes) :
    (decodeFixed fam (b :: tl)).flags = 0x20 ↔ lengthWidth fam < tl.length ∧
      (b :: tl).length ≠ ube (tl.take (lengthWidth fam)) + fixedOffset fam := by
  rw [(decodeFixed_flags fam (b :: tl)).2]
  rcases Nat.lt_or_ge (lengthWidth fam) tl.length with hlong | hshort
  · simp [(decodeFixed_of_long hlong b).2, hlong]
  · simp [(decodeFixed_of_short hshort b).2, hshort.not_gt]

/-- Settles O58: the record extends the fixed parts, whatever its key. -/
theorem decodeReadsFixedParts : Obligations.DecodeReadsFixedParts := by
  intro fam tl s
  rw [headerOf_eq_marker, lengthBytesOf_eq_lengthWidth]
  have hfixed := extendsFixed_decodeNow fam tl s
  refine ⟨_, decodeAnswers_decodeNow _ s, hfixed.family.trans (decodeFixed_family ..),
    hfixed.header.trans (decodeFixed_header ..), hfixed.checksum.trans (decodeFixed_checksum_cons ..),
    fun hshort => ?_, fun hlong => ?_⟩
  · rw [hfixed.lengthField, hfixed.lengthValue]
    exact decodeFixed_of_short hshort _
  · rw [hfixed.lengthField, hfixed.lengthValue]
    exact decodeFixed_of_long hlong _

/-! ### Flags and statuses (R176, R180, R181) -/

theorem status_extractField_ne_malformed (content : Bytes) (spec : FieldSpec) (n : Nat) :
    (extractField c mode content spec n).1.status ≠ .malformed := by
  rcases extractField_cases c mode content spec n with ⟨-, h⟩ | ⟨raw, -, -, h⟩ <;> rw [h] <;> nofun

/-- A field of the record is one that was extracted by itself. -/
theorem exists_extractField_of_mem_fields (h : KeyedRecord c mode fam k fr out) {field : DecodedField}
    (hmem : field ∈ out.fields) : ∃ content spec n, field = (extractField c mode content spec n).1 := by
  cases h with
  | headerTruncated => simp [decodeHeader] at hmem
  | fcAbsent => simp [decodePrefix, decodeHeader] at hmem
  | unrecognizedFc => simp [decodePrefix, decodeHeader] at hmem
  | fields content fc specs fields long hcontent fits hfc entry each =>
    obtain ⟨j, hj, rfl⟩ := List.mem_iff_getElem.1 hmem
    obtain ⟨n, hn⟩ := each.get (by rw [each.length_eq]; exact hj) hj
    exact ⟨content, _, n, hn⟩

theorem status_ne_malformed_of_mem_fields {s : State} {field : DecodedField}
    (hmem : field ∈ (decodeNow fr s).1.fields) : field.status ≠ .malformed := by
  rcases decodeNow_cases fr s with ⟨-, hout⟩ | ⟨fam, tl, -, ⟨-, hout⟩ | ⟨k, -, -, hrec⟩⟩
  · simp [hout] at hmem
  · simp [hout] at hmem
  · obtain ⟨content, spec, n, hfield⟩ := exists_extractField_of_mem_fields hrec hmem
    exact hfield ▸ status_extractField_ne_malformed content spec n

/-- NOT_A_FRAME, LENGTH_MISMATCH and the reserved bits of an input that begins with a marker. -/
theorem flags_decodeNow_marker (fam : Family) (tl : Bytes) (s : State) :
    (decodeNow (marker fam :: tl) s).1.flags.getLsbD 0 = false ∧
      (decodeNow (marker fam :: tl) s).1.flags.getLsbD 6 = false ∧
      (decodeNow (marker fam :: tl) s).1.flags.getLsbD 7 = false ∧
      ((decodeNow (marker fam :: tl) s).1.flags.getLsbD 5 = true ↔ lengthWidth fam < tl.length ∧
        (marker fam :: tl).length ≠ ube (tl.take (lengthWidth fam)) + fixedOffset fam) := by
  rw [← decodeFixed_flags_cons]
  exact flags_of_extendsFixed (extendsFixed_decodeNow fam tl s)

/-- Settles O44: the flags of an input with and without a marker, and the status of each extracted
field. -/
theorem decodeFlagsAndStatuses : Obligations.DecodeFlagsAndStatuses := by
  intro fr s
  refine ⟨_, decodeAnswers_decodeNow fr s, ?_⟩
  simp only [headerOf_eq_marker, lengthBytesOf_eq_lengthWidth, offsetOf_eq_fixedOffset]
  by_cases hmarker : ∃ fam, fr.head? = some (marker fam)
  · obtain ⟨fam, hfam⟩ := hmarker
    obtain ⟨tl, rfl⟩ := List.head?_eq_some_iff.1 hfam
    obtain ⟨-, h6, h7, h5⟩ := flags_decodeNow_marker fam tl s
    refine ⟨h6, h7, fun _ => status_ne_malformed_of_mem_fields,
      h5.trans ⟨fun h => ⟨fam, tl, rfl, h⟩, ?_⟩⟩
    rintro ⟨fam', tl', heq, h⟩
    obtain ⟨hfam', rfl⟩ := List.cons.inj heq
    obtain rfl := marker_injective hfam'
    exact h
  · have hno : ∀ fam, fr.head? ≠ some (marker fam) := fun fam hfam => hmarker ⟨fam, hfam⟩
    rw [decodeNow_of_no_marker hno]
    refine ⟨rfl, rfl, fun _ hmem => absurd hmem (List.not_mem_nil), iff_of_false (by decide) ?_⟩
    rintro ⟨fam, tl, rfl, -⟩
    exact hno fam rfl

end Keyed

end Sys2Proof.Proofs
end

section
/-! PROOFS. The key, the regions and the content prefix of a record (spec/44_decoder.md R173, R174, R177,
R178; spec/30_encoding.md R60), and the registry behind them (R73, R74). -/

namespace Sys2Proof.Proofs

open Sys2Proof.Machine Sys2Proof.Claims

/-! ### First match in a list -/

theorem find?_append_cons_of_first {α : Type} {p : α → Bool} {pre : List α} {a : α} (post : List α)
    (hpre : ∀ x ∈ pre, p x = false) (ha : p a = true) : (pre ++ a :: post).find? p = some a := by
  rw [List.find?_append, List.find?_eq_none.2 (by simpa using hpre), Option.none_or,
    List.find?_cons_of_pos ha]

/-! ### The key (R173) -/

theorem variantSelect_of_selectsVariant {c : Config} {flag : BitVec 2} {T : Nat}
    {sel : Option SevenEVariant} (h : SelectsVariant c flag T sel) : variantSelect c flag T = sel := by
  rcases h with ⟨pre, r, post, hrules, hpre, hflag, hlength, rfl⟩ | ⟨hnone, rfl⟩
  · have hfind : (c.variantRules.find? fun r => decide (r.flag = flag) && decide (r.length = T)) =
        some r := by
      rw [hrules]
      exact find?_append_cons_of_first post (by simpa using hpre) (by simp [hflag, hlength])
    rw [variantSelect, hfind]
  · have hfind : (c.variantRules.find? fun r => decide (r.flag = flag) && decide (r.length = T)) =
        none := List.find?_eq_none.2 (by simpa using hnone)
    rw [variantSelect, hfind]
    rfl

theorem keyOf_eq_variantKey (v : SevenEVariant) : keyOf v = variantKey v := by cases v <;> rfl

theorem key_decodeNow_marker (fam : Family) (tl : Bytes) (s : State) :
    (decodeNow (marker fam :: tl) s).1.key =
      frameKey s.config (sessionVariant s) fam (marker fam :: tl).length := by
  rcases decodeNow_marker_cases fam tl s with ⟨hkey, hout⟩ | ⟨k, hkey, hrec⟩
  · rw [hout, hkey, mark_key, decodeFixed_key]
  · rw [key_of_keyedRecord hrec, hkey]

/-- The fixed parts set no flag but bit 5 (R181). -/
@[simp] theorem decodeFixed_flags_variantUnresolved (fam : Family) (fr : Bytes) :
    (decodeFixed fam fr).flags[1] = false := by
  rcases (decodeFixed_flags fam fr).1 with h | h <;> rw [h] <;> rfl

@[simp] theorem decodeFixed_flags_fcAbsent (fam : Family) (fr : Bytes) :
    (decodeFixed fam fr).flags[3] = false := by
  rcases (decodeFixed_flags fam fr).1 with h | h <;> rw [h] <;> rfl

@[simp] theorem decodeFixed_flags_unrecognizedFc (fam : Family) (fr : Bytes) :
    (decodeFixed fam fr).flags[4] = false := by
  rcases (decodeFixed_flags fam fr).1 with h | h <;> rw [h] <;> rfl

theorem variantUnresolved_of_keyedRecord {c : Config} {mode : FloatMode} {fam : Family} {k : Key}
    {fr : Bytes} {out : DecodedFrame} (h : KeyedRecord c mode fam k fr out) :
    out.flags.getLsbD 1 = false := by
  cases h with
  | headerTruncated => simp [flagHeaderTruncated]
  | fcAbsent => simp [flagFcAbsent]
  | unrecognizedFc => simp [flagUnrecognizedFc]
  | fields => simp

/-- VARIANT_UNRESOLVED, bit 1, says that there is no key. -/
theorem variantUnresolved_iff (fam : Family) (tl : Bytes) (s : State) :
    (decodeNow (marker fam :: tl) s).1.flags.getLsbD 1 = true ↔
      (decodeNow (marker fam :: tl) s).1.key = none := by
  rcases decodeNow_marker_cases fam tl s with ⟨-, hout⟩ | ⟨k, -, hrec⟩
  · rw [hout]
    exact iff_of_true (by simp [flagVariantUnresolved]) (decodeFixed_key ..)
  · rw [key_of_keyedRecord hrec, variantUnresolved_of_keyedRecord hrec]
    exact iff_of_false Bool.false_ne_true (Option.some_ne_none k)

/-- A record without a key holds no more than the fixed parts. -/
theorem absent_of_key_none {fam : Family} {tl : Bytes} {s : State}
    (hkey : (decodeNow (marker fam :: tl) s).1.key = none) :
    (decodeNow (marker fam :: tl) s).1 =
      (decodeFixed fam (marker fam :: tl)).mark flagVariantUnresolved := by
  rcases decodeNow_marker_cases fam tl s with ⟨-, hout⟩ | ⟨k, -, hrec⟩
  · exact hout
  · cases (key_of_keyedRecord hrec).symm.trans hkey

/-- Settles O39: the key of an input with a marker is the frame key of its family. -/
theorem decodeKeyFollowsFlag : Obligations.DecodeKeyFollowsFlag := by
  intro tl s
  refine ⟨⟨(decodeNow (marker .fe :: tl) s).1, decodeAnswers_decodeNow _ s, ?_, ?_, ?_⟩,
    (decodeNow (marker .sevenE :: tl) s).1, decodeAnswers_decodeNow _ s, ?_, ?_, ?_, ?_⟩
  · exact (extendsFixed_decodeNow .fe tl s).family.trans (decodeFixed_family ..)
  · exact key_decodeNow_marker .fe tl s
  · rw [← Bool.not_eq_true, variantUnresolved_iff, key_decodeNow_marker]
    exact Option.some_ne_none _
  · exact (extendsFixed_decodeNow .sevenE tl s).family.trans (decodeFixed_family ..)
  · intro sel hsel
    rw [key_decodeNow_marker, funext keyOf_eq_variantKey]
    exact congrArg (Option.map variantKey) (variantSelect_of_selectsVariant hsel)
  · exact variantUnresolved_iff .sevenE tl s
  · intro hkey
    rw [absent_of_key_none hkey]
    simp

/-! ### The regions in wire order (spec/30_encoding.md R60) -/

/-- Neighbouring slices, from the header byte to the content, make the whole sequence. -/
theorem slices_concat {body : Bytes} (lw cw aw uw : Nat) (h : 1 + lw + cw + aw + uw ≤ body.length) :
    slice body 0 1 ++ slice body 1 (1 + lw) ++ slice body (1 + lw) (1 + lw + cw) ++
        slice body (1 + lw + cw) (1 + lw + cw + aw) ++
        slice body (1 + lw + cw + aw) (1 + lw + cw + aw + uw) ++
        slice body (1 + lw + cw + aw + uw) body.length = body := by
  rw [slice_append_slice _ _ _ _ (by omega) (by omega), slice_append_slice _ _ _ _ (by omega) (by omega),
    slice_append_slice _ _ _ _ (by omega) (by omega), slice_append_slice _ _ _ _ (by omega) (by omega),
    slice_append_slice _ _ _ _ (by omega) h, slice_zero, List.take_length]

/-- A sequence with a header byte is that byte, the slices of what comes before its last byte, and its last
byte. -/
theorem eq_header_slices_checksum (h : Byte) {tl : Bytes} (hne : tl ≠ []) (lw cw aw uw : Nat)
    (hlong : 1 + lw + cw + aw + uw ≤ tl.length) :
    h :: tl = [h] ++ tl.take lw ++ slice (h :: tl).dropLast (1 + lw) (1 + lw + cw) ++
      slice (h :: tl).dropLast (1 + lw + cw) (1 + lw + cw + aw) ++
      slice (h :: tl).dropLast (1 + lw + cw + aw) (1 + lw + cw + aw + uw) ++
      slice (h :: tl) (1 + lw + cw + aw + uw) ((h :: tl).length - 1) ++ [tl.getLast hne] := by
  have hlength : (h :: tl).dropLast.length = tl.length := by simp
  have hbody : h :: tl = (h :: tl).dropLast ++ [tl.getLast hne] := by
    rw [← List.getLast_cons hne (a := h), List.dropLast_append_getLast]
  have hheader : [h] = slice (h :: tl).dropLast 0 1 := by
    rw [slice_zero, List.dropLast_cons_of_ne_nil hne]
    rfl
  have hlf : tl.take lw = slice (h :: tl).dropLast 1 (1 + lw) := by
    rw [← slice_append_of_le (by omega) 1 [tl.getLast hne], ← hbody, slice_one_cons]
  have hcontent : slice (h :: tl) (1 + lw + cw + aw + uw) ((h :: tl).length - 1) =
      slice (h :: tl).dropLast (1 + lw + cw + aw + uw) (h :: tl).dropLast.length := by
    rw [← slice_append_of_le le_rfl _ [tl.getLast hne], ← hbody, List.length_dropLast]
  rw [hheader, hlf, hcontent, slices_concat lw cw aw uw (by omega)]
  exact hbody

theorem marker_of_key {fr : Bytes} {s : State} {k : Key} (hkey : (decodeNow fr s).1.key = some k) :
    ∃ tl, fr = marker (keyFamily k) :: tl := by
  obtain ⟨-, hrec⟩ := keyedRecord_of_key hkey
  rcases decodeNow_cases fr s with ⟨-, hout⟩ | ⟨fam, tl, rfl, -⟩
  · rw [hout] at hkey
    cases hkey
  · have hheader : some (marker fam) = some (marker (keyFamily k)) := by
      rw [← decodeFixed_header fam (marker fam :: tl), ← (extendsFixed_decodeNow fam tl s).header,
        (extendsFixed_of_keyedRecord hrec).header, decodeFixed_header]
    exact ⟨tl, congrArg (· :: tl) (Option.some.inj hheader)⟩

/-- Settles O41: each region is the slice of the input between its neighbours. -/
theorem decodedRegionsMakeFrame : Obligations.DecodedRegionsMakeFrame := by
  intro fr s
  refine ⟨_, decodeAnswers_decodeNow fr s, fun k hkey hlong => ?_⟩
  obtain ⟨-, hrec⟩ := keyedRecord_of_key hkey
  obtain ⟨tl, rfl⟩ := marker_of_key hkey
  have hstart : contentStart s.config k ≤ tl.length := by
    rw [contentIndex_eq_contentStart, List.length_cons] at hlong
    omega
  have hbody : (marker (keyFamily k) :: tl).dropLast.length = tl.length := by simp
  have hcontent := content_of_keyedRecord_long hrec (by simpa using hstart)
  unfold contentStart at hstart
  have hne : tl ≠ [] := List.ne_nil_of_length_pos (by omega)
  have hfixed := extendsFixed_of_keyedRecord hrec
  obtain ⟨hcommand, haddress, hunparsed⟩ := regions_of_keyedRecord hrec
  exact ⟨_, _, _, _, _, _, _, hfixed.header.trans (decodeFixed_header ..),
    hfixed.lengthField.trans (decodeFixed_of_long (by omega) _).1,
    hcommand.trans (sliceWithin_eq_some.2 ⟨by omega, rfl⟩),
    haddress.trans (sliceWithin_eq_some.2 ⟨by omega, rfl⟩),
    hunparsed.trans (sliceWithin_eq_some.2 ⟨by omega, rfl⟩), hcontent,
    hfixed.checksum.trans ((decodeFixed_checksum_cons ..).trans (List.getLast?_eq_some_getLast hne)),
    eq_header_slices_checksum _ hne _ _ _ _ hstart⟩

/-! ### The content prefix (R177, R178) -/

theorem prefixField_eq_prefixAt (content : Bytes) (a n : Nat) :
    prefixField content a n = prefixAt content a n := by
  unfold prefixField prefixAt
  by_cases h : a + n ≤ content.length
  · rw [sliceWithin_eq_some.2 ⟨h, rfl⟩, if_pos h, slice_eq_take_drop]
  · rw [sliceWithin_eq_none.2 (by omega), if_neg h, ube_nil]

theorem ofNat_ube_pair (hi lo : Byte) : BitVec.ofNat 16 (ube [hi, lo]) = hi ++ lo := by
  apply BitVec.eq_of_toNat_eq
  have h1 := hi.isLt
  have h2 := lo.isLt
  rw [ube_pair, BitVec.toNat_ofNat, BitVec.toNat_append, ← Nat.shiftLeft_add_eq_or_of_lt h2,
    Nat.shiftLeft_eq]
  omega

theorem slice_pair {content : Bytes} {a : Nat} (h : a + 2 ≤ content.length) :
    slice content a (a + 2) = [content[a], content[a + 1]] := by
  rw [slice_eq_take_drop, List.drop_eq_getElem_cons (by omega), List.drop_eq_getElem_cons (by omega)]
  rfl

section Keyed

variable {c : Config} {mode : FloatMode} {fam : Family} {k : Key} {fr content : Bytes} {out : DecodedFrame}

/-- A record with content is the one with its prefix, but for the flags and the fields. -/
theorem prefix_of_keyedRecord (h : KeyedRecord c mode fam k fr out)
    (hcontent : out.content = some content) :
    out.vendor = some (prefixField content 0 (vendorWidth c k)) ∧
      out.deviceType = some (prefixField content (vendorWidth c k) (deviceTypeWidth c k)) ∧
      out.group =
        some (prefixField content (vendorWidth c k + deviceTypeWidth c k) (groupWidth c k)) ∧
      out.functionCode = (decodePrefix c k content {}).functionCode ∧
      out.payload = if functionCodeOffset c k + 2 ≤ content.length then
        some (content.drop (functionCodeOffset c k + 2)) else none := by
  cases h with
  | headerTruncated => simp [decodeHeader] at hcontent
  | fcAbsent content' =>
    obtain rfl : content' = content := Option.some.inj hcontent
    exact ⟨rfl, rfl, rfl, rfl, rfl⟩
  | unrecognizedFc content' =>
    obtain rfl : content' = content := Option.some.inj hcontent
    exact ⟨rfl, rfl, rfl, rfl, rfl⟩
  | fields content' =>
    obtain rfl : content' = content := Option.some.inj hcontent
    exact ⟨rfl, rfl, rfl, rfl, rfl⟩

/-- FC_ABSENT, bit 3, is set of a record with content exactly when that is too short for a code, and then
there are no fields (R177). -/
theorem fcAbsent_of_keyedRecord (h : KeyedRecord c mode fam k fr out)
    (hcontent : out.content = some content) :
    (out.flags.getLsbD 3 = true ↔ content.length < functionCodeOffset c k + 2) ∧
      (content.length < functionCodeOffset c k + 2 → out.fields = []) := by
  cases h with
  | headerTruncated => simp [decodeHeader] at hcontent
  | fcAbsent content' _ _ short =>
    obtain rfl : content' = content := Option.some.inj hcontent
    exact ⟨iff_of_true (by simp [flagFcAbsent]) short, fun _ => by simp [decodePrefix, decodeHeader]⟩
  | unrecognizedFc content' fc _ _ fits =>
    obtain rfl : content' = content := Option.some.inj hcontent
    exact ⟨iff_of_false (by simp [flagUnrecognizedFc]) fits.not_gt, fun h => absurd h fits.not_gt⟩
  | fields content' fc specs fields _ _ fits =>
    obtain rfl : content' = content := Option.some.inj hcontent
    exact ⟨iff_of_false (by simp) fits.not_gt, fun h => absurd h fits.not_gt⟩

/-- UNRECOGNIZED_FC, bit 4, is set of a record with a code exactly when the table has no entry for it, and
then there are no fields (R178). -/
theorem unrecognizedFc_of_keyedRecord {fc : BitVec 16} (h : KeyedRecord c mode fam k fr out)
    (hcontent : out.content = some content) (hfc : out.functionCode = some fc) :
    (out.flags.getLsbD 4 = true ↔ contentTable c k fc = none) ∧
      (contentTable c k fc = none → out.fields = []) := by
  cases h with
  | headerTruncated => simp [decodeHeader] at hcontent
  | fcAbsent content' _ _ short =>
    rw [mark_functionCode, functionCode_decodePrefix_of_short short] at hfc
    cases hfc
  | unrecognizedFc content' fc' _ _ fits hfc' absent =>
    rw [mark_functionCode, functionCode_decodePrefix fits, ← hfc'] at hfc
    obtain rfl := Option.some.inj hfc
    exact ⟨iff_of_true (by simp [flagUnrecognizedFc]) absent,
      fun _ => by simp [decodePrefix, decodeHeader]⟩
  | fields content' fc' specs fields _ _ fits hfc' entry =>
    dsimp only at hfc
    rw [functionCode_decodePrefix fits, ← hfc'] at hfc
    obtain rfl := Option.some.inj hfc
    rw [entry]
    exact ⟨iff_of_false (by simp) (Option.some_ne_none _), nofun⟩

end Keyed

/-- Settles O42: the prefix of the record's content, and what the code behind it says. -/
theorem decodeReadsContentPrefix : Obligations.DecodeReadsContentPrefix := by
  intro fr s
  refine ⟨_, decodeAnswers_decodeNow fr s, fun k content hkey hcontent => ?_⟩
  obtain ⟨-, hrec⟩ := keyedRecord_of_key hkey
  obtain ⟨hvendor, hdeviceType, hgroup, hcode, hpayload⟩ := prefix_of_keyedRecord hrec hcontent
  obtain ⟨habsent, hnofields⟩ := fcAbsent_of_keyedRecord hrec hcontent
  simp only [prefixWidths_eq, ← prefixField_eq_prefixAt]
  refine ⟨hvendor, hdeviceType, hgroup, habsent, fun hshort => ⟨?_, ?_, hnofields hshort⟩,
    fun hfits => ?_⟩
  · exact hcode.trans (functionCode_decodePrefix_of_short hshort)
  · exact hpayload.trans (if_neg hshort.not_ge)
  · change functionCodeOffset s.config k + 2 ≤ content.length at hfits
    have hfc : (decodeNow fr s).1.functionCode = some
        (content[functionCodeOffset s.config k] ++ content[functionCodeOffset s.config k + 1]) := by
      rw [hcode, functionCode_decodePrefix hfits, slice_pair hfits, ofNat_ube_pair]
    obtain ⟨hunrecognized, hnone⟩ := unrecognizedFc_of_keyedRecord hrec hcontent hfc
    exact ⟨_, _, List.getElem?_eq_getElem _, List.getElem?_eq_getElem _, hfc,
      hpayload.trans (if_pos hfits), hunrecognized, hnone⟩

/-! ### The registry (spec/30_encoding.md R73, R74) -/

theorem contentTable_eq_none {c : Config} {k : Key} {fc : BitVec 16}
    (h : ∀ e ∈ c.contentEntries, ¬ (e.key = k ∧ e.fc = fc)) : contentTable c k fc = none := by
  rw [contentTable, List.find?_eq_none.2 (by simpa using h), Option.map_none]

theorem contentTable_of_first {c : Config} {pre post : List ContentEntry} {e : ContentEntry}
    (hentries : c.contentEntries = pre ++ e :: post)
    (hpre : ∀ e' ∈ pre, ¬ (e'.key = e.key ∧ e'.fc = e.fc)) :
    contentTable c e.key e.fc = some e.specs := by
  rw [contentTable, hentries, find?_append_cons_of_first post (by simpa using hpre) (by simp),
    Option.map_some]

/-- Settles O57: WF1 to WF4 by the widths that the model reads, WF5 and WF6 by the entry looked up. -/
theorem registryMeetsItsChecks : Obligations.RegistryMeetsItsChecks := by
  refine fun c => ⟨wf1 c, (wf2 c).1, (wf2 c).2, fun k => ⟨(wf3 c k).1, (wf3 c k).2, ?_, fun fc =>
    ⟨fun specs h => ?_, ?_, contentTable_eq_none⟩⟩⟩
  · exact Option.eq_none_iff_forall_ne_some.2 fun _ h => (contentTable_eq_some h).2.2 rfl
  · refine ⟨(contentTable_eq_some h).2.1, fun spec _ => ?_⟩
    cases spec.format with
    | uint m => exact ⟨Nat.le_add_left 1 m.val, m.isLt⟩
    | text w => exact Nat.zero_le w
    | f32 => rfl
  · rintro pre e post hentries rfl rfl hpre
    exact contentTable_of_first hentries hpre

end Sys2Proof.Proofs
end

section
/-! PROOFS. What an instruction makes of a state (spec/10_state.md R20 to R25, spec/60_exceptions.md R241,
R243). `Effect` lists it once; the invariant, the owners of each register and the causes of each status
are read off its cases. -/

namespace Sys2Proof.Proofs

open Sys2Proof.Machine Sys2Proof.Claims

/-! ### The legal values of the two operands (R170, R130) -/

theorem legalVariant_iff {v : Byte} : (v = 0x00 ∨ v = 0x01 ∨ v = 0x02) ↔ v.toNat ≤ 2 := by bv_omega

theorem legalMode_iff {v : Byte} : v.extractLsb' 1 7 = 0 ↔ v.toNat ≤ 1 := by
  rw [← BitVec.toNat_inj, BitVec.extractLsb'_toNat, Nat.shiftRight_eq_div_pow]
  have hv := v.isLt
  simp
  omega

/-! ### The effect of an instruction -/

/-- What an instruction can make of a state: FEED, RESET, SET_VARIANT and WRITE_CFG write it, a BUILD
request is refused or answered, and the others read only (`n` is the count of free values after it). -/
inductive Effect (s : State) : Instr → State → Prop
  | feed (x : Bytes) : Effect s (.feed x) (feed x s)
  | reset : Effect s .reset (answered { s with carry := [] } .ok .none)
  | variantWritten (v : Byte) (legal : v.toNat ≤ 2) :
      Effect s (.setVariant v) (answered (writeVariant (v.extractLsb' 0 2) s) .ok .none)
  | variantReserved (v : Byte) (reserved : 2 < v.toNat) :
      Effect s (.setVariant v) (answered s .errOperand (.infoByte v))
  | modeWritten (v : Byte) (legal : v.toNat ≤ 1) :
      Effect s (.writeCfg v) (answered (writeFloatMode (v.extractLsb' 0 1) s) .ok .none)
  | modeReserved (v : Byte) (reserved : 1 < v.toNat) :
      Effect s (.writeCfg v) (answered s .errOperand (.infoByte v))
  | noContext (i : Instr) (absent : contextOf i = some none) :
      Effect s i (answered s .errPrecondition .none)
  | misfit (i : Instr) (kind : BuildKind) (ctx : Context) (hbuild : buildOf i = some (kind, ctx))
      (hmisfit : ¬ FitsWidths s.config kind ctx ∨ ¬ TextsFit s.config ctx.key i) :
      Effect s i (answered s .errOperand .none)
  | overlong (i : Instr) (kind : BuildKind) (ctx : Context) (hbuild : buildOf i = some (kind, ctx))
      (hlength : lengthLimit ctx.key < builtLength s.config kind ctx (payloadOf s.config ctx.key i)) :
      Effect s i (answered s .errLength
        (.infoLength (builtLength s.config kind ctx (payloadOf s.config ctx.key i))))
  | built (i : Instr) (kind : BuildKind) (ctx : Context) (hbuild : buildOf i = some (kind, ctx))
      (hwidths : FitsWidths s.config kind ctx)
      (hlength : builtLength s.config kind ctx (payloadOf s.config ctx.key i) ≤ lengthLimit ctx.key) :
      Effect s i (answered s .ok (.frame (builtFrame s.config kind ctx (payloadOf s.config ctx.key i))))
  | read (i : Instr) (n : Nat) (results : Results) (hbuild : buildOf i = none) :
      Effect s i (answered { s with draws := n } .ok results)

theorem exec_setVariant_of_legal {v : Byte} (h : v.toNat ≤ 2) (s : State) :
    exec (.setVariant v) s = .next (answered (writeVariant (v.extractLsb' 0 2) s) .ok .none) :=
  execSetVariant_legal (legalVariant_iff.2 h) s

theorem exec_setVariant_of_reserved {v : Byte} (h : 2 < v.toNat) (s : State) :
    exec (.setVariant v) s = .next (answered s .errOperand (.infoByte v)) :=
  execSetVariant_reserved (mt legalVariant_iff.1 h.not_ge) s

theorem exec_writeCfg_of_legal {v : Byte} (h : v.toNat ≤ 1) (s : State) :
    exec (.writeCfg v) s = .next (answered (writeFloatMode (v.extractLsb' 0 1) s) .ok .none) :=
  execWriteCfg_legal (legalMode_iff.2 h) s

theorem exec_writeCfg_of_reserved {v : Byte} (h : 1 < v.toNat) (s : State) :
    exec (.writeCfg v) s = .next (answered s .errOperand (.infoByte v)) :=
  execWriteCfg_reserved (mt legalMode_iff.1 h.not_ge) s

section Exec

variable {i : Instr} {s t : State}

/-- A BUILD request, whose context is absent or present, is refused or answers with its frame. -/
theorem exec_effect_of_contextOf {ctx : Option Context} (h : contextOf i = some ctx) :
    ∃ t, exec i s = .next t ∧ Effect s i t := by
  cases ctx with
  | none => exact ⟨_, buildWithoutContextIsRefused i s h, .noContext i h⟩
  | some ctx =>
    obtain ⟨kind, hbuild⟩ : ∃ kind, buildOf i = some (kind, ctx) :=
      match i, h with
      | .buildAckData _, rfl => ⟨_, rfl⟩
      | .buildAckInfo _, rfl => ⟨_, rfl⟩
      | .buildConnect _ _, rfl => ⟨_, rfl⟩
      | .buildDisconnect _ _, rfl => ⟨_, rfl⟩
      | .buildDescribe _ _ _ _ _ _, rfl => ⟨_, rfl⟩
      | .buildCalibrate _ _ _ _, rfl => ⟨_, rfl⟩
    by_cases hwidths : FitsWidths s.config kind ctx
    · by_cases htexts : TextsFit s.config ctx.key i
      · rcases Nat.lt_or_ge (lengthLimit ctx.key)
          (builtLength s.config kind ctx (payloadOf s.config ctx.key i)) with hlength | hlength
        · exact ⟨_, buildOfOverlongFrameIsRefused i kind ctx s hbuild hwidths htexts hlength,
            .overlong i kind ctx hbuild hlength⟩
        · exact ⟨_, exec_of_built hbuild hwidths htexts hlength,
            .built i kind ctx hbuild hwidths hlength⟩
      · exact ⟨_, buildOfWrongTextIsRefused i kind ctx s hbuild htexts,
          .misfit i kind ctx hbuild (.inr htexts)⟩
    · exact ⟨_, buildOfWrongWidthIsRefused i kind ctx s hbuild hwidths,
        .misfit i kind ctx hbuild (.inl hwidths)⟩

theorem exists_effect (i : Instr) (s : State) : ∃ t, exec i s = .next t ∧ Effect s i t :=
  match i with
  | .feed x => ⟨_, rfl, .feed x⟩
  | .reset => ⟨_, rfl, .reset⟩
  | .readState => ⟨_, rfl, .read _ s.draws _ rfl⟩
  | .setVariant v => (Nat.lt_or_ge 2 v.toNat).elim
      (fun h => ⟨_, exec_setVariant_of_reserved h s, .variantReserved v h⟩)
      (fun h => ⟨_, exec_setVariant_of_legal h s, .variantWritten v h⟩)
  | .writeCfg v => (Nat.lt_or_ge 1 v.toNat).elim
      (fun h => ⟨_, exec_writeCfg_of_reserved h s, .modeReserved v h⟩)
      (fun h => ⟨_, exec_writeCfg_of_legal h s, .modeWritten v h⟩)
  | .decode _ => ⟨_, rfl, .read _ _ _ rfl⟩
  | .buildAckData _ => exec_effect_of_contextOf rfl
  | .buildAckInfo _ => exec_effect_of_contextOf rfl
  | .buildConnect _ _ => exec_effect_of_contextOf rfl
  | .buildDisconnect _ _ => exec_effect_of_contextOf rfl
  | .buildDescribe _ _ _ _ _ _ => exec_effect_of_contextOf rfl
  | .buildCalibrate _ _ _ _ => exec_effect_of_contextOf rfl
  | .chkXor _ => ⟨_, rfl, .read _ s.draws _ rfl⟩
  | .chkCsum _ => ⟨_, rfl, .read _ s.draws _ rfl⟩
  | .f32Decode _ => ⟨_, rfl, .read _ _ _ rfl⟩
  | .f32Encode _ => ⟨_, rfl, .read _ s.draws _ rfl⟩

theorem effect_of_exec (h : exec i s = .next t) : Effect s i t := by
  obtain ⟨t', hexec, heffect⟩ := exists_effect i s
  obtain rfl := Host.Outcome.next.inj (hexec.symm.trans h)
  exact heffect

end Exec

/-! ### The invariant (spec/10_state.md R21 to R24) -/

theorem sessionLegal_writeVariant {s : State} (h : s.SessionLegal) {v : Byte} (hv : v.toNat ≤ 2) :
    (writeVariant (v.extractLsb' 0 2) s).SessionLegal := by
  change (s.session &&& 0xFC) ||| (v.extractLsb' 0 2).setWidth 8 = 0x00 ∨
    (s.session &&& 0xFC) ||| (v.extractLsb' 0 2).setWidth 8 = 0x01 ∨
    (s.session &&& 0xFC) ||| (v.extractLsb' 0 2).setWidth 8 = 0x02
  have hreserved : s.session &&& 0xFC = 0 := by rcases h with h | h | h <;> rw [h] <;> rfl
  rw [hreserved]
  rcases legalVariant_iff.2 hv with rfl | rfl | rfl <;> decide

theorem cfgLegal_writeFloatMode {s : State} (h : s.CfgLegal) (b : BitVec 1) :
    (writeFloatMode b s).CfgLegal := by
  change (s.cfg &&& 0xFE) ||| b.setWidth 8 = 0x00 ∨ (s.cfg &&& 0xFE) ||| b.setWidth 8 = 0x01
  have hreserved : s.cfg &&& 0xFE = 0 := by rcases h with h | h <;> rw [h] <;> rfl
  rw [hreserved]
  revert b
  decide

/-- No field but the four of the invariant's clauses counts. -/
theorem inv_of_eq {s t : State} (h : s.Inv) (hconfig : t.config = s.config) (hcarry : t.carry = s.carry)
    (hsession : t.session = s.session) (hcfg : t.cfg = s.cfg) : t.Inv := by
  obtain ⟨h1, h2, h3⟩ := h
  refine ⟨?_, ?_, ?_⟩
  · rwa [State.SessionLegal, hsession]
  · rwa [State.CfgLegal, hcfg]
  · rwa [State.CarryBounded, hconfig, hcarry]

theorem inv_of_effect {i : Instr} {s t : State} (hinv : s.Inv) (h : Effect s i t) : t.Inv := by
  cases h with
  | feed x => exact ⟨hinv.session, hinv.cfg, fun _ => length_capCarry_le⟩
  | reset => exact ⟨hinv.session, hinv.cfg, fun _ _ => Nat.zero_le _⟩
  | variantWritten v legal =>
    exact ⟨sessionLegal_writeVariant hinv.session legal, hinv.cfg, hinv.carry⟩
  | modeWritten v legal => exact ⟨hinv.session, cfgLegal_writeFloatMode hinv.cfg _, hinv.carry⟩
  | variantReserved => exact inv_of_eq hinv rfl rfl rfl rfl
  | modeReserved => exact inv_of_eq hinv rfl rfl rfl rfl
  | noContext => exact inv_of_eq hinv rfl rfl rfl rfl
  | misfit => exact inv_of_eq hinv rfl rfl rfl rfl
  | overlong => exact inv_of_eq hinv rfl rfl rfl rfl
  | built => exact inv_of_eq hinv rfl rfl rfl rfl
  | read => exact inv_of_eq hinv rfl rfl rfl rfl

/-- Settles O3: a step idles, performs an instruction, whose effect keeps the invariant, or refuses. -/
theorem stepKeepsInvariant : Obligations.StepKeepsInvariant := by
  intro s t hinv hstep
  rcases step_cases s with ⟨-, h⟩ | ⟨req, rest, i, -, -, h⟩ | ⟨req, rest, e, -, -, h⟩
  · obtain rfl := Host.Outcome.next.inj (h.symm.trans hstep)
    exact hinv
  · have hinv' : State.Inv { s with inbox := rest } := inv_of_eq hinv rfl rfl rfl rfl
    exact inv_of_effect hinv' (effect_of_exec (h.symm.trans hstep))
  · obtain rfl := Host.Outcome.next.inj (h.symm.trans hstep)
    obtain ⟨status, results, hrefuse⟩ := refuseRequest_eq_respond e { s with inbox := rest }
    rw [hrefuse]
    exact inv_of_eq hinv rfl rfl rfl rfl

/-- Settles O2: CARRY is empty, SESSION is 0 and CFG is FLOAT_MODE_RESET, whichever that is. -/
theorem resetMeetsInvariant : Obligations.ResetMeetsInvariant := by
  refine ⟨.inl rfl, ?_, fun _ _ => Nat.zero_le _⟩
  cases h : State.reset.config.floatModeReset with
  | ieee => exact .inl (reset_cfg_of_ieee h)
  | legacy => exact .inr (reset_cfg_of_legacy h)

/-! ### Frames of the effects -/

/-- Settles O14: the effects that write a register are those of its owners. -/
theorem onlyOwnersWriteState : Obligations.OnlyOwnersWriteState := by
  intro i s t hexec
  cases effect_of_exec hexec with
  | feed x => exact ⟨rfl, rfl, fun h _ => absurd rfl (h x), fun _ => rfl, fun _ => rfl⟩
  | reset => exact ⟨rfl, rfl, fun _ h => absurd rfl h, fun _ => rfl, fun _ => rfl⟩
  | variantWritten v => exact ⟨rfl, rfl, fun _ _ => rfl, fun h => absurd rfl (h v), fun _ => rfl⟩
  | modeWritten v => exact ⟨rfl, rfl, fun _ _ => rfl, fun _ => rfl, fun h => absurd rfl (h v)⟩
  | variantReserved => exact ⟨rfl, rfl, fun _ _ => rfl, fun _ => rfl, fun _ => rfl⟩
  | modeReserved => exact ⟨rfl, rfl, fun _ _ => rfl, fun _ => rfl, fun _ => rfl⟩
  | noContext => exact ⟨rfl, rfl, fun _ _ => rfl, fun _ => rfl, fun _ => rfl⟩
  | misfit => exact ⟨rfl, rfl, fun _ _ => rfl, fun _ => rfl, fun _ => rfl⟩
  | overlong => exact ⟨rfl, rfl, fun _ _ => rfl, fun _ => rfl, fun _ => rfl⟩
  | built => exact ⟨rfl, rfl, fun _ _ => rfl, fun _ => rfl, fun _ => rfl⟩
  | read => exact ⟨rfl, rfl, fun _ _ => rfl, fun _ => rfl, fun _ => rfl⟩

/-! ### Statuses (spec/60_exceptions.md R241, R243) -/

/-- FEED answers OK, or WARN_CARRY_TRUNCATED when CARRY ++ input is longer than a finite CARRY_CAP. -/
theorem feed_response_cases (x : Bytes) (s : State) :
    (∃ frames discarded, (feed x s).response = some ⟨.ok, .feed frames discarded false⟩) ∨
      ∃ cap frames discarded, s.config.carryCap = some cap ∧ cap < (s.carry ++ x).length ∧
        (feed x s).response = some ⟨.warnCarryTruncated, .feed frames discarded true⟩ := by
  simp only [feed, respond_response]
  rcases capCarry_cases s.config ((s.carry ++ x).drop (scan s.config (sessionVariant s) (s.carry ++ x)).last)
    with ⟨h, -⟩ | ⟨cap, kept, extra, hcap, hlt, -, -, h⟩ <;> rw [h]
  · exact .inl ⟨_, _, rfl⟩
  · rw [List.length_drop] at hlt
    exact .inr ⟨cap, _, _, hcap, by omega, rfl⟩

/-- An instruction that is refused changes nothing but the response, which carries the info at most. -/
theorem refusal_of_effect {i : Instr} {s t : State} {r : Response} (h : Effect s i t)
    (hr : t.response = some r) (hok : r.status ≠ .ok) (hwarn : r.status ≠ .warnCarryTruncated) :
    t = answered s r.status r.results ∧
      (r.results = .none ∨ (∃ b, r.results = .infoByte b) ∨ ∃ L, r.results = .infoLength L) := by
  cases h with
  | feed x =>
    rcases feed_response_cases x s with ⟨_, _, h⟩ | ⟨_, _, _, -, -, h⟩ <;>
      obtain rfl := Option.some.inj (h.symm.trans hr)
    · exact absurd rfl hok
    · exact absurd rfl hwarn
  | reset => obtain rfl := Option.some.inj hr; exact absurd rfl hok
  | variantWritten => obtain rfl := Option.some.inj hr; exact absurd rfl hok
  | modeWritten => obtain rfl := Option.some.inj hr; exact absurd rfl hok
  | built => obtain rfl := Option.some.inj hr; exact absurd rfl hok
  | read => obtain rfl := Option.some.inj hr; exact absurd rfl hok
  | variantReserved v => obtain rfl := Option.some.inj hr; exact ⟨rfl, .inr (.inl ⟨v, rfl⟩)⟩
  | modeReserved v => obtain rfl := Option.some.inj hr; exact ⟨rfl, .inr (.inl ⟨v, rfl⟩)⟩
  | noContext => obtain rfl := Option.some.inj hr; exact ⟨rfl, .inl rfl⟩
  | misfit => obtain rfl := Option.some.inj hr; exact ⟨rfl, .inl rfl⟩
  | overlong => obtain rfl := Option.some.inj hr; exact ⟨rfl, .inr (.inr ⟨_, rfl⟩)⟩

/-- Settles O12: a refused instruction, or a request that is none. -/
theorem refusalWritesNoState : Obligations.RefusalWritesNoState := by
  intro s t req rest r hinbox hstep hr hok hwarn
  cases hd : decode req with
  | ok i =>
    rw [step_of_decode_ok hinbox hd] at hstep
    exact refusal_of_effect (effect_of_exec hstep) hr hok hwarn
  | error e =>
    obtain rfl := Host.Outcome.next.inj ((step_of_decode_error hinbox hd).symm.trans hstep)
    cases e with
    | illegalOp opcode => obtain rfl := Option.some.inj hr; exact ⟨rfl, .inr (.inl ⟨opcode, rfl⟩)⟩
    | malformed => obtain rfl := Option.some.inj hr; exact ⟨rfl, .inl rfl⟩

/-- Settles O13: each effect raises at most one status, and carries the cause of it. -/
theorem statusesComeFromTheirOperations : Obligations.StatusesComeFromTheirOperations := by
  intro i s t r hexec hr
  cases effect_of_exec hexec with
  | feed x =>
    rcases feed_response_cases x s with ⟨_, _, h⟩ | ⟨cap, frames, discarded, hcap, hlt, h⟩ <;>
      obtain rfl := Option.some.inj (h.symm.trans hr)
    · exact ⟨nofun, nofun, nofun, nofun, nofun⟩
    · exact ⟨nofun, nofun, nofun, nofun, fun _ =>
        ⟨⟨x, cap, rfl, hcap, hlt⟩, frames, discarded, rfl⟩⟩
  | reset => obtain rfl := Option.some.inj hr; exact ⟨nofun, nofun, nofun, nofun, nofun⟩
  | variantWritten => obtain rfl := Option.some.inj hr; exact ⟨nofun, nofun, nofun, nofun, nofun⟩
  | modeWritten => obtain rfl := Option.some.inj hr; exact ⟨nofun, nofun, nofun, nofun, nofun⟩
  | built => obtain rfl := Option.some.inj hr; exact ⟨nofun, nofun, nofun, nofun, nofun⟩
  | read => obtain rfl := Option.some.inj hr; exact ⟨nofun, nofun, nofun, nofun, nofun⟩
  | variantReserved v reserved =>
    obtain rfl := Option.some.inj hr
    exact ⟨nofun, nofun, fun _ => .inl ⟨v, rfl, reserved, rfl⟩, nofun, nofun⟩
  | modeReserved v reserved =>
    obtain rfl := Option.some.inj hr
    exact ⟨nofun, nofun, fun _ => .inr (.inl ⟨v, rfl, reserved, rfl⟩), nofun, nofun⟩
  | noContext _ absent =>
    obtain rfl := Option.some.inj hr
    exact ⟨nofun, fun _ => ⟨absent, rfl⟩, nofun, nofun, nofun⟩
  | misfit _ kind ctx hbuild hmisfit =>
    obtain rfl := Option.some.inj hr
    exact ⟨nofun, nofun, fun _ => .inr (.inr ⟨kind, ctx, hbuild, rfl, hmisfit⟩), nofun, nofun⟩
  | overlong _ kind ctx hbuild hlength =>
    obtain rfl := Option.some.inj hr
    exact ⟨nofun, nofun, nofun, fun _ => ⟨kind, ctx, hbuild, rfl, hlength⟩, nofun⟩

end Sys2Proof.Proofs
end

section
/-! PROOFS. The step and the registers (spec/00_scope.md R5; spec/20_memory.md R44, R46, R49). An operation
other than FEED and READ_STATE reads the configuration, SESSION, CFG and the count of free values only, so
its response repeats; and requests are performed in their order, BOOT's three among them. -/

namespace Sys2Proof.Proofs

open Sys2Proof.Machine Sys2Proof.Claims

/-- Settles O7: the request is taken, decoded and performed. -/
theorem stepRunsDecodedRequest : Obligations.StepRunsDecodedRequest :=
  fun _ _ _ _ hinbox hdecode => step_of_decode_ok hinbox hdecode

/-- Settles O8: there is no request to take. -/
theorem idlePortHoldsState : Obligations.IdlePortHoldsState := by
  intro s hinbox
  simp only [step, takeRequest_nil s hinbox]

/-! ### Reading and writing SESSION and CFG (spec/10_state.md R22, R24) -/

theorem extractLsb'_low_and (a : Byte) : (a &&& 0x03).extractLsb' 0 2 = a.extractLsb' 0 2 := by
  apply BitVec.eq_of_getLsbD_eq
  intro i hi
  interval_cases i <;> simp

theorem extractLsb'_high_and (a : Byte) : (a &&& 0x03).extractLsb' 2 6 = 0 := by
  apply BitVec.eq_of_getLsbD_eq
  intro i hi
  interval_cases i <;> simp

theorem extractLsb'_low_and_one (a : Byte) : (a &&& 0x01).extractLsb' 0 1 = a.extractLsb' 0 1 := by
  apply BitVec.eq_of_getLsbD_eq
  intro i hi
  interval_cases i
  simp

theorem extractLsb'_high_and_one (a : Byte) : (a &&& 0x01).extractLsb' 1 7 = 0 := by
  apply BitVec.eq_of_getLsbD_eq
  intro i hi
  interval_cases i <;> simp

/-- Settles O36: the masks keep VARIANT and FLOAT_MODE and clear the reserved bits, which the invariant has
clear already. -/
theorem readStateReturnsState : Obligations.ReadStateReturnsState := by
  refine fun s => ⟨readSession s, readCfg s, rfl, extractLsb'_low_and _, extractLsb'_high_and _,
    extractLsb'_low_and_one _, extractLsb'_high_and_one _, fun hinv => ⟨?_, ?_⟩⟩
  · rw [readSession]
    rcases hinv.session with h | h | h <;> rw [h] <;> rfl
  · rw [readCfg]
    rcases hinv.cfg with h | h <;> rw [h] <;> rfl

theorem extractLsb'_reserved_writeVariant (v : BitVec 2) (s : State) :
    (writeVariant v s).session.extractLsb' 2 6 = s.session.extractLsb' 2 6 := by
  apply BitVec.eq_of_getLsbD_eq
  intro i hi
  interval_cases i <;> simp

theorem extractLsb'_mode_writeFloatMode (b : BitVec 1) (s : State) :
    (writeFloatMode b s).cfg.extractLsb' 0 1 = b := by
  apply BitVec.eq_of_getLsbD_eq
  intro i hi
  interval_cases i
  simp

theorem extractLsb'_reserved_writeFloatMode (b : BitVec 1) (s : State) :
    (writeFloatMode b s).cfg.extractLsb' 1 7 = s.cfg.extractLsb' 1 7 := by
  apply BitVec.eq_of_getLsbD_eq
  intro i hi
  interval_cases i <;> simp

/-- Settles O37: an operand up to 2 is written, any other refused. -/
theorem setVariantWritesVariant : Obligations.SetVariantWritesVariant := fun _ s =>
  ⟨fun legal => ⟨_, exec_setVariant_of_legal legal s, sessionVariant_writeVariant s _,
      extractLsb'_reserved_writeVariant _ s⟩,
    fun reserved => exec_setVariant_of_reserved reserved s⟩

/-- Settles O29: an operand up to 1 is written, any other refused. -/
theorem writeCfgWritesFloatMode : Obligations.WriteCfgWritesFloatMode := fun _ s =>
  ⟨fun legal => ⟨_, exec_writeCfg_of_legal legal s, extractLsb'_mode_writeFloatMode _ s,
      extractLsb'_reserved_writeFloatMode _ s⟩,
    fun reserved => exec_writeCfg_of_reserved reserved s⟩

/-! ### What an operation reads (spec/20_memory.md R49) -/

/-- An operation other than FEED answers by the configuration, SESSION, CFG and the count of free values,
and READ_STATE by CARRY as well. -/
theorem exec_of_agree {i : Instr} {s s' t : State} (hfeed : ∀ x, i ≠ .feed x)
    (hread : i = .readState → s'.carry = s.carry) (hconfig : s'.config = s.config)
    (hsession : s'.session = s.session) (hcfg : s'.cfg = s.cfg) (hdraws : s'.draws = s.draws)
    (h : exec i s = .next t) :
    ∃ t', exec i s' = .next t' ∧ t'.response = t.response ∧ t'.session = t.session ∧
      t'.cfg = t.cfg := by
  obtain ⟨config, carry, session, cfg, inbox, response, draws⟩ := s
  obtain ⟨config', carry', session', cfg', inbox', response', draws'⟩ := s'
  dsimp only at hread hconfig hsession hcfg hdraws
  subst hconfig hsession hcfg hdraws
  have build : ∀ r, Host.Outcome.next
        (buildResponse r ⟨config', carry, session', cfg', inbox, response, draws'⟩) =
      (Host.Outcome.next t : Host.Outcome State Fault Refusal) →
      ∃ t', Host.Outcome.next
          (buildResponse r ⟨config', carry', session', cfg', inbox', response', draws'⟩) =
        (Host.Outcome.next t' : Host.Outcome State Fault Refusal) ∧
        t'.response = t.response ∧ t'.session = t.session ∧ t'.cfg = t.cfg := by
    intro r hr
    obtain rfl := Host.Outcome.next.inj hr
    exact ⟨_, rfl, buildResponse_response .., by simp, by simp⟩
  cases i with
  | feed x => exact absurd rfl (hfeed x)
  | readState =>
    obtain rfl := hread rfl
    obtain rfl := Host.Outcome.next.inj h
    exact ⟨_, rfl, rfl, rfl, rfl⟩
  | setVariant v =>
    rcases Nat.lt_or_ge 2 v.toNat with hv | hv
    · obtain rfl := Host.Outcome.next.inj ((exec_setVariant_of_reserved hv _).symm.trans h)
      exact ⟨_, exec_setVariant_of_reserved hv _, rfl, rfl, rfl⟩
    · obtain rfl := Host.Outcome.next.inj ((exec_setVariant_of_legal hv _).symm.trans h)
      exact ⟨_, exec_setVariant_of_legal hv _, rfl, rfl, rfl⟩
  | writeCfg v =>
    rcases Nat.lt_or_ge 1 v.toNat with hv | hv
    · obtain rfl := Host.Outcome.next.inj ((exec_writeCfg_of_reserved hv _).symm.trans h)
      exact ⟨_, exec_writeCfg_of_reserved hv _, rfl, rfl, rfl⟩
    · obtain rfl := Host.Outcome.next.inj ((exec_writeCfg_of_legal hv _).symm.trans h)
      exact ⟨_, exec_writeCfg_of_legal hv _, rfl, rfl, rfl⟩
  | buildAckData => exact build _ h
  | buildAckInfo => exact build _ h
  | buildConnect => exact build _ h
  | buildDisconnect => exact build _ h
  | buildDescribe => exact build _ h
  | buildCalibrate => exact build _ h
  | reset => obtain rfl := Host.Outcome.next.inj h; exact ⟨_, rfl, rfl, rfl, rfl⟩
  | decode => obtain rfl := Host.Outcome.next.inj h; exact ⟨_, rfl, rfl, rfl, rfl⟩
  | chkXor => obtain rfl := Host.Outcome.next.inj h; exact ⟨_, rfl, rfl, rfl, rfl⟩
  | chkCsum => obtain rfl := Host.Outcome.next.inj h; exact ⟨_, rfl, rfl, rfl, rfl⟩
  | f32Decode => obtain rfl := Host.Outcome.next.inj h; exact ⟨_, rfl, rfl, rfl, rfl⟩
  | f32Encode => obtain rfl := Host.Outcome.next.inj h; exact ⟨_, rfl, rfl, rfl, rfl⟩

/-- Settles O17: CARRY and the port are not among what is read. -/
theorem carryDoesNotInfluenceOtherOperations : Obligations.CarryDoesNotInfluenceOtherOperations :=
  fun _ _ _ _ hfeed hread hconfig hsession hcfg hdraws h =>
    exec_of_agree hfeed (fun hi => absurd hi hread) hconfig hsession hcfg hdraws h

/-! ### Repeated operations (R44) -/

/-- The three operations that write a register but no frame answer by their operand alone. -/
theorem response_of_writer {i : Instr}
    (hi : i = .reset ∨ (∃ v, i = .setVariant v) ∨ ∃ v, i = .writeCfg v) {s t : State}
    (h : exec i s = .next t) (s' : State) : ∃ t', exec i s' = .next t' ∧ t'.response = t.response := by
  rcases hi with rfl | ⟨v, rfl⟩ | ⟨v, rfl⟩
  · obtain rfl := Host.Outcome.next.inj h
    exact ⟨_, rfl, rfl⟩
  · rcases Nat.lt_or_ge 2 v.toNat with hv | hv
    · obtain rfl := Host.Outcome.next.inj ((exec_setVariant_of_reserved hv _).symm.trans h)
      exact ⟨_, exec_setVariant_of_reserved hv _, rfl⟩
    · obtain rfl := Host.Outcome.next.inj ((exec_setVariant_of_legal hv _).symm.trans h)
      exact ⟨_, exec_setVariant_of_legal hv _, rfl⟩
  · rcases Nat.lt_or_ge 1 v.toNat with hv | hv
    · obtain rfl := Host.Outcome.next.inj ((exec_writeCfg_of_reserved hv _).symm.trans h)
      exact ⟨_, exec_writeCfg_of_reserved hv _, rfl⟩
    · obtain rfl := Host.Outcome.next.inj ((exec_writeCfg_of_legal hv _).symm.trans h)
      exact ⟨_, exec_writeCfg_of_legal hv _, rfl⟩

/-- Settles O16: an operation that writes no register finds what it reads as it was. -/
theorem repeatedOperationAnswersTheSame : Obligations.RepeatedOperationAnswersTheSame := by
  intro i s t hfeed h
  have hrepeat : ∃ t', exec i { t with draws := s.draws } = .next t' ∧ t'.response = t.response := by
    by_cases hi : i = .reset ∨ (∃ v, i = .setVariant v) ∨ ∃ v, i = .writeCfg v
    · exact response_of_writer hi h _
    · obtain ⟨hreset, hvariant, hmode⟩ :
          i ≠ .reset ∧ (∀ v, i ≠ .setVariant v) ∧ ∀ v, i ≠ .writeCfg v := by
        simpa only [not_or, not_exists, ne_eq] using hi
      obtain ⟨hconfig, -, hcarry, hsession, hcfg⟩ := onlyOwnersWriteState i s t h
      obtain ⟨t', hexec, hresponse, -⟩ := exec_of_agree (s' := { t with draws := s.draws }) hfeed
        (fun _ => hcarry hfeed hreset) hconfig (hsession hvariant) (hcfg hmode) rfl h
      exact ⟨t', hexec, hresponse⟩
  refine ⟨hrepeat, fun hdraws => ?_⟩
  rwa [← hdraws] at hrepeat

/-! ### Requests in order (R46) -/

theorem run_succ_of_step {s u : State} (k : Nat) (h : step s = .next u) :
    Host.Core.run Sys2Proof.core (k + 1) s = Host.Core.run Sys2Proof.core k u := by
  have hstep : Sys2Proof.core.step s = .next u := h
  simp only [Host.Core.run, hstep]

/-- Settles O15: the requests behind the first have no influence on it, and the step takes it from the
port. -/
theorem requestsTakeEffectInOrder : Obligations.RequestsTakeEffectInOrder := by
  intro is
  induction is with
  | nil =>
    rintro s rest - rfl
    exact ⟨s, rfl, rfl⟩
  | cons i is ih =>
    intro s rest hwf hinbox
    have hdecode : decode (encode i) = .ok i := decodeOfEncode i (hwf i List.mem_cons_self)
    obtain ⟨u, -, hexec, -, hu, -⟩ := exec_answers i { s with inbox := is.map encode ++ rest }
    obtain ⟨t, hrun, hperform⟩ := ih u rest (fun j hj => hwf j (List.mem_cons_of_mem i hj)) hu
    have hstep : step s = .next u := (step_of_decode_ok hinbox hdecode).trans hexec
    refine ⟨t, (run_succ_of_step is.length hstep).trans hrun, ?_⟩
    rw [performAll, exec_of_inbox i _ u rest hexec]
    exact hperform

/-! ### BOOT (spec/30_encoding.md R89) -/

theorem encode_bootExpansion (m : FloatMode) (v : Byte) :
    (bootExpansion m v).map encode = [[0x09, if m = .ieee then 0x00 else 0x01], [0x02], [0x08, v]] := by
  cases m <;> rfl

theorem getLsbD_writeFloatMode_floatModeByte (m : FloatMode) (s : State) :
    (writeFloatMode ((floatModeByte m).extractLsb' 0 1) s).cfg.getLsbD 0 = true ↔ m = .legacy := by
  cases m <;> simp [floatModeByte]

/-- Settles O18: three steps are the three meanings in order, each with a legal operand. -/
theorem bootSetsUpConnection : Obligations.BootSetsUpConnection := by
  intro m v s rest hv hinbox
  rw [← encode_bootExpansion] at hinbox
  have hwf : ∀ i ∈ bootExpansion m v, i.wf = true := by simp [bootExpansion, Instr.wf]
  obtain ⟨t, hrun, hperform⟩ := requestsTakeEffectInOrder _ s rest hwf hinbox
  have hmode : (floatModeByte m).toNat ≤ 1 := by cases m <;> decide
  simp only [bootExpansion, performAll, exec_writeCfg_of_legal hmode, exec_reset,
    exec_setVariant_of_legal hv] at hperform
  obtain rfl := Host.Outcome.next.inj hperform
  exact ⟨encode_bootExpansion m v, _, hrun, rfl, sessionVariant_writeVariant s _,
    getLsbD_writeFloatMode_floatModeByte m s, rfl, rfl, rfl, rfl⟩

end Sys2Proof.Proofs
end

section
/-! PROOFS. FEED (spec/43_reassembler.md R141 to R153). The loop's run is a greedy scan, there is only one
greedy scan of a sequence, and it goes on over a longer sequence where no marker that it passed could still
become a frame. -/

namespace Sys2Proof.Proofs

open Sys2Proof.Machine Sys2Proof.Claims

/-! ### Valid candidates (R141 to R144) -/

section Valid

variable {c : Config} {variant : BitVec 2} {W f : Bytes} {i : Nat}

theorem validFrame_of_frameValid {fam : Family} {l rest : Bytes} (hl : l.length = lengthWidth fam)
    (hlength : (marker fam :: (l ++ rest)).length = ube l + fixedOffset fam)
    (hvalid : frameValid c fam variant (marker fam :: (l ++ rest)) = true) :
    ValidFrame c variant (marker fam :: (l ++ rest)) := by
  rcases List.eq_nil_or_concat' rest with rfl | ⟨body, chk, rfl⟩
  · have := lengthWidth_lt_fixedOffset fam
    simp at hlength
    omega
  rw [← List.append_assoc, frameValid_iff] at hvalid
  cases fam with
  | fe =>
    obtain ⟨x, rfl⟩ := List.length_eq_one_iff.1 hl
    exact .inl ⟨x, body, chk, rfl, by rw [hlength, ube_singleton]; rfl,
      by simpa [checksumOf] using hvalid⟩
  | sevenE =>
    obtain ⟨h, x, rfl⟩ := List.length_eq_two.1 hl
    refine .inr ⟨h, x, body, chk, rfl, by rw [hlength, ube_pair]; rfl, ?_⟩
    simpa only [regionAfterLength_sevenE, checksumOf, List.cons_append, List.nil_append,
      List.drop_succ_cons, List.drop_zero] using hvalid

theorem probe_eq_frame_iff_validFrame :
    probe c variant W i = .frame f ↔ ValidFrame c variant f ∧ f <+: W.drop i := by
  refine ⟨fun h => ?_, fun ⟨hv, hp⟩ => probe_eq_frame_of_validFrame hv hp⟩
  obtain ⟨hp, fam, l, rest, rfl, hl, hlength, hvalid⟩ := probe_eq_frame.1 h
  exact ⟨validFrame_of_frameValid hl hlength hvalid, hp⟩

/-- A sequence begins with at most one valid candidate. -/
theorem validFrame_prefix_unique {g : Bytes} (hf : ValidFrame c variant f) (hg : ValidFrame c variant g)
    (hfW : f <+: W) (hgW : g <+: W) : f = g :=
  Probe.frame.inj ((probe_eq_frame_of_validFrame (i := 0) hf hfW).symm.trans
    (probe_eq_frame_of_validFrame hg hgW))

/-- A valid candidate begins with a marker and has the length that its length field gives (R61 to R64). -/
theorem length_of_validFrame (hf : ValidFrame c variant f) :
    ∃ fam tl, f = marker fam :: tl ∧ lengthWidth fam < tl.length ∧
      f.length = ube (tl.take (lengthWidth fam)) + fixedOffset fam := by
  obtain ⟨l, rest, chk, rfl, hlength, -⟩ | ⟨h, l, rest, chk, rfl, hlength, -⟩ := hf
  · exact ⟨.fe, _, rfl, by simp [lengthWidth], hlength.trans (congrArg (· + 5) (ube_singleton l).symm)⟩
  · exact ⟨.sevenE, _, rfl, by simp [lengthWidth], hlength.trans (congrArg (· + 4) (ube_pair h l).symm)⟩

/-- The variant counts for the region of a 7E checksum only, and only when P14 is true (R104). -/
theorem validFrame_congr_variant {variant' : BitVec 2}
    (h : c.chk7eDigiAfterLength = true → variant' = variant) :
    ValidFrame c variant' f ↔ ValidFrame c variant f := by
  cases hp14 : c.chk7eDigiAfterLength with
  | true => rw [h hp14]
  | false => simp [ValidFrame, hp14]

end Valid

/-! ### Greedy scans (R141 to R146) -/

section Greedy

variable {c : Config} {variant : BitVec 2} {W tail : Bytes} {segs : List (Bytes × Bytes)}

/-- A greedy scan cuts the sequence into its segments and its tail, in stream order (R148). -/
theorem segBytes_append_tail (h : GreedyScan c variant W segs tail) : W = segBytes segs ++ tail := by
  induction h with
  | done W => rfl
  | frame junk f rest segs tail _ _ _ ih => simp [segBytes, ih]

theorem validFrame_of_mem_segs (h : GreedyScan c variant W segs tail) :
    ∀ p ∈ segs, ValidFrame c variant p.2 := by
  induction h with
  | done W => exact fun p hp => absurd hp List.not_mem_nil
  | frame junk f rest segs tail valid _ _ ih => exact List.forall_mem_cons.2 ⟨valid, ih⟩

/-- There is one greedy scan of a sequence: its first valid candidate is the first of both. -/
theorem greedyScan_unique {segs' : List (Bytes × Bytes)} {tail' : Bytes}
    (h : GreedyScan c variant W segs tail) (h' : GreedyScan c variant W segs' tail') :
    segs = segs' ∧ tail = tail' := by
  induction h generalizing segs' tail' with
  | done W hnone =>
    cases h' with
    | done => exact ⟨rfl, rfl⟩
    | frame junk f rest segs' _ valid =>
      refine absurd ?_ (hnone junk.length f valid)
      rw [List.append_assoc, List.drop_left]
      exact List.prefix_append f rest
  | frame junk f rest segs tail valid hfirst more ih =>
    generalize hW : junk ++ f ++ rest = W at hfirst h'
    have hf : f <+: W.drop junk.length := by
      rw [← hW, List.append_assoc, List.drop_left]
      exact List.prefix_append f rest
    cases h' with
    | done _ hnone => exact absurd hf (hnone _ f valid)
    | frame junk' f' rest' segs' _ valid' hfirst' more' =>
      have hf' : f' <+: (junk' ++ f' ++ rest').drop junk'.length := by
        rw [List.append_assoc, List.drop_left]
        exact List.prefix_append f' rest'
      have hlength : junk.length = junk'.length := by
        rcases Nat.lt_trichotomy junk.length junk'.length with hlt | heq | hgt
        · exact absurd hf (hfirst' _ hlt f valid)
        · exact heq
        · exact absurd hf' (hfirst _ hgt f' valid')
      obtain rfl : f = f' := validFrame_prefix_unique valid valid' hf (hlength ▸ hf')
      rw [List.append_assoc, List.append_assoc] at hW
      obtain ⟨rfl, hrest⟩ := List.append_inj hW hlength
      obtain rfl := List.append_cancel_left hrest
      obtain ⟨rfl, rfl⟩ := ih more'
      exact ⟨rfl, rfl⟩

theorem greedyScan_congr_variant {variant' : BitVec 2}
    (hp14 : c.chk7eDigiAfterLength = true → variant' = variant) (h : GreedyScan c variant W segs tail) :
    GreedyScan c variant' W segs tail := by
  induction h with
  | done W hnone => exact .done W fun i f hf => hnone i f ((validFrame_congr_variant hp14).1 hf)
  | frame junk f rest segs tail valid hfirst _ ih =>
    exact .frame junk f rest segs tail ((validFrame_congr_variant hp14).2 valid)
      (fun i hi g hg => hfirst i hi g ((validFrame_congr_variant hp14).1 hg)) ih

/-! ### A longer sequence (R149) -/

/-- A valid candidate that reaches beyond the bytes there are begins with a marker that is unresolvable
within them. -/
theorem unresolvable_of_overlong_frame {S g : Bytes} (hg : ValidFrame c variant g) (hS : S ≠ [])
    (hprefix : S <+: g) (hlt : S.length < g.length) : Unresolvable S := by
  obtain ⟨l, rest, chk, rfl, hlength, -⟩ | ⟨h, l, rest, chk, rfl, hlength, -⟩ := hg
  · obtain ⟨S', rfl, hS'⟩ := (List.prefix_cons_iff.1 hprefix).resolve_left hS
    refine .inl ⟨S', rfl, ?_⟩
    rcases List.prefix_cons_iff.1 hS' with rfl | ⟨S'', rfl, -⟩
    · exact .inl rfl
    · exact .inr ⟨l, S'', rfl, hlength ▸ hlt⟩
  · obtain ⟨S', rfl, hS'⟩ := (List.prefix_cons_iff.1 hprefix).resolve_left hS
    refine .inr ⟨S', rfl, ?_⟩
    rcases List.prefix_cons_iff.1 hS' with rfl | ⟨S'', rfl, hS''⟩
    · exact .inl (by decide)
    rcases List.prefix_cons_iff.1 hS'' with rfl | ⟨S''', rfl, -⟩
    · exact .inl (by simp)
    · exact .inr ⟨h, l, S''', rfl, hlength ▸ hlt⟩

/-- A valid candidate that begins only in the longer sequence reaches beyond the shorter one. -/
theorem unresolvable_of_prefix_append {S b g : Bytes} (hg : ValidFrame c variant g) (hS : S ≠ [])
    (hno : ¬ g <+: S) (hyes : g <+: S ++ b) : Unresolvable S := by
  have hlt : S.length < g.length := by
    by_contra hle
    exact hno (List.prefix_of_prefix_length_le hyes (List.prefix_append S b) (Nat.le_of_not_lt hle))
  exact unresolvable_of_overlong_frame hg hS
    (List.prefix_of_prefix_length_le (List.prefix_append S b) hyes hlt.le) hlt

/-- The scan of a sequence, then that of its tail with what follows, is the scan of both together, when
every marker passed before the last frame could be resolved. -/
theorem greedyScan_append {b tail' : Bytes} {segs' : List (Bytes × Bytes)}
    (h : GreedyScan c variant W segs tail)
    (hresolve : ∀ pre junk f post, segs = pre ++ (junk, f) :: post → ∀ i < junk.length,
      ¬ Unresolvable (W.drop ((segBytes pre).length + i)))
    (h' : GreedyScan c variant (tail ++ b) segs' tail') :
    GreedyScan c variant (W ++ b) (segs ++ segs') tail' := by
  induction h with
  | done W => exact h'
  | frame junk f rest segs tail valid hfirst _ ih =>
    have hrest : ∀ pre junk' f' post, segs = pre ++ (junk', f') :: post → ∀ i < junk'.length,
        ¬ Unresolvable (rest.drop ((segBytes pre).length + i)) := by
      intro pre junk' f' post hsegs i hi
      have hdrop : (junk ++ f ++ rest).drop ((segBytes ((junk, f) :: pre)).length + i) =
          rest.drop ((segBytes pre).length + i) := by
        rw [segBytes, List.flatMap_cons, List.length_append, Nat.add_assoc, List.drop_append,
          List.drop_eq_nil_of_le (Nat.le_add_right ..), List.nil_append, Nat.add_sub_cancel_left]
        rfl
      rw [← hdrop]
      exact hresolve ((junk, f) :: pre) junk' f' post (by rw [hsegs]; rfl) i hi
    rw [List.append_assoc]
    refine .frame junk f (rest ++ b) (segs ++ segs') tail' valid ?_ (ih hrest h')
    intro i hi g hg hprefix
    have hi' : i ≤ (junk ++ f ++ rest).length := by
      rw [List.append_assoc, List.length_append]
      omega
    have hne : (junk ++ f ++ rest).drop i ≠ [] := by
      rw [Ne, List.drop_eq_nil_iff, List.append_assoc, List.length_append]
      omega
    rw [← List.append_assoc, List.drop_append_of_le_length hi'] at hprefix
    have hun := unresolvable_of_prefix_append hg hne (hfirst i hi g hg) hprefix
    exact hresolve [] junk f segs rfl i hi (by simpa [segBytes] using hun)

end Greedy

/-! ### The loop (R141) -/

section Loop

variable (c : Config) (variant : BitVec 2) (W : Bytes)

/-- No valid candidate begins at the indices from `a` to `b - 1`. -/
def NoFrameBetween (a b : Nat) : Prop := ∀ j, a ≤ j → j < b → ∀ f, probe c variant W j ≠ .frame f

variable {c variant W}

theorem greedyScan_done {last : Nat} (h : NoFrameBetween c variant W last W.length) :
    GreedyScan c variant (W.drop last) [] (W.drop last) := by
  refine .done _ fun i f hf hp => ?_
  rw [List.drop_drop] at hp
  have hprobe := probe_eq_frame_iff_validFrame.2 ⟨hf, hp⟩
  rcases Nat.lt_or_ge (last + i) W.length with hlt | hge
  · exact h _ (Nat.le_add_right ..) hlt f hprobe
  · rw [probe_past hge] at hprobe
    cases hprobe

/-- A frame found at the cursor ends a segment of the bytes since the last one. -/
theorem greedyScan_frame {last i : Nat} {f tail : Bytes} {segs : List (Bytes × Bytes)}
    (hlast : last ≤ i) (hi : i < W.length) (hno : NoFrameBetween c variant W last i)
    (hf : probe c variant W i = .frame f)
    (more : GreedyScan c variant (W.drop (i + f.length)) segs tail) :
    GreedyScan c variant (W.drop last) ((slice W last i, f) :: segs) tail := by
  have hjunk : slice W last i ++ W.drop i = W.drop last := by
    rw [← slice_length, slice_append_slice _ _ _ _ hlast hi.le, slice_length]
  have hW : slice W last i ++ f ++ W.drop (i + f.length) = W.drop last := by
    rw [List.append_assoc, ← probe_frame_slice hf, hjunk]
  rw [← hW]
  refine .frame _ f _ segs tail (probe_eq_frame_iff_validFrame.1 hf).1 (fun j hj g hg hp => ?_) more
  rw [length_slice] at hj
  rw [hW, List.drop_drop] at hp
  exact hno (last + j) (Nat.le_add_right ..) (by omega) g (probe_eq_frame_iff_validFrame.2 ⟨hg, hp⟩)

/-- From a cursor behind which nothing was missed, with fuel for the rest, the loop is a greedy scan. -/
theorem scanLoop_greedyScan (fuel : Nat) (st : Scan) (hlast : st.last ≤ st.i)
    (hfuel : W.length ≤ st.i + fuel) (hno : NoFrameBetween c variant W st.last st.i) :
    ∃ segs, GreedyScan c variant (W.drop st.last) segs
        (W.drop (scanLoop c variant W fuel st).last) ∧
      (scanLoop c variant W fuel st).frames = st.frames ++ segs.map Prod.snd ∧
      (scanLoop c variant W fuel st).discarded = st.discarded ++ segs.flatMap Prod.fst := by
  have hdone : W.length ≤ st.i → GreedyScan c variant (W.drop st.last) [] (W.drop st.last) :=
    fun h => greedyScan_done fun j hj hlt => hno j hj (hlt.trans_le h)
  induction fuel generalizing st with
  | zero => exact ⟨[], hdone hfuel, by simp [scanLoop], by simp [scanLoop]⟩
  | succ fuel ih =>
    rcases Nat.lt_or_ge st.i W.length with hi | hi
    · rw [scanLoop_turn hi]
      rcases scanStep_cases c variant W st with ⟨f, hf, hstep⟩ | ⟨hnone, hstep⟩
      · have hpos := probe_frame_pos hf
        rw [hstep]
        set st' : Scan :=
          ⟨st.i + f.length, st.i + f.length, st.frames ++ [f], st.discarded ++ slice W st.last st.i⟩
        have hno' : NoFrameBetween c variant W st'.last st'.i := fun j hj hlt => absurd hlt hj.not_gt
        obtain ⟨segs, hscan, hframes, hdiscarded⟩ := ih st' le_rfl (by dsimp only [st']; omega) hno'
          fun h => greedyScan_done fun j hj hlt => hno' j hj (hlt.trans_le h)
        exact ⟨_, greedyScan_frame hlast hi hno hf hscan, by simp [hframes, st'],
          by simp [hdiscarded, st']⟩
      · rw [hstep]
        have hno' : NoFrameBetween c variant W st.last (st.i + 1) := by
          intro j hj hlt
          rcases Nat.lt_succ_iff_lt_or_eq.1 hlt with h | rfl
          · exact hno j hj h
          · exact hnone
        exact ih { st with i := st.i + 1 } (by dsimp only; omega) (by dsimp only; omega) hno'
          fun h => greedyScan_done fun j hj hlt => hno' j hj (hlt.trans_le h)
    · rw [scanLoop_done hi]
      exact ⟨[], hdone hi, by simp, by simp⟩

theorem scan_greedyScan (c : Config) (variant : BitVec 2) (W : Bytes) :
    ∃ segs, GreedyScan c variant W segs (W.drop (scan c variant W).last) ∧
      (scan c variant W).frames = segs.map Prod.snd ∧
      (scan c variant W).discarded = segs.flatMap Prod.fst := by
  simpa [scan] using scanLoop_greedyScan (c := c) (variant := variant) (W := W) W.length ⟨0, 0, [], []⟩
    le_rfl (Nat.le_add_left ..) fun j _ hlt => absurd hlt (Nat.not_lt_zero j)

end Loop

/-! ### FEED's answer (R147, R148) -/

theorem cappedTail_capCarry (c : Config) (tail : Bytes) :
    CappedTail c tail (capCarry c tail).kept (capCarry c tail).extra (capCarry c tail).truncated := by
  rcases capCarry_cases c tail with
    ⟨h, hbound⟩ | ⟨cap, kept, extra, hcap, hlt, htail, hkept, h⟩ <;> rw [h]
  · refine ⟨rfl, iff_of_false Bool.false_ne_true ?_, fun _ => rfl, nofun⟩
    rintro ⟨cap, hcap, hlt⟩
    exact absurd (hbound cap hcap) hlt.not_ge
  · exact ⟨htail, iff_of_true rfl ⟨cap, hcap, hlt⟩, nofun, fun _ => hkept ▸ hcap⟩

/-- Settles O30: the greedy scan is the loop's, and its tail is bounded as `cap` does it. -/
theorem feedIsGreedyScan : Obligations.FeedIsGreedyScan := by
  intro input s
  obtain ⟨segs, hscan, hframes, hdiscarded⟩ :=
    scan_greedyScan s.config (sessionVariant s) (s.carry ++ input)
  refine ⟨segs, _, _, _, _, hscan, cappedTail_capCarry s.config _, ?_⟩
  rw [← hframes, ← hdiscarded]
  rfl

/-- Settles O31: the segments and the tail of the greedy scan are the sequence, and the tail is what is
cut off it and what is kept. -/
theorem feedAccountsForEveryByte : Obligations.FeedAccountsForEveryByte := by
  intro input s
  obtain ⟨segs, tail, kept, extra, cut, hscan, ⟨htail, -⟩, hexec⟩ := feedIsGreedyScan input s
  refine ⟨segs, extra, _, _, cut, hexec, ?_, validFrame_of_mem_segs hscan, rfl⟩
  rw [segBytes_append_tail hscan, htail, List.append_assoc]
  rfl

/-- Settles O32: what `cap` keeps is within the bound. -/
theorem feedBoundsCarry : Obligations.FeedBoundsCarry :=
  fun input s _ hcap => ⟨_, exec_feed input s, length_capCarry_le hcap⟩

/-- Settles O34: the scan of the frame alone emits it and leaves nothing. -/
theorem validFrameIsEmitted : Obligations.ValidFrameIsEmitted :=
  fun _ _ hcarry hvalid => exec_feed_of_validFrame hcarry hvalid

/-- With CARRY_CAP = INF a FEED answers by the greedy scan and keeps its tail. -/
theorem exec_feed_of_greedyScan {input tail : Bytes} {s : State} {segs : List (Bytes × Bytes)}
    (hcap : s.config.carryCap = none)
    (h : GreedyScan s.config (s.session.extractLsb' 0 2) (s.carry ++ input) segs tail) :
    exec (.feed input) s = .next (answered { s with carry := tail } .ok
      (.feed (segs.map Prod.snd) (segs.flatMap Prod.fst) false)) := by
  obtain ⟨segs', tail', kept, extra, cut, hscan, ⟨htail, hcut, hextra, -⟩, hexec⟩ :=
    feedIsGreedyScan input s
  obtain ⟨rfl, rfl⟩ := greedyScan_unique h hscan
  have hcut' : cut = false := by
    rw [← Bool.not_eq_true, hcut, hcap]
    rintro ⟨cap, hnone, -⟩
    cases hnone
  obtain rfl := hextra hcut'
  rw [hexec, hcut', htail]
  simp

/-- Settles O33: the second FEED scans the first one's tail with what follows. -/
theorem feedSplitsWhereMarkersResolve : Obligations.FeedSplitsWhereMarkersResolve := by
  intro b1 b2 s x segs tail hcap hp14 hscan hresolve
  obtain ⟨segs', hscan', -, -⟩ := scan_greedyScan s.config (s.session.extractLsb' 0 2) (tail ++ b2)
  have hboth := greedyScan_append hscan hresolve hscan'
  rw [List.append_assoc] at hboth
  refine ⟨_, _, _, _, _, _, _, exec_feed_of_greedyScan hcap hscan, rfl,
    exec_feed_of_greedyScan hcap (greedyScan_congr_variant hp14 hscan'), rfl,
    exec_feed_of_greedyScan hcap hboth, ?_, rfl⟩
  rw [List.map_append, List.flatMap_append]
  rfl

/-! ### Emitted frames -/

/-- FEED emits valid candidates only (R144). -/
theorem validFrame_of_mem_frames {input : Bytes} {s t : State} {status : Status} {frames : List Bytes}
    {discarded : Bytes} {cut : Bool} (hexec : exec (.feed input) s = .next t)
    (hresponse : t.response = some ⟨status, .feed frames discarded cut⟩) {f : Bytes} (hf : f ∈ frames) :
    ValidFrame s.config (s.session.extractLsb' 0 2) f := by
  obtain ⟨segs, extra, t', status', cut', hexec', -, hvalid, hresponse'⟩ :=
    feedAccountsForEveryByte input s
  obtain rfl := Host.Outcome.next.inj (hexec'.symm.trans hexec)
  obtain ⟨-, hresults⟩ := Response.mk.inj (Option.some.inj (hresponse'.symm.trans hresponse))
  obtain ⟨rfl, -, -⟩ := Results.feed.inj hresults
  obtain ⟨p, hp, rfl⟩ := List.mem_map.1 hf
  exact hvalid p hp

/-- Settles O45: a valid candidate begins with a marker and has its length. -/
theorem fedFrameHasItsLength : Obligations.FedFrameHasItsLength := by
  intro input s t status frames discarded cut hexec hresponse f hf u
  obtain ⟨fam, tl, rfl, -, hlength⟩ := length_of_validFrame (validFrame_of_mem_frames hexec hresponse hf)
  obtain ⟨h0, -, -, h5⟩ := flags_decodeNow_marker fam tl u
  refine ⟨_, decodeAnswers_decodeNow _ u, h0, ?_⟩
  rw [← Bool.not_eq_true, h5]
  exact fun ⟨_, hne⟩ => hne hlength

/-! ### One byte changed (spec/41_checksum.md R106, R107) -/

theorem xor8_set_ne {data : Bytes} {j : Nat} {b : Byte} (hj : j < data.length) (hb : data[j]? ≠ some b) :
    xor8 (data.set j b) ≠ xor8 data := by
  obtain ⟨pre, old, post, hdata, hset, hold, -⟩ := split_at hj b
  rw [hset, hdata, xor8_replace pre post old b]
  intro h
  have hzero : old ^^^ b = 0 := by simpa using h
  exact hb (hold.trans (congrArg some (BitVec.xor_eq_zero_iff.1 hzero)))

theorem sum8_set_ne {data : Bytes} {j : Nat} {b : Byte} (hj : j < data.length) (hb : data[j]? ≠ some b) :
    sum8 (data.set j b) ≠ sum8 data := by
  obtain ⟨pre, old, post, hdata, hset, hold, -⟩ := split_at hj b
  rw [hset, hdata, sum8_replace pre post old b]
  intro h
  have hzero : b - old = 0 := by simpa using h
  exact hb (hold.trans (congrArg some (sub_eq_zero.1 hzero).symm))

/-- Settles O21: the XOR of the two bytes and their difference are not 0. -/
theorem oneByteChangeChangesChecksums : Obligations.OneByteChangeChangesChecksums :=
  fun _ _ _ hj hb => ⟨xor8_set_ne hj hb, fun h => sum8_set_ne hj hb (csum8_inj.1 h)⟩

section Corrupt

variable {c : Config} {variant : BitVec 2}

/-- The XOR of an FE candidate's bytes after the header, its checksum included, is 0. -/
theorem xor8_of_validFrame {tl : Bytes} (h : ValidFrame c variant (0xFE :: tl)) : xor8 tl = 0 := by
  obtain ⟨l, rest, chk, hf, -, rfl⟩ | ⟨_, _, _, _, hf, -⟩ := h
  · obtain ⟨-, rfl⟩ := List.cons.inj hf
    rw [← List.cons_append, xor8_snoc, BitVec.xor_self]
    rfl
  · cases (List.cons.inj hf).1

/-- The sum of a 7E candidate's bytes in the region and its checksum is 0xFF. -/
theorem sum8_of_validFrame {h l : Byte} {tl : Bytes} (hv : ValidFrame c variant (0x7E :: h :: l :: tl)) :
    tl.length + 3 = 256 * h.toNat + l.toNat + 4 ∧
      sum8 (if c.chk7eDigiAfterLength = true ∧ variant = 0b01 then tl else h :: l :: tl) = 0xFF := by
  obtain ⟨_, _, _, hf, -⟩ | ⟨h', l', rest, chk, hf, hlength, rfl⟩ := hv
  · cases (List.cons.inj hf).1
  · obtain ⟨-, hf⟩ := List.cons.inj hf
    obtain ⟨rfl, hf⟩ := List.cons.inj hf
    obtain ⟨rfl, rfl⟩ := List.cons.inj hf
    refine ⟨hlength, ?_⟩
    split_ifs
    · rw [sum8_snoc, csum8, add_sub_cancel]
    · rw [← List.cons_append, ← List.cons_append, sum8_snoc, csum8, add_sub_cancel]

/-- One byte after the header changed leaves no valid candidate: a length byte gives another length or is
in the checksum's region, and every other byte is in the region or is the checksum. -/
theorem not_validFrame_set {f : Bytes} {j : Nat} {b : Byte} (hv : ValidFrame c variant f) (hj : 1 ≤ j)
    (hlt : j < f.length) (hb : f[j]? ≠ some b) : ¬ ValidFrame c variant (f.set j b) := by
  intro hv'
  obtain ⟨j, rfl⟩ : ∃ m, j = m + 1 := ⟨j - 1, by omega⟩
  obtain ⟨fam, tl, rfl, hlw, -⟩ := length_of_validFrame hv
  rw [List.getElem?_cons_succ] at hb
  rw [List.length_cons, Nat.add_lt_add_iff_right] at hlt
  rw [List.set_cons_succ] at hv'
  cases fam with
  | fe => exact xor8_set_ne hlt hb ((xor8_of_validFrame hv').trans (xor8_of_validFrame hv).symm)
  | sevenE =>
    obtain ⟨h, l, tl, rfl⟩ : ∃ h l tl', tl = h :: l :: tl' := by
      match tl, hlw with
      | h :: l :: tl', _ => exact ⟨h, l, tl', rfl⟩
    obtain ⟨hlen, hsum⟩ := sum8_of_validFrame hv
    match j with
    | 0 =>
      obtain ⟨hlen', -⟩ := sum8_of_validFrame hv'
      exact hb (congrArg some (BitVec.eq_of_toNat_eq (by omega)))
    | 1 =>
      obtain ⟨hlen', -⟩ := sum8_of_validFrame hv'
      exact hb (congrArg some (BitVec.eq_of_toNat_eq (by omega)))
    | m + 2 =>
      obtain ⟨-, hsum'⟩ := sum8_of_validFrame hv'
      have hne := hsum'.trans hsum.symm
      split_ifs at hne with hafter
      · exact sum8_set_ne (by simpa using hlt) (by simpa using hb) hne
      · exact sum8_set_ne (j := m + 2) hlt hb hne

end Corrupt

/-- Settles O22: FEED emits valid candidates only. -/
theorem corruptFrameIsNotEmitted : Obligations.CorruptFrameIsNotEmitted := by
  intro f s j b _ hv hj hlt hb
  obtain ⟨segs, extra, t, status, cut, hexec, -, -, hresponse⟩ := feedAccountsForEveryByte (f.set j b) s
  exact ⟨t, status, _, _, cut, hexec, hresponse, fun hmem =>
    not_validFrame_set hv hj hlt hb (validFrame_of_mem_frames hexec hresponse hmem)⟩

end Sys2Proof.Proofs
end

section
/-! PROOFS. A built frame read back (spec/45_encoder.md R203, R212). It is its marker, its length field, its
regions in the layout's widths, its content and its checksum, so FEED finds it valid and DECODE cuts it
where the encoder joined it. -/

namespace Sys2Proof.Proofs

open Sys2Proof.Machine Sys2Proof.Claims

/-! ### Which frame is answered -/

/-- A BUILD request that answers a frame passed every check, and the frame is the skeleton's. -/
theorem eq_builtFrame_of_exec {i : Instr} {kind : BuildKind} {ctx : Context} {s t : State} {f : Bytes}
    (hbuild : buildOf i = some (kind, ctx)) (hexec : exec i s = .next t)
    (hresponse : t.response = some ⟨.ok, .frame f⟩) :
    FitsWidths s.config kind ctx ∧
      builtLength s.config kind ctx (payloadOf s.config ctx.key i) ≤ lengthLimit ctx.key ∧
      f = builtFrame s.config kind ctx (payloadOf s.config ctx.key i) := by
  cases effect_of_exec hexec with
  | built _ kind' ctx' hbuild' hwidths hlength =>
    obtain ⟨rfl, rfl⟩ := Prod.mk.inj (Option.some.inj (hbuild'.symm.trans hbuild))
    obtain ⟨-, hresults⟩ := Response.mk.inj (Option.some.inj hresponse)
    exact ⟨hwidths, hlength, (Results.frame.inj hresults).symm⟩
  | read _ n results hnone => cases hnone.symm.trans hbuild
  | feed => cases hbuild
  | reset => cases hbuild
  | variantWritten => cases hbuild
  | variantReserved => cases hbuild
  | modeWritten => cases hbuild
  | modeReserved => cases hbuild
  | noContext => cases hresponse
  | misfit => cases hresponse
  | overlong => cases hresponse

/-! ### The parts of a built frame (R205) -/

section Built

variable {c : Config} {kind : BuildKind} {ctx : Context} {p : Bytes}

theorem builtFrame_eq_parts (c : Config) (kind : BuildKind) (ctx : Context) (p : Bytes) :
    ∃ chk, builtFrame c kind ctx p = marker (keyFamily ctx.key) ::
      (be (lengthWidth (keyFamily ctx.key)) (builtLength c kind ctx p) ++
        (txCommand c ctx.key kind ctx ++ ctx.address ++ txUnparsed c ctx.key kind ctx ++
          builtContent c kind ctx p) ++ [chk]) := by
  obtain ⟨k, command, address, unparsed, vendor, deviceType, group⟩ := ctx
  cases k <;> exact ⟨_, rfl⟩

/-- The length value is the total length less OFFSET (R207). -/
theorem length_regions (h : FitsWidths c kind ctx) :
    (txCommand c ctx.key kind ctx ++ ctx.address ++ txUnparsed c ctx.key kind ctx ++
        builtContent c kind ctx p).length + 2 + lengthWidth (keyFamily ctx.key) =
      builtLength c kind ctx p + fixedOffset (keyFamily ctx.key) := by
  obtain ⟨k, command, address, unparsed, vendor, deviceType, group⟩ := ctx
  obtain ⟨hcommand, haddress, hunparsed, -⟩ := h
  dsimp only at hcommand haddress hunparsed
  rw [List.length_append, List.length_append, List.length_append, hcommand, haddress, hunparsed]
  cases k <;> simp only [widths, builtLength, keyFamily, lengthWidth, fixedOffset] <;> omega

theorem ube_lengthField (h : builtLength c kind ctx p ≤ lengthLimit ctx.key) :
    ube (be (lengthWidth (keyFamily ctx.key)) (builtLength c kind ctx p)) = builtLength c kind ctx p :=
  ube_be _ _ (by rw [two_pow_lengthWidth]; omega)

/-- The variant that FEED reads gives the checksum region that the context's key gives (R104, R205). -/
theorem validFrame_builtFrame {variant : BitVec 2} (hwidths : FitsWidths c kind ctx)
    (hlength : builtLength c kind ctx p ≤ lengthLimit ctx.key)
    (hvariant : c.chk7eDigiAfterLength = true → ctx.key ≠ .fe → (variant = 0b01 ↔ ctx.key = .digi)) :
    ValidFrame c variant (builtFrame c kind ctx p) := by
  have hregions := length_regions (p := p) hwidths
  have hube := ube_lengthField hlength
  obtain ⟨k, command, address, unparsed, vendor, deviceType, group⟩ := ctx
  cases k with
  | fe =>
    obtain ⟨l, hl⟩ := List.length_eq_one_iff.1
      (length_be 1 (builtLength c kind ⟨.fe, command, address, unparsed, vendor, deviceType, group⟩ p))
    simp only [keyFamily, lengthWidth, fixedOffset, hl, ube_singleton] at hregions hube
    refine .inl ⟨l, _, _, by rw [builtFrame, hl]; rfl, ?_, rfl⟩
    simp only [builtFrame, hl, List.length_cons, List.length_append, List.length_nil] at hregions ⊢
    omega
  | digi =>
    obtain ⟨h, l, hl⟩ := List.length_eq_two.1
      (length_be 2 (builtLength c kind ⟨.digi, command, address, unparsed, vendor, deviceType, group⟩ p))
    simp only [keyFamily, lengthWidth, fixedOffset, hl, ube_pair] at hregions hube
    refine .inr ⟨h, l, _, _, by rw [builtFrame, hl]; rfl, ?_, ?_⟩
    · simp only [builtFrame, hl, List.length_cons, List.length_append, List.length_nil] at hregions ⊢
      omega
    · have hcond : (c.chk7eDigiAfterLength = true ∧ variant = 0b01) ↔ c.chk7eDigiAfterLength = true :=
        ⟨And.left, fun hp14 => ⟨hp14, (hvariant hp14 nofun).2 rfl⟩⟩
      simp only [hcond]
      rfl
  | lora =>
    obtain ⟨h, l, hl⟩ := List.length_eq_two.1
      (length_be 2 (builtLength c kind ⟨.lora, command, address, unparsed, vendor, deviceType, group⟩ p))
    simp only [keyFamily, lengthWidth, fixedOffset, hl, ube_pair] at hregions hube
    refine .inr ⟨h, l, _, _, by rw [builtFrame, hl]; rfl, ?_, ?_⟩
    · simp only [builtFrame, hl, List.length_cons, List.length_append, List.length_nil] at hregions ⊢
      omega
    · have hcond : ¬ (c.chk7eDigiAfterLength = true ∧ variant = 0b01) := fun ⟨hp14, hv⟩ =>
        nomatch (hvariant hp14 nofun).1 hv
      rw [if_neg hcond]
      rfl

end Built

/-- Settles O55: a built frame is a valid candidate. -/
theorem builtFrameIsFedBack : Obligations.BuiltFrameIsFedBack := by
  intro i kind ctx s t f hbuild hexec hresponse hcarry hvariant
  obtain ⟨hwidths, hlength, rfl⟩ := eq_builtFrame_of_exec hbuild hexec hresponse
  exact exec_feed_of_validFrame hcarry (validFrame_builtFrame hwidths hlength hvariant)

/-! ### The header regions behind the length field (R203) -/

theorem contextRegions_eq {c : Config} (kind : BuildKind) (ctx : Context) (hcommand : c.txCommandRules = [])
    (hunparsed : c.txUnparsedRules = []) :
    contextRegions ctx = txCommand c ctx.key kind ctx ++ ctx.address ++ txUnparsed c ctx.key kind ctx := by
  obtain ⟨k, command, address, unparsed, vendor, deviceType, group⟩ := ctx
  cases k <;>
    simp [contextRegions, txCommand, txUnparsed, txRule, hcommand, hunparsed, txCommandDefault,
      txUnparsedDefault]

/-- Settles O59: the regions stand right behind the length field and have the layout's widths. -/
theorem buildSendsContextRegions : Obligations.BuildSendsContextRegions := by
  intro i kind ctx s t f hcommand hunparsed hbuild hexec hresponse
  obtain ⟨⟨hcw, haw, huw, -⟩, -, rfl⟩ := eq_builtFrame_of_exec hbuild hexec hresponse
  obtain ⟨chk, hframe⟩ := builtFrame_eq_parts s.config kind ctx (payloadOf s.config ctx.key i)
  rw [contextRegions_eq kind ctx hcommand hunparsed]
  refine ⟨?_, by rw [List.length_append, List.length_append, hcw, haw, huw]⟩
  simp only [widths_eq]
  rw [hframe, Nat.add_comm, List.drop_succ_cons, List.append_assoc (be _ _), List.drop_left' (length_be ..)]
  exact (List.prefix_append _ _).trans (List.prefix_append _ _)

/-! ### DECODE of a built frame (R212) -/

theorem sliceWithin_append {pre mid : Bytes} (post : Bytes) {a n : Nat} (ha : pre.length = a)
    (hn : mid.length = n) : sliceWithin (pre ++ mid ++ post) a n = some mid := by
  subst ha hn
  refine sliceWithin_eq_some.2 ⟨by simp, ?_⟩
  rw [slice, ← List.length_append, List.take_left, List.drop_left]

theorem prefixField_append {pre mid : Bytes} (post : Bytes) {a n : Nat} (ha : pre.length = a)
    (hn : mid.length = n) : prefixField (pre ++ mid ++ post) a n = ⟨.ok, mid, ube mid⟩ := by
  rw [prefixField, sliceWithin_append post ha hn]

section Decoded

variable {c : Config} {kind : BuildKind} {ctx : Context} {p : Bytes}

/-- The content of a built frame, cut at the prefix widths and the function code (R205 step 2). -/
theorem prefix_builtContent (h : FitsWidths c kind ctx) (out : DecodedFrame) :
    prefixField (builtContent c kind ctx p) 0 (vendorWidth c ctx.key) =
        ⟨.ok, ctx.vendor, ube ctx.vendor⟩ ∧
      prefixField (builtContent c kind ctx p) (vendorWidth c ctx.key) (deviceTypeWidth c ctx.key) =
        ⟨.ok, ctx.deviceType, ube ctx.deviceType⟩ ∧
      prefixField (builtContent c kind ctx p) (vendorWidth c ctx.key + deviceTypeWidth c ctx.key)
        (groupWidth c ctx.key) = ⟨.ok, ctx.group, ube ctx.group⟩ ∧
      (decodePrefix c ctx.key (builtContent c kind ctx p) out).functionCode =
        some (txCode c ctx.key kind) ∧
      functionCodeOffset c ctx.key + 2 ≤ (builtContent c kind ctx p).length ∧
      (builtContent c kind ctx p).drop (functionCodeOffset c ctx.key + 2) = p := by
  obtain ⟨-, -, -, hvendor, hdeviceType, hgroup⟩ := h
  rw [prefixWidths_eq] at hvendor hdeviceType hgroup
  have hgroupAt : (ctx.vendor ++ ctx.deviceType).length =
      vendorWidth c ctx.key + deviceTypeWidth c ctx.key := by
    rw [List.length_append, hvendor, hdeviceType]
  have hcodeAt : (ctx.vendor ++ ctx.deviceType ++ ctx.group).length = functionCodeOffset c ctx.key := by
    rw [List.length_append, hgroupAt, hgroup]
    rfl
  have hpayloadAt : (ctx.vendor ++ ctx.deviceType ++ ctx.group ++ be 2 (txCode c ctx.key kind).toNat).length =
      functionCodeOffset c ctx.key + 2 := by
    rw [List.length_append, hcodeAt, length_be]
  refine ⟨?_, ?_, ?_, ?_, ?_, List.drop_left' hpayloadAt⟩
  · rw [builtContent, List.append_assoc, List.append_assoc, List.append_assoc]
    exact prefixField_append (pre := []) _ rfl hvendor
  · rw [builtContent, List.append_assoc, List.append_assoc]
    exact prefixField_append _ hvendor hdeviceType
  · rw [builtContent, List.append_assoc]
    exact prefixField_append _ hgroupAt hgroup
  · have hcode : (txCode c ctx.key kind).toNat < 256 ^ 2 := (txCode c ctx.key kind).isLt
    simp only [decodePrefix, builtContent, sliceWithin_append p hcodeAt (length_be 2 _), Option.map_some,
      ube_be 2 _ hcode, BitVec.ofNat_toNat, BitVec.setWidth_eq]
  · rw [builtContent, List.length_append, hpayloadAt]
    exact Nat.le_add_right ..

/-- A built frame is marked by its key's family and has the length that its length field gives (R207). -/
theorem length_builtFrame (hwidths : FitsWidths c kind ctx)
    (hlength : builtLength c kind ctx p ≤ lengthLimit ctx.key) :
    ∃ tl, builtFrame c kind ctx p = marker (keyFamily ctx.key) :: tl ∧
      (builtFrame c kind ctx p).length =
        ube (tl.take (lengthWidth (keyFamily ctx.key))) + fixedOffset (keyFamily ctx.key) := by
  obtain ⟨chk, hframe⟩ := builtFrame_eq_parts c kind ctx p
  refine ⟨_, hframe, ?_⟩
  rw [List.append_assoc, List.take_left' (length_be ..), ube_lengthField hlength, hframe,
    ← length_regions hwidths]
  simp only [List.length_cons, List.length_append, length_be, List.length_nil]
  omega

theorem frameKey_of_select {flag : BitVec 2} {T : Nat} {k : Key}
    (h : k ≠ .fe → (variantSelect c flag T).map variantKey = some k) :
    frameKey c flag (keyFamily k) T = some k := by
  cases k with
  | fe => rfl
  | digi => exact h nofun
  | lora => exact h nofun

/-- The record of a built frame, once it has the context's key, by its parts. -/
theorem parts_of_keyedRecord {mode : FloatMode} {out : DecodedFrame} (hwidths : FitsWidths c kind ctx)
    (hrec : KeyedRecord c mode (keyFamily ctx.key) ctx.key (builtFrame c kind ctx p) out) :
    out.command = some (txCommand c ctx.key kind ctx) ∧ out.address = some ctx.address ∧
      out.unparsed = some (txUnparsed c ctx.key kind ctx) ∧
      contentStart c ctx.key ≤ (builtFrame c kind ctx p).length - 1 ∧
      out.content = some (builtContent c kind ctx p) := by
  obtain ⟨hcw, haw, huw, -⟩ := hwidths
  rw [widths_eq] at hcw haw huw
  dsimp only at hcw haw huw
  obtain ⟨chk, hframe⟩ := builtFrame_eq_parts c kind ctx p
  have hlf := length_be (lengthWidth (keyFamily ctx.key)) (builtLength c kind ctx p)
  obtain ⟨hcommand, haddress, hunparsed⟩ := regions_of_keyedRecord hrec
  have hcontent := content_of_keyedRecord_long hrec
  rw [hframe] at hcommand haddress hunparsed hcontent ⊢
  generalize be (lengthWidth (keyFamily ctx.key)) (builtLength c kind ctx p) = lf at *
  generalize txCommand c ctx.key kind ctx = cmd at *
  generalize txUnparsed c ctx.key kind ctx = unp at *
  generalize builtContent c kind ctx p = content at *
  set head : Bytes := marker (keyFamily ctx.key) :: lf with hhead
  have hbody : marker (keyFamily ctx.key) :: (lf ++ (cmd ++ ctx.address ++ unp ++ content) ++ [chk]) =
      head ++ cmd ++ ctx.address ++ unp ++ content ++ [chk] := by simp [hhead]
  have hhl : head.length = 1 + lengthWidth (keyFamily ctx.key) := by
    rw [hhead, List.length_cons, hlf, Nat.add_comm]
  have hstart : (head ++ cmd ++ ctx.address ++ unp).length = contentStart c ctx.key := by
    rw [List.length_append, List.length_append, List.length_append, hhl, hcw, haw, huw]
    rfl
  rw [hbody] at hcommand haddress hunparsed hcontent ⊢
  rw [List.dropLast_concat] at hcommand haddress hunparsed
  have hlong : contentStart c ctx.key ≤
      (head ++ cmd ++ ctx.address ++ unp ++ content ++ [chk]).length - 1 := by
    rw [List.length_append, List.length_append, hstart, List.length_singleton]
    omega
  refine ⟨hcommand.trans ?_, haddress.trans ?_, hunparsed.trans ?_, hlong, (hcontent hlong).trans ?_⟩
  · rw [List.append_assoc, List.append_assoc]
    exact sliceWithin_append _ hhl hcw
  · rw [List.append_assoc]
    exact sliceWithin_append _ (by rw [List.length_append, hhl, hcw]) haw
  · exact sliceWithin_append _ (by rw [List.length_append, List.length_append, hhl, hcw, haw]) huw
  · rw [slice_pred_length, List.append_assoc, List.drop_left' hstart, List.dropLast_concat]

end Decoded

/-- Settles O56: the record has the context's key, and then it is the frame cut into its parts. -/
theorem builtFrameDecodesBack : Obligations.BuiltFrameDecodesBack := by
  intro i kind ctx s t f hbuild hexec hresponse hselect
  obtain ⟨hwidths, hlength, rfl⟩ := eq_builtFrame_of_exec hbuild hexec hresponse
  obtain ⟨tl, hframe, htotal⟩ := length_builtFrame hwidths hlength
  obtain ⟨h0, -, -, h5⟩ := flags_decodeNow_marker (keyFamily ctx.key) tl s
  have hkey := (key_decodeNow_marker (keyFamily ctx.key) tl s).trans
    (hframe ▸ frameKey_of_select hselect)
  rw [← hframe] at h0 h5 hkey
  obtain ⟨-, hrec⟩ := keyedRecord_of_key hkey
  obtain ⟨hcommand, haddress, hunparsed, hlong, hcontent⟩ := parts_of_keyedRecord hwidths hrec
  obtain ⟨hvendor, hdeviceType, hgroup, hcode, hpayload⟩ := prefix_of_keyedRecord hrec hcontent
  obtain ⟨hvendor', hdeviceType', hgroup', hcode', hfits, hpayload'⟩ := prefix_builtContent hwidths {}
  rw [hvendor'] at hvendor
  rw [hdeviceType'] at hdeviceType
  rw [hgroup'] at hgroup
  rw [if_pos hfits, hpayload'] at hpayload
  refine ⟨_, decodeAnswers_decodeNow _ s, hkey, hcode.trans hcode', hpayload, h0,
    variantUnresolved_of_keyedRecord hrec, ?_, ?_, ?_, hcommand, haddress, hunparsed, hvendor, hdeviceType,
    hgroup⟩
  · rw [← Bool.not_eq_true, headerTruncated_iff_of_keyedRecord hrec]
    exact hlong.not_gt
  · rw [← Bool.not_eq_true, (fcAbsent_of_keyedRecord hrec hcontent).1]
    exact hfits.not_gt
  · rw [← Bool.not_eq_true, h5]
    exact fun ⟨_, hne⟩ => hne htotal

end Sys2Proof.Proofs
end

section
/-! PROOFS. Rounding to a binary format (spec/42_float_codec.md R124 to R129). Both codecs round a magnitude
to a multiple of a quantum, which is the format's least one or leaves the significand full, and that
multiple is nearest among all values of the format (`Rounded`). -/

namespace Sys2Proof.Proofs

open Sys2Proof.Machine Sys2Proof.Claims

/-! ### Magnitudes of a format -/

section Magnitude

/-- The magnitude of the fields `e` and `f` in the format of `P` fraction bits and least quantum
`2 ^ qmin`. -/
def magnitude (P : Nat) (qmin : Int) (e f : Nat) : ℚ :=
  if e = 0 then (f : ℚ) * 2 ^ qmin else (2 ^ P + f : ℚ) * 2 ^ (qmin + e - 1)

theorem magnitude32_eq (e f : Nat) : magnitude32 e f = magnitude 23 (-149) e f := by
  rw [magnitude32, magnitude, show -149 + (e : ℤ) - 1 = e - 150 by ring]

theorem magnitude64_eq (e f : Nat) : magnitude64 e f = magnitude 52 (-1074) e f := by
  rw [magnitude64, magnitude, show -1074 + (e : ℤ) - 1 = e - 1075 by ring]

variable {P e f e' f' : Nat} {qmin : Int}

/-- A magnitude is a short multiple of a quantum of the format. -/
theorem exists_multiple_of_magnitude (hf : f < 2 ^ P) :
    ∃ (n : Nat) (q : Int), n < 2 ^ (P + 1) ∧ qmin ≤ q ∧ magnitude P qmin e f = (n : ℚ) * 2 ^ q := by
  have hpow : 2 ^ (P + 1) = 2 ^ P + 2 ^ P := by ring
  rcases Nat.eq_zero_or_pos e with rfl | he
  · exact ⟨f, qmin, by omega, le_rfl, if_pos rfl⟩
  · refine ⟨2 ^ P + f, qmin + e - 1, by omega, by omega, ?_⟩
    rw [magnitude, if_neg he.ne']
    push_cast
    rfl

/-- A greater exponent field gives a greater magnitude. -/
theorem magnitude_lt_of_exponent_lt (hf : f < 2 ^ P) (he : e < e') :
    magnitude P qmin e f < magnitude P qmin e' f' := by
  have hf' : (f : ℚ) < 2 ^ P := by exact_mod_cast hf
  have hbound : magnitude P qmin e f < 2 ^ P * 2 ^ (qmin + e' - 1) := by
    rcases Nat.eq_zero_or_pos e with rfl | hpos
    · rw [magnitude, if_pos rfl]
      calc (f : ℚ) * 2 ^ qmin < 2 ^ P * 2 ^ qmin := mul_lt_mul_of_pos_right hf' (by positivity)
        _ ≤ 2 ^ P * 2 ^ (qmin + e' - 1) :=
          mul_le_mul_of_nonneg_left (zpow_le_zpow_right₀ one_le_two (by omega)) (by positivity)
    · rw [magnitude, if_neg hpos.ne']
      calc (2 ^ P + f : ℚ) * 2 ^ (qmin + e - 1) < (2 ^ P * 2) * 2 ^ (qmin + e - 1) :=
            mul_lt_mul_of_pos_right (by linarith) (by positivity)
        _ = 2 ^ P * 2 ^ (qmin + e) := by
            rw [mul_assoc, ← zpow_one_add₀ two_ne_zero, show 1 + (qmin + e - 1) = qmin + (e : ℤ) by ring]
        _ ≤ 2 ^ P * 2 ^ (qmin + e' - 1) :=
          mul_le_mul_of_nonneg_left (zpow_le_zpow_right₀ one_le_two (by omega)) (by positivity)
  refine hbound.trans_le ?_
  rw [magnitude, if_neg (by omega)]
  exact mul_le_mul_of_nonneg_right (by simp) (by positivity)

/-- The fields of a format are determined by their magnitude. -/
theorem magnitude_injective (hf : f < 2 ^ P) (hf' : f' < 2 ^ P)
    (h : magnitude P qmin e f = magnitude P qmin e' f') : e = e' ∧ f = f' := by
  rcases Nat.lt_trichotomy e e' with hlt | rfl | hgt
  · exact absurd h (magnitude_lt_of_exponent_lt hf hlt).ne
  · refine ⟨rfl, ?_⟩
    unfold magnitude at h
    split_ifs at h
    · exact_mod_cast mul_right_cancel₀ (by positivity) h
    · exact_mod_cast add_left_cancel (mul_right_cancel₀ (by positivity) h)
  · exact absurd h (magnitude_lt_of_exponent_lt hf' hgt).ne'

end Magnitude

/-! ### Rounding -/

/-- The number `y * 2 ^ q` is rounded to `r * 2 ^ q`, ties to even, in the format of `P` fraction bits and
least quantum `2 ^ qmin`. -/
structure Rounded (P : Nat) (qmin : Int) (y : ℚ) (r : Nat) (q : Int) : Prop where
  quantum : qmin ≤ q
  near : |y - r| ≤ 1 / 2
  even : |y - r| = 1 / 2 → r % 2 = 0
  normal : q = qmin ∨ 2 ^ P ≤ y
  upper : y < 2 ^ (P + 1)

/-- `r * 2 ^ q` is the magnitude of the fields `e` and `f`, the last bit included. -/
structure Packs (P : Nat) (qmin : Int) (r : Nat) (q : Int) (e f : Nat) : Prop where
  fraction : f < 2 ^ P
  magnitude_eq : magnitude P qmin e f = (r : ℚ) * 2 ^ q
  even : r % 2 = 0 → f % 2 = 0

section Rounding

variable {P r : Nat} {qmin q : Int} {y : ℚ}

/-- No value of the format is nearer than the rounded one: a finer one is below the full significand, and
every other is a multiple of the same quantum. -/
theorem nearest_of_rounded (h : Rounded P qmin y r q) {n q' : Int} (hq' : qmin ≤ q')
    (hn : |n| < 2 ^ (P + 1)) :
    |y * 2 ^ q - r * 2 ^ q| ≤ |y * 2 ^ q - n * 2 ^ q'| ∧
      (|y * 2 ^ q - r * 2 ^ q| = |y * 2 ^ q - n * 2 ^ q'| → (n : ℚ) * 2 ^ q' ≠ r * 2 ^ q → r % 2 = 0) := by
  have hu : (0 : ℚ) < 2 ^ q := by positivity
  have hscale : |y * 2 ^ q - r * 2 ^ q| = |y - r| * 2 ^ q := by rw [← sub_mul, abs_mul, abs_of_pos hu]
  have hnear : |y * 2 ^ q - ((r : ℤ) : ℚ) * 2 ^ q| ≤ 2 ^ q / 2 := by
    rw [Int.cast_natCast, hscale]
    linarith [mul_le_mul_of_nonneg_right h.near hu.le]
  have heven : |y * 2 ^ q - ((r : ℤ) : ℚ) * 2 ^ q| = 2 ^ q / 2 → (r : ℤ) % 2 = 0 := by
    rw [Int.cast_natCast, hscale]
    intro htie
    have hhalf : |y - r| = 1 / 2 := mul_right_cancel₀ hu.ne' (htie.trans (by ring))
    exact_mod_cast h.even hhalf
  have hmultiple := fun m => nearest_multiple (n := m) hu hnear heven
  simp only [Int.cast_natCast] at hmultiple
  rcases le_or_gt q q' with hle | hlt
  · have hn' : (n : ℚ) * 2 ^ q' = ((n * 2 ^ (q' - q).toNat : ℤ) : ℚ) * 2 ^ q := by
      push_cast
      rw [mul_assoc, ← zpow_natCast, ← zpow_add₀ two_ne_zero, Int.toNat_of_nonneg (by omega),
        Int.sub_add_cancel]
    rw [hn']
    obtain ⟨hmin, htie⟩ := hmultiple (n * 2 ^ (q' - q).toNat)
    refine ⟨hmin, fun heq hne => ?_⟩
    exact_mod_cast htie heq fun hr => hne (by rw [hr, Int.cast_natCast])
  · have hy : 2 ^ P ≤ y := h.normal.resolve_left (by omega)
    have hsmall : |(n : ℚ) * 2 ^ q'| < 2 ^ P * 2 ^ q := by
      have hn' : |(n : ℚ)| < 2 ^ (P + 1) := by exact_mod_cast hn
      calc |(n : ℚ) * 2 ^ q'| = |(n : ℚ)| * 2 ^ q' := by
            rw [abs_mul, abs_of_pos (show (0 : ℚ) < 2 ^ q' by positivity)]
        _ < 2 ^ (P + 1) * 2 ^ q' := mul_lt_mul_of_pos_right hn' (by positivity)
        _ = 2 ^ P * 2 ^ (1 + q') := by rw [pow_succ, mul_assoc, zpow_one_add₀ two_ne_zero]
        _ ≤ 2 ^ P * 2 ^ q :=
          mul_le_mul_of_nonneg_left (zpow_le_zpow_right₀ one_le_two (by omega)) (by positivity)
    have hfull := (hmultiple (2 ^ P)).1
    have hyu : (2 : ℚ) ^ P * 2 ^ q ≤ y * 2 ^ q := mul_le_mul_of_nonneg_right hy hu.le
    push_cast at hfull
    rw [abs_of_nonneg (sub_nonneg.2 hyu)] at hfull
    have hstrict : |y * 2 ^ q - r * 2 ^ q| < |y * 2 ^ q - n * 2 ^ q'| := by
      linarith [le_abs_self ((n : ℚ) * 2 ^ q'), le_abs_self (y * 2 ^ q - n * 2 ^ q')]
    exact ⟨hstrict.le, fun heq => absurd heq hstrict.ne⟩

/-- The sign of a sign bit. -/
def signValue (s : BitVec 1) : ℚ := if s.msb then -1 else 1

theorem signValue_eq (s : BitVec 1) : signValue s = 1 ∨ signValue s = -1 := by
  unfold signValue
  split_ifs
  · exact .inr rfl
  · exact .inl rfl

/-- The same for numbers of either sign. -/
theorem nearest_signed_of_rounded (h : Rounded P qmin y r q) (s s' : BitVec 1) {e f : Nat}
    (hf : f < 2 ^ P) :
    |signValue s * (y * 2 ^ q) - signValue s * (r * 2 ^ q)| ≤
        |signValue s * (y * 2 ^ q) - signValue s' * magnitude P qmin e f| ∧
      (|signValue s * (y * 2 ^ q) - signValue s * (r * 2 ^ q)| =
          |signValue s * (y * 2 ^ q) - signValue s' * magnitude P qmin e f| →
        signValue s' * magnitude P qmin e f ≠ signValue s * (r * 2 ^ q) → r % 2 = 0) := by
  obtain ⟨n, q', hn, hq', hmag⟩ := exists_multiple_of_magnitude (e := e) (qmin := qmin) hf
  obtain ⟨N, hN, hvalue⟩ : ∃ N : ℤ, |N| < 2 ^ (P + 1) ∧
      signValue s' * magnitude P qmin e f = signValue s * (N * 2 ^ q') := by
    have habs : |(n : ℤ)| < 2 ^ (P + 1) := by exact_mod_cast hn
    rw [hmag]
    rcases signValue_eq s with hs | hs <;> rcases signValue_eq s' with hs' | hs' <;> rw [hs, hs']
    · exact ⟨n, habs, by push_cast; ring⟩
    · exact ⟨-n, by rwa [abs_neg], by push_cast; ring⟩
    · exact ⟨-n, by rwa [abs_neg], by push_cast; ring⟩
    · exact ⟨n, habs, by push_cast; ring⟩
  have hunit : |signValue s| = 1 := by rcases signValue_eq s with hs | hs <;> rw [hs] <;> simp
  have hne : signValue s ≠ 0 := abs_ne_zero.1 (hunit ▸ one_ne_zero)
  rw [hvalue, ← mul_sub, ← mul_sub, abs_mul, abs_mul, hunit, one_mul, one_mul]
  obtain ⟨hmin, htie⟩ := nearest_of_rounded h hq' hN
  exact ⟨hmin, fun heq hdiff => htie heq fun h0 => hdiff (by rw [h0])⟩

/-! ### The rounded significand and its fields -/

theorem le_of_rounded (h : Rounded P qmin y r q) : r ≤ 2 ^ (P + 1) := by
  have hlt : (r : ℚ) < 2 ^ (P + 1) + 1 := by linarith [(abs_le.1 h.near).1, h.upper]
  exact Nat.lt_succ_iff.1 (by exact_mod_cast hlt)

theorem le_of_rounded_of_le {n : Nat} (h : Rounded P qmin y r q) (hn : (n : ℚ) ≤ y) : n ≤ r := by
  have hlt : (n : ℚ) < r + 1 := by linarith [(abs_le.1 h.near).2]
  exact Nat.lt_succ_iff.1 (by exact_mod_cast hlt)

theorem rounded_le_of_le {n : Nat} (h : Rounded P qmin y r q) (hn : y ≤ n) : r ≤ n := by
  have hlt : (r : ℚ) < n + 1 := by linarith [(abs_le.1 h.near).1]
  exact Nat.lt_succ_iff.1 (by exact_mod_cast hlt)

/-- The significand carries out exactly from half a unit below the next power of two on. -/
theorem carries_iff_of_rounded (h : Rounded P qmin y r q) :
    r = 2 ^ (P + 1) ↔ 2 ^ (P + 1) - 1 / 2 ≤ y := by
  have hcast : ((2 ^ (P + 1) : ℕ) : ℚ) = 2 ^ (P + 1) := by push_cast; rfl
  constructor
  · rintro rfl
    linarith [(abs_le.1 h.near).1]
  · intro hy
    refine le_antisymm (le_of_rounded h) ?_
    by_contra hlt
    have hr : (r : ℚ) + 1 ≤ 2 ^ (P + 1) := by exact_mod_cast Nat.lt_of_not_le hlt
    have hnear := (abs_le.1 h.near).2
    have htie : |y - r| = 1 / 2 := by
      rw [abs_of_nonneg (by linarith)]
      linarith
    have hone : r + 1 = 2 ^ (P + 1) := by
      have : (r : ℚ) + 1 = 2 ^ (P + 1) := by linarith
      exact_mod_cast this
    have heven := h.even htie
    rw [pow_succ] at hone
    omega

/-- A full significand goes to the fraction field without its leading bit; one that carried out is the
power of two one exponent above. -/
theorem packs_normal (h : Rounded P qmin y r q) (hlo : 2 ^ P ≤ r) (hP : P ≠ 0) :
    Packs P qmin r q ((if r = 2 ^ (P + 1) then q + 1 else q) - qmin + 1).toNat
      ((if r = 2 ^ (P + 1) then 2 ^ P else r) - 2 ^ P) := by
  have hq := h.quantum
  have hr := le_of_rounded h
  have hpow : 2 ^ (P + 1) = 2 ^ P + 2 ^ P := by ring
  have hpos : 0 < 2 ^ P := by positivity
  split_ifs with hcarry
  · refine ⟨by omega, ?_, fun _ => by rw [Nat.sub_self]⟩
    rw [magnitude, if_neg (by omega), Int.toNat_of_nonneg (by omega), Nat.sub_self, hcarry]
    push_cast
    rw [add_zero, show qmin + (q + 1 - qmin + 1) - 1 = 1 + q by ring, zpow_one_add₀ two_ne_zero, pow_succ,
      mul_assoc]
  · refine ⟨by omega, ?_, fun heven => ?_⟩
    · rw [magnitude, if_neg (by omega), Nat.cast_sub hlo, Int.toNat_of_nonneg (by omega)]
      push_cast
      rw [add_sub_cancel, show qmin + (q - qmin + 1) - 1 = q by ring]
    · have hdvd : 2 ^ P % 2 = 0 := by
        obtain ⟨m, rfl⟩ := Nat.exists_eq_succ_of_ne_zero hP
        rw [Nat.pow_succ, Nat.mul_mod_left]
      omega

/-- The overflow bound: the quantum after the carry is at most `2 ^ Q` exactly below half a unit under the
power of two above it. -/
theorem quantum_le_iff_of_rounded (h : Rounded P qmin y r q) (hlo : 2 ^ P ≤ y) (Q : Int) :
    (if r = 2 ^ (P + 1) then q + 1 else q) ≤ Q ↔ y * 2 ^ q < (2 ^ (P + 1) - 1 / 2) * 2 ^ Q := by
  have hcarry := carries_iff_of_rounded h
  have hone : (1 : ℚ) ≤ 2 ^ P := one_le_pow₀ one_le_two
  have hpow : (2 : ℚ) ^ (P + 1) = 2 * 2 ^ P := by ring
  have hq : (0 : ℚ) < 2 ^ q := by positivity
  have hQ : (0 : ℚ) < 2 ^ Q := by positivity
  have hnext : ∀ a : ℤ, (2 : ℚ) ^ (a + 1) = 2 * 2 ^ a := fun a => by
    rw [add_comm, zpow_one_add₀ two_ne_zero]
  split_ifs with hr
  · refine ⟨fun hle => ?_, fun hlt => ?_⟩
    · have hstep : (2 : ℚ) * 2 ^ q ≤ 2 ^ Q := hnext q ▸ zpow_le_zpow_right₀ one_le_two hle
      calc y * 2 ^ q < 2 ^ (P + 1) * 2 ^ q := mul_lt_mul_of_pos_right h.upper hq
        _ = 2 ^ P * (2 * 2 ^ q) := by rw [hpow]; ring
        _ ≤ 2 ^ P * 2 ^ Q := mul_le_mul_of_nonneg_left hstep (by positivity)
        _ ≤ (2 ^ (P + 1) - 1 / 2) * 2 ^ Q := mul_le_mul_of_nonneg_right (by linarith) hQ.le
    · by_contra hgt
      have hstep : (2 : ℚ) ^ Q ≤ 2 ^ q := zpow_le_zpow_right₀ one_le_two (by omega)
      exact hlt.not_ge (mul_le_mul (hcarry.1 hr) hstep hQ.le (by linarith))
  · refine ⟨fun hle => ?_, fun hlt => ?_⟩
    · calc y * 2 ^ q < (2 ^ (P + 1) - 1 / 2) * 2 ^ q :=
            mul_lt_mul_of_pos_right (lt_of_not_ge (mt hcarry.2 hr)) hq
        _ ≤ (2 ^ (P + 1) - 1 / 2) * 2 ^ Q :=
            mul_le_mul_of_nonneg_left (zpow_le_zpow_right₀ one_le_two hle) (by linarith)
    · by_contra hgt
      have hstep : (2 : ℚ) * 2 ^ Q ≤ 2 ^ q := hnext Q ▸ zpow_le_zpow_right₀ one_le_two (by omega)
      refine hlt.not_ge ?_
      calc (2 ^ (P + 1) - 1 / 2 : ℚ) * 2 ^ Q ≤ 2 ^ (P + 1) * 2 ^ Q :=
            mul_le_mul_of_nonneg_right (by linarith) hQ.le
        _ = 2 ^ P * (2 * 2 ^ Q) := by rw [hpow]; ring
        _ ≤ y * 2 ^ q := mul_le_mul hlo hstep (by positivity) (by linarith)

/-- Below the full significand, at the least quantum, the fraction field holds it all. -/
theorem packs_subnormal (hr : r < 2 ^ P) : Packs P qmin r qmin 0 r := ⟨hr, if_pos rfl, id⟩

end Rounding

end Sys2Proof.Proofs
end

section
/-! PROOFS. The two codecs round (spec/42_float_codec.md R124 to R129). F32_ENCODE and the LEGACY product
each give a `Rounded` magnitude in the fields that pack it, up to their overflow bound; so the result is
nearest, and a binary32 value that is widened and encoded again is its own nearest one. -/

namespace Sys2Proof.Proofs

open Sys2Proof.Machine Sys2Proof.Claims

/-! ### Encode (R127) -/

/-- The magnitude `M * 2 ^ q` in its binade: a significand between `2 ^ 23` and `2 ^ 24`. -/
theorem rounded_rne_normal {M : Nat} {q : Int} (hM : 0 < M) (hk : -126 ≤ (bitlen M : ℤ) - 1 + q) :
    2 ^ 23 ≤ (M : ℚ) * 2 ^ (-((bitlen M : ℤ) - 24)) ∧
      Rounded 23 (-149) ((M : ℚ) * 2 ^ (-((bitlen M : ℤ) - 24))) (rne M ((bitlen M : ℤ) - 24))
        ((bitlen M : ℤ) - 24 + q) := by
  obtain ⟨hlo, hhi⟩ := mul_zpow_bounds hM (-((bitlen M : ℤ) - 24))
  obtain ⟨hnear, heven⟩ := rne_near M ((bitlen M : ℤ) - 24)
  rw [show (bitlen M : ℤ) - 1 + -((bitlen M : ℤ) - 24) = (23 : ℕ) by push_cast; ring, zpow_natCast] at hlo
  rw [show (bitlen M : ℤ) + -((bitlen M : ℤ) - 24) = (24 : ℕ) by push_cast; ring, zpow_natCast] at hhi
  exact ⟨hlo, by omega, hnear, heven, .inr hlo, hhi⟩

/-- The magnitude `M * 2 ^ q` below the normal range: at most `2 ^ 23` of the least quantum. -/
theorem rounded_rne_subnormal {M : Nat} {q : Int} (hM : 0 < M) (hk : (bitlen M : ℤ) - 1 + q < -126) :
    (M : ℚ) * 2 ^ (-(-149 - q)) ≤ 2 ^ 23 ∧
      Rounded 23 (-149) ((M : ℚ) * 2 ^ (-(-149 - q))) (rne M (-149 - q)) (-149) := by
  obtain ⟨hnear, heven⟩ := rne_near M (-149 - q)
  have hhi : (M : ℚ) * 2 ^ (-(-149 - q)) ≤ 2 ^ 23 := by
    refine (mul_zpow_bounds hM (-(-149 - q))).2.le.trans ?_
    rw [← zpow_natCast (2 : ℚ) 23]
    exact zpow_le_zpow_right₀ one_le_two (by push_cast; omega)
  exact ⟨hhi, le_rfl, hnear, heven, .inl rfl, hhi.trans_lt (by norm_num)⟩

/-- What the encoder of a finite nonzero number rounds to, and the fields that pack it below the overflow
bound. -/
theorem f32encFinite_rounded (s : BitVec 1) {M : Nat} {q : Int} (hM : 0 < M) :
    ∃ y r q', Rounded 23 (-149) y r q' ∧ (M : ℚ) * 2 ^ q = y * 2 ^ q' ∧
      ((M : ℚ) * 2 ^ q < 2 ^ 128 - 2 ^ 103 → ∃ e f, e < 0xFF ∧ Packs 23 (-149) r q' e f ∧
        f32encFinite s M q = pack32 s e f) := by
  rcases le_or_gt (-126) ((bitlen M : ℤ) - 1 + q) with hk | hk
  · obtain ⟨hlo, hround⟩ := rounded_rne_normal hM hk
    have hx : (M : ℚ) * 2 ^ q = M * 2 ^ (-((bitlen M : ℤ) - 24)) * 2 ^ ((bitlen M : ℤ) - 24 + q) := by
      rw [mul_assoc, ← zpow_add₀ two_ne_zero, neg_add_cancel_left]
    refine ⟨_, _, _, hround, hx, fun hlt => ?_⟩
    have hbound : (2 ^ 128 - 2 ^ 103 : ℚ) = (2 ^ (23 + 1) - 1 / 2) * 2 ^ (104 : ℤ) := by norm_num
    rw [hbound, hx, ← quantum_le_iff_of_rounded hround hlo] at hlt
    have hpacks := packs_normal hround (le_of_rounded_of_le hround (by exact_mod_cast hlo)) (by decide)
    refine ⟨_, _, ?_, hpacks, ?_⟩
    · split_ifs at hlt ⊢ <;> omega
    · unfold f32encFinite
      dsimp only
      rw [if_pos hk, if_neg (by split_ifs at hlt ⊢ <;> omega)]
      congr 1
      split_ifs <;> congr 1 <;> ring
  · obtain ⟨hhi, hround⟩ := rounded_rne_subnormal hM hk
    have hx : (M : ℚ) * 2 ^ q = M * 2 ^ (-(-149 - q)) * 2 ^ (-149 : ℤ) := by
      rw [mul_assoc, ← zpow_add₀ two_ne_zero, show -(-149 - q) + -149 = q by ring]
    refine ⟨_, _, _, hround, hx, fun _ => ?_⟩
    unfold f32encFinite
    dsimp only
    rw [if_neg hk.not_ge]
    split_ifs with hr
    · exact ⟨1, 0, by decide, by simpa [hr] using packs_normal hround hr.ge (by decide), rfl⟩
    · have hle := rounded_le_of_le hround (n := 2 ^ 23) (by exact_mod_cast hhi)
      exact ⟨0, _, by decide, packs_subnormal (by omega), rfl⟩

/-- The same for a finite binary64 pattern, zeros included. -/
theorem f32enc_rounded (s : BitVec 1) {e f : Nat} (he : e < 0x7FF) (hf : f < 2 ^ 52) :
    ∃ y r q, Rounded 23 (-149) y r q ∧ magnitude64 e f = y * 2 ^ q ∧
      (magnitude64 e f < 2 ^ 128 - 2 ^ 103 → ∃ e' f', e' < 0xFF ∧ Packs 23 (-149) r q e' f' ∧
        f32enc (pack64 s e f) = pack32 s e' f') := by
  by_cases hz : e = 0 ∧ f = 0
  · obtain ⟨rfl, rfl⟩ := hz
    exact ⟨0, 0, -149, ⟨le_rfl, by norm_num, by norm_num, .inl rfl, by norm_num⟩, by simp [magnitude64],
      fun _ => ⟨0, 0, by decide, packs_subnormal (by decide), f32enc_zero s⟩⟩
  · obtain ⟨M, q, hM, henc, hmag⟩ := f32enc_finite s he hf hz
    rw [henc, hmag]
    exact f32encFinite_rounded s hM

/-! ### Signed values and last bits -/

section Fields

variable (s : BitVec 1) {e f : Nat}

theorem value32_pack32_eq (he : e < 2 ^ 8) (hf : f < 2 ^ 23) :
    value32 (pack32 s e f) = signValue s * magnitude 23 (-149) e f := by
  rw [value32_pack32 s he hf, magnitude32_eq]
  rfl

theorem value64_pack64_eq (he : e < 2 ^ 11) (hf : f < 2 ^ 52) :
    value64 (pack64 s e f) = signValue s * magnitude 52 (-1074) e f := by
  rw [value64_pack64 s he hf, magnitude64_eq]
  rfl

theorem getLsbD_zero_pack32 (he : e < 2 ^ 8) (hf : f < 2 ^ 23) (heven : f % 2 = 0) :
    (pack32 s e f).getLsbD 0 = false := by
  rw [BitVec.getLsbD, pack32_toNat s he hf, Nat.testBit_zero, decide_eq_false_iff_not]
  omega

theorem getLsbD_zero_pack64 (he : e < 2 ^ 11) (hf : f < 2 ^ 52) (heven : f % 2 = 0) :
    (pack64 s e f).getLsbD 0 = false := by
  rw [BitVec.getLsbD, pack64_toNat s he hf, Nat.testBit_zero, decide_eq_false_iff_not]
  omega

end Fields

/-- Settles O26: the magnitude is rounded, its sign is kept, and every binary32 is a value of the format. -/
theorem f32EncodeIsNearest : Obligations.F32EncodeIsNearest := by
  intro d st hfin hlt
  obtain ⟨s, e, f, he, hf, rfl⟩ := exists_eq_pack64 d
  have he' : e ≠ 0x7FF := (finite64_pack64 s he hf).1 hfin
  rw [abs_value64_pack64 s he hf] at hlt
  obtain ⟨y, r, q, hround, hmag, henc⟩ := f32enc_rounded s (show e < 0x7FF by omega) hf
  obtain ⟨e', f', hexp, hpacks, hresult⟩ := henc hlt
  have hexp' : e' < 2 ^ 8 := by omega
  have hvalue : value64 (pack64 s e f) = signValue s * (y * 2 ^ q) := by
    rw [value64_pack64_eq s he hf, ← magnitude64_eq, hmag]
  refine ⟨_, exec_f32Encode _ st, ?_⟩
  rw [hresult, msb_pack32, msb_pack64, finite32_pack32 s hexp' hpacks.fraction, hvalue,
    value32_pack32_eq s hexp' hpacks.fraction, hpacks.magnitude_eq]
  refine ⟨rfl, hexp.ne, fun w' _ => ?_⟩
  obtain ⟨s', a, b, ha, hb, rfl⟩ := exists_eq_pack32 w'
  rw [value32_pack32_eq s' ha hb]
  obtain ⟨hmin, htie⟩ := nearest_signed_of_rounded hround s s' (e := a) hb
  exact ⟨hmin, fun heq hne => getLsbD_zero_pack32 s hexp' hpacks.fraction (hpacks.even (htie heq hne))⟩

/-! ### Widening and encoding again (R129) -/

/-- The last finite magnitude of a binary32 lies below the overflow bound of the encoder. -/
theorem magnitude32_lt {e f : Nat} (he : e < 0xFF) (hf : f < 2 ^ 23) :
    magnitude32 e f < 2 ^ 128 - 2 ^ 103 := by
  have hle : magnitude32 e f ≤ magnitude32 254 (2 ^ 23 - 1) := by
    rw [magnitude32_eq, magnitude32_eq]
    rcases Nat.lt_or_ge e 254 with hlt | hge
    · exact (magnitude_lt_of_exponent_lt hf hlt).le
    · obtain rfl : e = 254 := by omega
      have hf' : (f : ℚ) ≤ ((2 ^ 23 - 1 : ℕ) : ℚ) := by exact_mod_cast Nat.le_sub_one_of_lt hf
      rw [magnitude, magnitude, if_neg (by decide), if_neg (by decide)]
      exact mul_le_mul_of_nonneg_right (by linarith) (by positivity)
  refine hle.trans_lt ?_
  rw [magnitude32, if_neg (by decide)]
  norm_num

/-- A magnitude that a finite binary32 has is its own nearest one. -/
theorem f32enc_of_magnitude_eq (s : BitVec 1) {e f e' f' : Nat} (he : e < 0xFF) (hf : f < 2 ^ 23)
    (he' : e' < 0x7FF) (hf' : f' < 2 ^ 52) (hmag : magnitude64 e' f' = magnitude32 e f) :
    f32enc (pack64 s e' f') = pack32 s e f := by
  obtain ⟨y, r, q, hround, hy, henc⟩ := f32enc_rounded s he' hf'
  obtain ⟨a, b, -, hpacks, hresult⟩ := henc (hmag ▸ magnitude32_lt he hf)
  obtain ⟨n, q', hn, hq', hvalue⟩ := exists_multiple_of_magnitude (e := e) (qmin := -149) hf
  have hx : y * 2 ^ q = ((n : ℤ) : ℚ) * 2 ^ q' := by
    rw [← hy, hmag, magnitude32_eq, hvalue, Int.cast_natCast]
  have habs : |(n : ℤ)| < 2 ^ (23 + 1) := by exact_mod_cast hn
  have hnear := (nearest_of_rounded hround hq' habs).1
  rw [← hx, sub_self, abs_zero] at hnear
  have hr : y * 2 ^ q = r * 2 ^ q := sub_eq_zero.1 (abs_nonpos_iff.1 hnear)
  have heq : magnitude 23 (-149) a b = magnitude 23 (-149) e f := by
    rw [hpacks.magnitude_eq, ← hr, ← hy, hmag, magnitude32_eq]
  obtain ⟨rfl, rfl⟩ := magnitude_injective hpacks.fraction hf heq
  exact hresult

/-- The quiet bit and the payload of a NaN survive widening and narrowing. -/
theorem nan_payload_roundTrip (f : Nat) :
    2 ^ 22 ||| (2 ^ 51 ||| f * 2 ^ 29) / 2 ^ 29 = 2 ^ 22 ||| f := by
  rw [← Nat.shiftRight_eq_div_pow, Nat.shiftRight_or_distrib, Nat.shiftRight_eq_div_pow,
    Nat.shiftRight_eq_div_pow, Nat.mul_div_cancel _ (by decide), ← Nat.or_assoc]
  rfl

/-- The quiet bit is a bit of the fraction field. -/
theorem pack32_or_quiet (s : BitVec 1) {f : Nat} (hf : f < 2 ^ 23) :
    pack32 s 0xFF f ||| 0x00400000 = pack32 s 0xFF (2 ^ 22 ||| f) := by
  have hquiet : 2 ^ 22 ||| f < 2 ^ 23 := Nat.or_lt_two_pow (by decide) hf
  have hfields : ∀ g, g < 2 ^ 23 →
      (pack32 s 0xFF g).toNat = 2 ^ 23 * (s.toNat * 2 ^ 8 + 0xFF) ||| g := fun g hg => by
    rw [pack32_toNat s (by decide) hg, ← Nat.two_pow_add_eq_or_of_lt hg]
    ring
  apply BitVec.eq_of_toNat_eq
  rw [BitVec.toNat_or, hfields f hf, hfields _ hquiet, Nat.or_assoc, Nat.or_comm f]
  rfl

/-- Settles O28: a finite pattern is decoded exactly, and a NaN's payload is only shifted. -/
theorem floatRoundTrip : Obligations.FloatRoundTrip := by
  intro w st hmode
  refine ⟨_, exec_f32Decode_ieee w hmode, ?_⟩
  rw [exec_f32Encode]
  obtain ⟨s, e, f, he, hf, rfl⟩ := exists_eq_pack32 w
  rw [pack32_toNat_mod_two_pow_31 s he hf]
  congr 4
  rcases Nat.lt_or_ge e 0xFF with hfin | hinf
  · obtain ⟨e', f', he', hf', hdec, hmag⟩ := f32decIeee_finite s hfin hf
    rw [hdec, if_neg (by omega), f32enc_of_magnitude_eq s hfin hf he' hf' hmag]
  · obtain rfl : e = 0xFF := by omega
    rcases Nat.eq_zero_or_pos f with rfl | hpos
    · rw [f32decIeee_infinity, f32enc_infinity, if_neg (by omega)]
    · have hpayload : 2 ^ 51 ||| f * 2 ^ 29 < 2 ^ 52 := Nat.or_lt_two_pow (by decide) (by omega)
      have hne : 2 ^ 51 ||| f * 2 ^ 29 ≠ 0 := by simp
      rw [f32decIeee_nan s hpos.ne' hf, f32enc_nan s hne hpayload, nan_payload_roundTrip,
        if_pos (by omega), pack32_or_quiet s hf]

/-! ### LEGACY decode (R124, R125) -/

theorem floatMode_eq_legacy {s : State} (h : s.cfg.getLsbD 0 = true) : floatMode s = .legacy := by
  rw [floatMode_eq, h]
  rfl

theorem exec_f32Decode_legacy (w : Bin32) {s : State} (h : s.cfg.getLsbD 0 = true) :
    exec (.f32Decode w) s = .next (answered { s with draws := (f32decLegacy s.config w s.draws).2 } .ok
      (.bin64 (f32decLegacy s.config w s.draws).1)) := by
  change execF32Decode w s = _
  simp only [execF32Decode, floatMode_eq_legacy h, f32dec]
  rfl

theorem pack64_zero_cases (s : BitVec 1) :
    pack64 s 0 0 = 0x0000000000000000 ∨ pack64 s 0 0 = 0x8000000000000000 := by
  revert s
  decide

theorem fraction32_eq_zero_iff {w : Bin32} : fraction32 w = 0 ↔ w.toNat % 2 ^ 23 = 0 := by
  rw [← BitVec.toNat_inj, fraction32_toNat]
  rfl

theorem sign32_eq_zero_of_msb {w : Bin32} (h : w.msb = false) : sign32 w = 0 := by
  rw [msb_eq_msb_sign32] at h
  revert h
  generalize sign32 w = s
  revert s
  decide

/-- Settles O24: the zeros of the three ways to answer, and the one of them that draws. -/
theorem f32DecodeLegacyZero : Obligations.F32DecodeLegacyZero := by
  intro w s hmode hzero
  refine ⟨_, _, exec_f32Decode_legacy w hmode, ?_⟩
  rw [← fraction32_eq_zero_iff] at hzero ⊢
  rcases f32decLegacy_cases s.config w s.draws with ⟨-, -, h⟩ | ⟨hf, hs, h⟩ | ⟨hf, h⟩ <;> rw [h]
  · exact ⟨pack64_zero_cases 0, fun _ _ => rfl, fun _ => rfl⟩
  · exact ⟨pack64_zero_cases _, fun _ hmsb => absurd (sign32_eq_zero_of_msb hmsb) hs,
      fun hor => hor.elim (absurd (fraction32_eq_zero_iff.1 hf)) fun hmsb =>
        absurd (sign32_eq_zero_of_msb hmsb) hs⟩
  · have hnull := legacyProductRounded_null (w := w) (hzero.resolve_left hf)
    exact ⟨hnull ▸ pack64_zero_cases _, fun h0 => absurd h0 hf, fun _ => rfl⟩

/-- A power of two with an integer exponent, as a quotient of natural powers. -/
theorem zpow_eq_div (k : Int) : (2 : ℚ) ^ k = 2 ^ k.toNat / 2 ^ (-k).toNat := by
  rw [← zpow_natCast, ← zpow_natCast, ← zpow_sub₀ two_ne_zero]
  congr 1
  omega

theorem log2Ratio_bounds {a b : Nat} (ha : 0 < a) (hb : 0 < b) :
    (2 : ℚ) ^ log2Ratio a b ≤ a / b ∧ (a : ℚ) / b < 2 ^ (log2Ratio a b + 1) := by
  obtain ⟨hlo, hhi⟩ := log2Ratio_spec ha hb
  have hb' : (0 : ℚ) < b := by exact_mod_cast hb
  rw [zpow_eq_div, zpow_eq_div, div_le_div_iff₀ (by positivity) hb', div_lt_div_iff₀ hb' (by positivity),
    mul_comm _ (b : ℚ), mul_comm _ (b : ℚ)]
  exact ⟨by exact_mod_cast hlo, by exact_mod_cast hhi⟩

/-- The significand of `round64` at the quantum `2 ^ q`. -/
def significand64 (a b : Nat) (q : Int) : Nat :=
  roundDivEven (a * 2 ^ (-q).toNat) (b * 2 ^ q.toNat)

/-- It is the ratio, scaled by the quantum and rounded. -/
theorem significand64_near (a : Nat) {b : Nat} (hb : 0 < b) (q : Int) :
    |(a : ℚ) / b * 2 ^ (-q) - significand64 a b q| ≤ 1 / 2 ∧
      (|(a : ℚ) / b * 2 ^ (-q) - significand64 a b q| = 1 / 2 → significand64 a b q % 2 = 0) := by
  have hscale : (a : ℚ) / b * 2 ^ (-q) = ((a * 2 ^ (-q).toNat : ℕ) : ℚ) / (b * 2 ^ q.toNat : ℕ) := by
    rw [zpow_eq_div, neg_neg]
    push_cast
    exact div_mul_div_comm ..
  rw [hscale]
  exact roundDivEven_near _ (Nat.mul_pos hb (by positivity))

/-- The scaled ratio lies in the binade of its logarithm. -/
theorem ratio_scaled_bounds {a b : Nat} (ha : 0 < a) (hb : 0 < b) (q : Int) :
    (2 : ℚ) ^ (log2Ratio a b - q) ≤ (a : ℚ) / b * 2 ^ (-q) ∧
      (a : ℚ) / b * 2 ^ (-q) < 2 ^ (log2Ratio a b + 1 - q) := by
  obtain ⟨hlo, hhi⟩ := log2Ratio_bounds ha hb
  have hq : (0 : ℚ) < 2 ^ (-q) := by positivity
  rw [sub_eq_add_neg, sub_eq_add_neg, zpow_add₀ two_ne_zero, zpow_add₀ two_ne_zero]
  exact ⟨mul_le_mul_of_nonneg_right hlo hq.le, mul_lt_mul_of_pos_right hhi hq⟩

theorem ratio_eq_scaled (x : ℚ) (q : Int) : x = x * 2 ^ (-q) * 2 ^ q := by
  rw [mul_assoc, ← zpow_add₀ two_ne_zero, neg_add_cancel, zpow_zero, mul_one]

/-- In the normal range the significand is full. -/
theorem rounded_significand64_normal {a b : Nat} (ha : 0 < a) (hb : 0 < b) (hk : -1022 ≤ log2Ratio a b) :
    2 ^ 52 ≤ (a : ℚ) / b * 2 ^ (-(log2Ratio a b - 52)) ∧
      Rounded 52 (-1074) ((a : ℚ) / b * 2 ^ (-(log2Ratio a b - 52)))
        (significand64 a b (log2Ratio a b - 52)) (log2Ratio a b - 52) := by
  obtain ⟨hlo, hhi⟩ := ratio_scaled_bounds ha hb (log2Ratio a b - 52)
  obtain ⟨hnear, heven⟩ := significand64_near a hb (log2Ratio a b - 52)
  rw [show log2Ratio a b - (log2Ratio a b - 52) = (52 : ℕ) by push_cast; ring, zpow_natCast] at hlo
  rw [show log2Ratio a b + 1 - (log2Ratio a b - 52) = (53 : ℕ) by push_cast; ring, zpow_natCast] at hhi
  exact ⟨hlo, by omega, hnear, heven, .inr hlo, hhi⟩

/-- Below it the quantum is the least one. -/
theorem rounded_significand64_subnormal {a b : Nat} (ha : 0 < a) (hb : 0 < b)
    (hk : log2Ratio a b < -1022) :
    (a : ℚ) / b * 2 ^ (1074 : ℤ) ≤ 2 ^ 52 ∧
      Rounded 52 (-1074) ((a : ℚ) / b * 2 ^ (1074 : ℤ)) (significand64 a b (-1074)) (-1074) := by
  obtain ⟨hnear, heven⟩ := significand64_near a hb (-1074)
  have hhi : (a : ℚ) / b * 2 ^ (1074 : ℤ) ≤ 2 ^ 52 := by
    refine (ratio_scaled_bounds ha hb (-1074)).2.le.trans ?_
    rw [← zpow_natCast (2 : ℚ) 52]
    exact zpow_le_zpow_right₀ one_le_two (by push_cast; omega)
  exact ⟨hhi, le_rfl, hnear, heven, .inl rfl, hhi.trans_lt (pow_lt_pow_right₀ one_lt_two (by decide))⟩

/-- `round64` in the normal range, by the quantum after the carry. -/
theorem round64_normal (s : BitVec 1) {a b : Nat} (hk : -1022 ≤ log2Ratio a b) :
    let q := log2Ratio a b - 52
    let t := significand64 a b q
    let q' := if t = 2 ^ (52 + 1) then q + 1 else q
    (971 < q' → round64 s a b = pack64 s 0x7FF 0) ∧
      (q' ≤ 971 → round64 s a b =
        pack64 s (q' - -1074 + 1).toNat ((if t = 2 ^ (52 + 1) then 2 ^ 52 else t) - 2 ^ 52)) := by
  intro q t q'
  have hround : round64 s a b =
      let k' := if t = 2 ^ 53 then log2Ratio a b + 1 else log2Ratio a b
      let t' := if t = 2 ^ 53 then 2 ^ 52 else t
      if k' > 1023 then pack64 s 0x7FF 0 else pack64 s (k' + 1023).toNat (t' - 2 ^ 52) := by
    unfold round64
    dsimp only
    rw [if_neg hk.not_gt, max_eq_left hk]
    rfl
  have hk' : (if t = 2 ^ 53 then log2Ratio a b + 1 else log2Ratio a b) = q' + 52 := by
    dsimp only [q', q]
    split_ifs <;> ring
  rw [hround]
  dsimp only
  rw [hk']
  refine ⟨fun h => if_pos (by omega), fun h => ?_⟩
  rw [if_neg (by omega), show q' + 52 + 1023 = q' - -1074 + 1 by ring]

theorem round64_subnormal (s : BitVec 1) {a b : Nat} (hk : log2Ratio a b < -1022) :
    round64 s a b =
      pack64 s (significand64 a b (-1074) / 2 ^ 52) (significand64 a b (-1074) % 2 ^ 52) := by
  unfold round64
  dsimp only
  rw [if_pos hk, max_eq_right hk.le, show (-1022 : ℤ) - 52 = -1074 from rfl]
  simp only [significand64]

theorem overflow_bound64 : (2 ^ 1024 - 2 ^ 970 : ℚ) = (2 ^ (52 + 1) - 1 / 2) * 2 ^ (971 : ℤ) := by
  have h1024 : (2 : ℚ) ^ 1024 = 2 ^ 54 * 2 ^ 970 := by rw [← pow_add]
  have h971 : (2 : ℚ) ^ (971 : ℤ) = 2 * 2 ^ 970 := (zpow_natCast 2 971).trans (pow_succ' 2 970)
  rw [h1024, h971]
  generalize (2 : ℚ) ^ 970 = z
  ring

/-- What `round64` rounds to, the fields that pack it below the overflow bound, and the infinity from
there on. -/
theorem round64_rounded (s : BitVec 1) {a b : Nat} (ha : 0 < a) (hb : 0 < b) :
    ∃ y r q, Rounded 52 (-1074) y r q ∧ (a : ℚ) / b = y * 2 ^ q ∧
      ((a : ℚ) / b < 2 ^ 1024 - 2 ^ 970 → ∃ e f, e < 0x7FF ∧ Packs 52 (-1074) r q e f ∧
        round64 s a b = pack64 s e f) ∧
      (2 ^ 1024 - 2 ^ 970 ≤ (a : ℚ) / b → round64 s a b = pack64 s 0x7FF 0) := by
  rw [overflow_bound64]
  rcases le_or_gt (-1022) (log2Ratio a b) with hk | hk
  · obtain ⟨hlo, hround⟩ := rounded_significand64_normal ha hb hk
    obtain ⟨hinf, hfin⟩ := round64_normal s hk
    have hx := ratio_eq_scaled ((a : ℚ) / b) (log2Ratio a b - 52)
    have hfits := quantum_le_iff_of_rounded hround hlo 971
    rw [← hx] at hfits
    refine ⟨_, _, _, hround, hx, fun hlt => ?_, fun hge => ?_⟩
    · have hq := hfits.2 hlt
      have hfull := le_of_rounded_of_le hround (n := 2 ^ 52) (by exact_mod_cast hlo)
      refine ⟨_, _, ?_, packs_normal hround hfull (by decide), hfin hq⟩
      omega
    · exact hinf (not_le.1 (mt hfits.1 hge.not_gt))
  · obtain ⟨hhi, hround⟩ := rounded_significand64_subnormal ha hb hk
    have hx : (a : ℚ) / b = (a : ℚ) / b * 2 ^ (1074 : ℤ) * 2 ^ (-1074 : ℤ) := ratio_eq_scaled _ (-1074)
    have hle := rounded_le_of_le hround (n := 2 ^ 52) (by exact_mod_cast hhi)
    refine ⟨_, _, _, hround, hx, fun _ => ?_, fun hge => ?_⟩
    · rw [round64_subnormal s hk]
      rcases hle.lt_or_eq with hlt | heq
      · rw [Nat.div_eq_of_lt hlt, Nat.mod_eq_of_lt hlt]
        exact ⟨0, _, by decide, packs_subnormal hlt, rfl⟩
      · refine ⟨1, 0, by decide, by simpa [heq] using packs_normal hround heq.ge (by decide), ?_⟩
        rw [heq]
        rfl
    · have hlt : (a : ℚ) / b < 2 ^ (971 : ℤ) :=
        (log2Ratio_bounds ha hb).2.trans_le (zpow_le_zpow_right₀ one_le_two (by omega))
      have hbound : (2 : ℚ) ^ (971 : ℤ) ≤ (2 ^ (52 + 1) - 1 / 2) * 2 ^ (971 : ℤ) :=
        le_mul_of_one_le_left (by positivity) (by norm_num)
      exact absurd hge (hlt.trans_le hbound).not_ge

/-! ### The LEGACY product (R124) -/

theorem sign64_round64 (s : BitVec 1) (a b : Nat) : sign64 (round64 s a b) = s := by
  unfold round64
  dsimp only
  split_ifs <;> exact sign64_pack64 ..

/-- The sign of a LEGACY product. -/
def productSign (w : Bin32) (p : Ratio) : BitVec 1 := if p.num < 0 then ~~~sign32 w else sign32 w

/-- Its numerator, over `2 ^ 23` and the denominator of LEGACY_POW2. -/
def productNum (w : Bin32) (p : Ratio) : Nat := (2 ^ 23 + (fraction32 w).toNat) * p.num.natAbs

/-- Its denominator. -/
def productDen (p : Ratio) : Nat := 2 ^ 23 * (p.denPred + 1)

theorem signValue_not (s : BitVec 1) : signValue (~~~s) = -signValue s := by
  have h : s = 0 ∨ s = 1 := by
    revert s
    decide
  rcases h with rfl | rfl <;> simp [signValue]

theorem signValue_lt_zero {s : BitVec 1} : signValue s < 0 ↔ s.msb = true := by
  unfold signValue
  split_ifs with h <;> simp [h]

theorem productDen_pos (p : Ratio) : 0 < productDen p := Nat.mul_pos (by decide) (Nat.succ_pos _)

theorem productNum_pos (w : Bin32) {p : Ratio} (h : p.num ≠ 0) : 0 < productNum w p :=
  Nat.mul_pos (by omega) (Int.natAbs_pos.2 h)

/-- LEGACY_POW2 by its sign and its magnitude. -/
theorem num_eq_sign_mul_natAbs (n : Int) : (n : ℚ) = (if n < 0 then -1 else 1) * n.natAbs := by
  rw [Nat.cast_natAbs]
  split_ifs with h
  · rw [abs_of_neg h]
    push_cast
    ring
  · rw [abs_of_nonneg (not_lt.1 h), one_mul]

theorem legacyProduct_eq (c : Config) (w : Bin32) :
    legacyProduct c w = signValue (productSign w (legacyPow2 c (exponent32 w))) *
      ((productNum w (legacyPow2 c (exponent32 w)) : ℚ) / productDen (legacyPow2 c (exponent32 w))) := by
  have hdef : legacyProduct c w = signValue (sign32 w) *
      (1 + ((fraction32 w).toNat : ℚ) / 2 ^ 23) * ((legacyPow2 c (exponent32 w)).num /
        ((legacyPow2 c (exponent32 w)).denPred + 1)) := by
    rw [fraction32_toNat, signValue, ← msb_eq_msb_sign32]
    rfl
  rw [hdef]
  generalize legacyPow2 c (exponent32 w) = p
  have hsign : signValue (productSign w p) = (if p.num < 0 then -1 else 1) * signValue (sign32 w) := by
    unfold productSign
    split_ifs
    · rw [signValue_not, neg_one_mul]
    · rw [one_mul]
  rw [hsign, num_eq_sign_mul_natAbs p.num, productNum, productDen]
  push_cast
  field_simp
  ring

/-- A nonzero LEGACY product is answered as `round64` rounds it, and nothing is drawn. -/
theorem exec_f32Decode_legacy_product {w : Bin32} {s : State} (hmode : s.cfg.getLsbD 0 = true)
    (hfrac : fraction32 w ≠ 0) (hnum : (legacyPow2 s.config (exponent32 w)).num ≠ 0) :
    exec (.f32Decode w) s = .next (answered s .ok (.bin64
      (round64 (productSign w (legacyPow2 s.config (exponent32 w)))
        (productNum w (legacyPow2 s.config (exponent32 w)))
        (productDen (legacyPow2 s.config (exponent32 w)))))) := by
  rw [exec_f32Decode_legacy w hmode]
  rcases f32decLegacy_cases s.config w s.draws with ⟨h0, -, -⟩ | ⟨h0, -, -⟩ | ⟨-, h⟩
  · exact absurd h0 hfrac
  · exact absurd h0 hfrac
  · rw [h, legacyProductRounded_nonzero hnum]
    rfl

/-- Settles O25: the product is a sign and a ratio, which `round64` rounds in its magnitude. -/
theorem f32DecodeLegacyIsNearest : Obligations.F32DecodeLegacyIsNearest := by
  intro w st hmode hfrac hproduct
  have hvalue := legacyProduct_eq st.config w
  have hnum : (legacyPow2 st.config (exponent32 w)).num ≠ 0 := by
    intro h0
    rw [hvalue, productNum, h0] at hproduct
    simp at hproduct
  refine ⟨_, exec_f32Decode_legacy_product hmode (mt fraction32_eq_zero_iff.1 hfrac) hnum, ?_⟩
  generalize legacyPow2 st.config (exponent32 w) = p at *
  have ha := productNum_pos w hnum
  have hb := productDen_pos p
  obtain ⟨y, r, q, hround, hy, hfin, hinf⟩ := round64_rounded (productSign w p) ha hb
  have hpos : (0 : ℚ) < (productNum w p : ℚ) / productDen p :=
    div_pos (by exact_mod_cast ha) (by exact_mod_cast hb)
  have hunit : |signValue (productSign w p)| = 1 := by
    rcases signValue_eq (productSign w p) with h | h <;> rw [h] <;> simp
  have habs : |legacyProduct st.config w| = (productNum w p : ℚ) / productDen p := by
    rw [hvalue, abs_mul, hunit, one_mul, abs_of_pos hpos]
  rw [habs]
  refine ⟨?_, fun hlt => ?_, fun hge => ?_⟩
  · rw [msb_eq_msb_sign64, sign64_round64, hvalue, ← signValue_lt_zero, mul_neg_iff]
    simp [hpos, hpos.not_gt]
  · obtain ⟨e, f, he, hpacks, hresult⟩ := hfin hlt
    have he' : e < 2 ^ 11 := by omega
    rw [hresult, finite64_pack64 _ he' hpacks.fraction, value64_pack64_eq _ he' hpacks.fraction,
      hpacks.magnitude_eq, hvalue, hy]
    refine ⟨he.ne, fun d' _ => ?_⟩
    obtain ⟨s', e', f', he'', hf', rfl⟩ := exists_eq_pack64 d'
    rw [value64_pack64_eq s' he'' hf']
    obtain ⟨hmin, htie⟩ := nearest_signed_of_rounded hround (productSign w p) s' (e := e') hf'
    exact ⟨hmin, fun heq hne => getLsbD_zero_pack64 _ he' hpacks.fraction (hpacks.even (htie heq hne))⟩
  · rw [hinf hge, pack64_infinity_toNat_mod]

end Sys2Proof.Proofs
end
